-- ==== Sys2Proof/Word.lean ====
section
/-! DEFINITION. The words of the block: a byte of the expander port, a nibble of the LCD data bus, and the two
controller address widths (00_scope.md R10, R18). -/

namespace Sys2Proof

/-- An expander port byte, a payload byte, a host-memory byte (R18 `Byte`). -/
abbrev Byte := BitVec 8

/-- The data nibble `DT` (R18 `Nib`). -/
abbrev Nib := BitVec 4

/-- A DDRAM address, 7 bits (R10, R72). -/
abbrev DdramAddr := BitVec 7

/-- A CGRAM address, 6 bits (R10, R73). -/
abbrev CgramAddr := BitVec 6

end Sys2Proof
end

