-- ==== Sys2Proof/Syntax.lean ====
section
/-! DEFINITION. The calls a client makes of the block, one constructor for each row of spec/opcode_table.json, and
the types of their operands (30_encoding.md R100 to R118). -/

namespace Sys2Proof

/-- The port image and the fields of a Format P byte (10_state.md R31, 30_encoding.md R100). -/
structure PortImage where
  /-- Register select: 0 the instruction register, 1 the data register. -/
  rs : Bool
  /-- Read/write: 0 write, 1 read. -/
  rw : Bool
  /-- Enable. -/
  en : Bool
  /-- Backlight: 1 on. -/
  bl : Bool
  /-- The nibble on LCD lines D7..D4. -/
  dt : Nib
deriving DecidableEq, Repr, Inhabited

/-- Bus width of one access: 4-bit or 8-bit mode, a two-valued argument (30_encoding.md R122, R124). -/
inductive Width where
  | four
  | eight
deriving DecidableEq, Repr, Inhabited

/-- Settle class of a write access (41_bus_engine.md R160, R162). -/
inductive Settle where
  | short
  | clear
  | home
deriving DecidableEq, Repr, Inhabited

/-- A caller buffer in host memory: where it starts and how many bytes it has (20_memory.md R75). log 9. -/
structure Buffer where
  base : Nat
  size : Nat
deriving DecidableEq, Repr, Inhabited

/-- An expander on a bus (20_memory.md R70): the transport handle `BUS` and the 7-bit `DEV_ADDR`. -/
structure Device where
  bus : Nat
  addr : BitVec 7
deriving DecidableEq, Repr, Inhabited

/-- The expander configuration `start` binds (00_scope.md R13). `transport` stands for the opaque `TRANSPORT_CFG`. -/
structure BusConfig where
  dev : Device
  outMask : Byte
  transport : Nat
deriving DecidableEq, Repr, Inhabited

/-- One call: a host call (Format H), an engine access, an expander call (Format X), a command byte (Format C), a bus
cycle (Format B), or a port byte or burst (Formats P, T, W4, W8, RS2, RI, BLW). -/
inductive Instr where
  -- Format H: controller host calls (30_encoding.md R118)
  | init (provider : Nat)
  | start (config : BusConfig)
  | stop
  | setDisplay (d c b : Bool)
  | clear
  | returnHome
  | shift (display right : Bool)
  | updatePattern (slot : Nat) (pattern : Buffer)
  | writeChar (ch : Byte)
  | moveTo (row col : Nat)
  | drawText (row col : Nat) (text : Buffer) (len : Nat)
  | readData (ddram : Bool) (offset : Nat)
  | getStatus
  | getBusy
  | getAddress
  | setBacklight (on : Nat)
  | toggleBacklight
  -- engine accesses (30_encoding.md R117)
  | writeInstr (v : Byte) (width : Width) (settle : Settle)
  | writeData (v : Byte)
  | readStatusReg
  | readDataReg
  | blSet (on : Bool)
  | blToggle
  -- Format X: expander calls (30_encoding.md R116)
  | setPort (values : Buffer) (len : Nat) (applyMask : Bool)
  | setPortByte (value : Byte) (applyMask : Bool)
  | getPort (buffer : Buffer) (len : Nat)
  | getPortByte
  -- Format C: command bytes (30_encoding.md R107)
  | clearDisplayCmd (width : Width)
  | returnHomeCmd (width : Width)
  | entryModeSetCmd (i s : Bool) (width : Width)
  | displayControlCmd (d c b : Bool) (width : Width)
  | cursorDisplayShiftCmd (p r : Bool) (width : Width)
  | functionSetCmd (l n f : Bool) (width : Width)
  | setCgramAddrCmd (a : CgramAddr) (width : Width)
  | setDdramAddrCmd (a : DdramAddr) (width : Width)
  -- Format B: bus cycles (30_encoding.md R108)
  | busWriteInstr (v : Byte) (width : Width) (settle : Settle)
  | busWriteData (v : Byte) (width : Width)
  | busReadStatus (width : Width)
  | busReadData (width : Width)
  -- Formats P, T, W4, W8, RS2, RI, BLW (30_encoding.md R100 to R106)
  | portByte (img : PortImage)
  | nibbleTriple (rs rw bl : Bool) (n : Nib)
  | writeBurst4 (rs bl : Bool) (v : Byte)
  | writeBurst8 (rs bl : Bool) (h : Nib)
  | readSetup (rs bl : Bool)
  | readIdle (rs bl : Bool)
  | backlightWrite (bl : Bool)
deriving DecidableEq, Repr

end Sys2Proof
end

