-- ==== Sys2Proof/Config.lean ====
section
/-! DEFINITION. What an implementation fixes (00_scope.md R11 to R17) as plain data an instance carries, and the
free values the spec leaves to the environment as opaque constants. -/

namespace Sys2Proof

/-- `LAYOUT`: the bit position of each image field in the port byte; `dt` is the position of DT bit 0 (R11). -/
structure Layout where
  rs : Nat
  rw : Nat
  en : Nat
  bl : Nat
  dt : Nat
deriving DecidableEq, Repr, Inhabited

/-- Decision D1's layout, the spec's value (R11). -/
def Layout.d1 : Layout := { rs := 0, rw := 1, en := 2, bl := 3, dt := 4 }

/-- A legal layout: a permutation of the 8 bits with DT contiguous (92_eei_decisions.md, open parameters). -/
def Layout.wf (l : Layout) : Bool :=
  decide (l.dt ≤ 4) &&
  [l.rs, l.rw, l.en, l.bl].all (fun p => decide (p < 8) && (decide (p < l.dt) || decide (l.dt + 4 ≤ p))) &&
  decide [l.rs, l.rw, l.en, l.bl].Nodup

/-- `CMD`: the fixed bits of each command byte; operands are ORed in at the places of 30_encoding.md R114 (R12). -/
structure CmdSet where
  clear : Byte
  home : Byte
  entry : Byte
  display : Byte
  shift : Byte
  function : Byte
  cgram : Byte
  ddram : Byte
deriving DecidableEq, Repr, Inhabited

/-- The HD44780 instruction set (30_encoding.md R107, decision D2). -/
def CmdSet.hd44780 : CmdSet :=
  { clear := 0x01#8, home := 0x02#8, entry := 0x04#8, display := 0x08#8, shift := 0x10#8, function := 0x20#8,
    cgram := 0x40#8, ddram := 0x80#8 }

/-- `LOCK_GRANULARITY` (R17). -/
inductive Lock where
  | access
  | operation
deriving DecidableEq, Repr, Inhabited

/-- The parameters of an instance (R11, R12, R14 to R17). No step writes them. log 17. -/
structure Params where
  layout : Layout
  cmd : CmdSet
  applyMask : Bool
  lineWidth : Nat
  maxLine : Nat
  lock : Lock
  tSettle : Nat
  tClear : Nat
  tHome : Nat
  tStatus : Nat
  tPower : Nat
  tFs1 : Nat
  tFs2 : Nat
deriving DecidableEq, Repr, Inhabited

/-- The spec's defaults (R11, R12, R15 to R17), and for the OPEN ones of R14 the values 95_test_vectors.md uses. -/
def Params.default : Params :=
  { layout := .d1, cmd := .hd44780, applyMask := true, lineWidth := 0x40, maxLine := 16, lock := .access,
    tSettle := 37, tClear := 2000, tHome := 2000, tStatus := 37, tPower := 40000, tFs1 := 4100, tFs2 := 100 }

/-- The source's bounds on the parameters (R11, R15, R16). -/
def Params.wf (p : Params) : Bool :=
  p.layout.wf && decide (p.tSettle = 37) && decide (p.tStatus = 37) &&
  decide (1520 ≤ p.tClear ∧ p.tClear ≤ 2000) && decide (1520 ≤ p.tHome ∧ p.tHome ≤ 2000) &&
  decide (40000 ≤ p.tPower) && decide (4100 ≤ p.tFs1) && decide (100 ≤ p.tFs2)

/-- The environment's answer to one transport call (20_memory.md R86): success with the bytes read, a failure, or a
call that never returns. -/
inductive Xfer where
  | ok (data : List Byte)
  | fail
  | hang
deriving DecidableEq, Repr, Inhabited

/-- The scheduler's choice (20_memory.md R93): which thread moves next, and for how many atomic steps. -/
structure Turn where
  tid : Nat
  steps : Nat
deriving DecidableEq, Repr, Inhabited

/-- FREE VALUE: the transport's answer number `n` when the state lists none (R86, decision D7). log 6. -/
opaque Config.xfer : Nat → Xfer

/-- FREE VALUE: byte `i` of a successful read number `n`, where the answer lists none (R86, R252). log 6. -/
opaque Config.readByte : Nat → Nat → Byte

/-- FREE VALUE: the scheduler's turn number `n` when the state lists none (R44, R93, R260). log 5. -/
opaque Config.turn : Nat → Turn

/-- FREE VALUE: choice number `n` of a backlight overlap when the state lists none (41_bus_engine.md R181). log 6. -/
opaque Config.choice : Nat → Nat

/-- FREE VALUE: a byte of a text or pattern beyond its buffer, which the spec does not state. log 9. -/
opaque Config.freeByte : Nat → Byte

end Sys2Proof
end

