-- ==== Sys2Proof/Machine/Bits.lean ====
section
/-! DEFINITION. Bit-field helpers: the nibble split and join (30_encoding.md R111, R112), one bit placed in a byte,
and the Format P byte under the layout the opcode table is written in (30_encoding.md R100, decision D1). -/

namespace Sys2Proof

/-- `v[7:4]`. -/
def hiNib (v : Byte) : Nib := (v >>> 4).setWidth 4

/-- `v[3:0]`. -/
def loNib (v : Byte) : Nib := v.setWidth 4

/-- `(hi << 4) | lo`. -/
def joinNib (hi lo : Nib) : Byte := (hi.setWidth 8 <<< 4) ||| lo.setWidth 8

/-- A byte whose bit `pos` is `b` and whose other bits are 0. -/
def bitAt (b : Bool) (pos : Nat) : Byte := (bif b then 1#8 else 0#8) <<< pos

/-- Bit `pos` of a byte. -/
def getBit (v : Byte) (pos : Nat) : Bool := v.getLsbD pos

/-- The Format P byte `DDDDBEWR` of the opcode table. -/
def packPort (img : PortImage) : Byte :=
  bitAt img.rs 0 ||| bitAt img.rw 1 ||| bitAt img.en 2 ||| bitAt img.bl 3 ||| (img.dt.setWidth 8 <<< 4)

/-- The fields of a Format P byte. -/
def unpackPort (b : Byte) : PortImage :=
  { rs := getBit b 0, rw := getBit b 1, en := getBit b 2, bl := getBit b 3, dt := hiNib b }

end Sys2Proof
end

