-- ==== Sys2Proof/Machine/Operands.lean ====
section
/-! DEFINITION. Operand assembly: the serialised image and its capture (10_state.md R34, R35), the mask
(40_expander.md R141), address and command operands (30_encoding.md R113 to R115), the nibble triple and the bursts
built from it (R101 to R105), the settle times (41_bus_engine.md R162) and the order of the bring-up's operands. -/

namespace Sys2Proof

/-- `byte(img)` under a layout (R34). -/
def serialize (l : Layout) (img : PortImage) : Byte :=
  bitAt img.rs l.rs ||| bitAt img.rw l.rw ||| bitAt img.en l.en ||| bitAt img.bl l.bl ||| (img.dt.setWidth 8 <<< l.dt)

/-- `dtOf(c)`: the data nibble of a captured byte (R35). -/
def dtOf (l : Layout) (c : Byte) : Nib := (c >>> l.dt).setWidth 4

/-- `masked(b, applyMask)` (R141). -/
def masked (outMask : Byte) (applyMask : Bool) (b : Byte) : Byte := if applyMask then b ||| outMask else b

/-- The three images of one nibble: setup, latch, unlatch (R101, R160). RS, RW and BL are held from `img`. -/
def tripleImages (img : PortImage) (n : Nib) : List PortImage :=
  [{ img with dt := n, en := false }, { img with dt := n, en := true }, { img with dt := n, en := false }]

/-- The images a write access queues (R102, R103, R160): RS and RW are set first, then one triple in 8-bit mode, the
high nibble's and then the low nibble's in 4-bit mode. -/
def writeImages (img : PortImage) (rs : Bool) (v : Byte) (width : Width) : List PortImage :=
  let held : PortImage := { img with rs := rs, rw := false }
  match width with
  | .four => tripleImages held (hiNib v) ++ tripleImages held (loNib v)
  | .eight => tripleImages held (hiNib v)

/-- The two images of a read setup (R104, R166): RS, RW = 1, DT = 0xF, EN low and then high. -/
def readSetupImages (img : PortImage) (rs : Bool) : List PortImage :=
  [{ img with rs := rs, rw := true, dt := 0xF#4, en := false }, { img with rs := rs, rw := true, dt := 0xF#4, en := true }]

/-- The one image of the read idle write (R105, R166). -/
def readIdleImages (img : PortImage) (rs : Bool) : List PortImage :=
  [{ img with rs := rs, rw := true, dt := 0xF#4, en := false }]

/-- `ddramAddr(row, col)`: in the naturals, then masked to 7 bits (R113). -/
def ddramAddr (lineWidth row col : Nat) : DdramAddr := BitVec.ofNat 7 (row * lineWidth + col)

/-- `cgramSlotAddr(slot) = (slot & 7) << 3` (R113). -/
def cgramSlotAddr (slot : Nat) : CgramAddr := BitVec.ofNat 6 ((slot % 8) * 8)

/-- `ddramOff(o) = o & 0x7F` (R113). -/
def ddramOff (o : Nat) : DdramAddr := BitVec.ofNat 7 o

/-- `cgramOff(o) = o & 0x3F` (R113). -/
def cgramOff (o : Nat) : CgramAddr := BitVec.ofNat 6 o

/-- `cmdDisplay(d, c, b)` (R114). -/
def cmdDisplay (m : CmdSet) (d c b : Bool) : Byte := m.display ||| bitAt d 2 ||| bitAt c 1 ||| bitAt b 0

/-- `cmdShift(display, right)` (R114). -/
def cmdShift (m : CmdSet) (display right : Bool) : Byte := m.shift ||| bitAt display 3 ||| bitAt right 2

/-- `cmdSetCgram(a6)` (R114). -/
def cmdSetCgram (m : CmdSet) (a : CgramAddr) : Byte := m.cgram ||| a.setWidth 8

/-- `cmdSetDdram(a7)` (R114). -/
def cmdSetDdram (m : CmdSet) (a : DdramAddr) : Byte := m.ddram ||| a.setWidth 8

/-- `cmdFunction(dl, n, f)` (R114). -/
def cmdFunction (m : CmdSet) (l n f : Bool) : Byte := m.function ||| bitAt l 4 ||| bitAt n 3 ||| bitAt f 2

/-- `cmdEntry(i, s)` (R114). -/
def cmdEntry (m : CmdSet) (i s : Bool) : Byte := m.entry ||| bitAt i 1 ||| bitAt s 0

/-- `settleTime(settle)` (R162). -/
def settleTime (p : Params) : Settle → Nat
  | .short => p.tSettle
  | .clear => p.tClear
  | .home => p.tHome

end Sys2Proof
end

