-- ==== Sys2Proof/WellFormed.lean ====
section
/-! DEFINITION. Which calls the model's call bytes can carry: every natural-number operand fits the 32-bit field its
encoding gives it (log 2). All other operands have types whose every value is legal (30_encoding.md R119, R122). -/

namespace Sys2Proof

/-- A natural operand fits its 32-bit field. -/
def fits32 (n : Nat) : Bool := decide (n < 2 ^ 32)

/-- A buffer's two numbers fit. -/
def Buffer.wf (b : Buffer) : Bool := fits32 b.base && fits32 b.size

/-- A configuration's two opaque numbers fit. -/
def BusConfig.wf (c : BusConfig) : Bool := fits32 c.dev.bus && fits32 c.transport

/-- The calls that have an encoding. -/
def Instr.wf : Instr → Bool
  | .init provider => fits32 provider
  | .start config => config.wf
  | .stop => true
  | .setDisplay _ _ _ => true
  | .clear => true
  | .returnHome => true
  | .shift _ _ => true
  | .updatePattern slot pattern => fits32 slot && pattern.wf
  | .writeChar _ => true
  | .moveTo row col => fits32 row && fits32 col
  | .drawText row col text len => fits32 row && fits32 col && text.wf && fits32 len
  | .readData _ offset => fits32 offset
  | .getStatus => true
  | .getBusy => true
  | .getAddress => true
  | .setBacklight on => fits32 on
  | .toggleBacklight => true
  | .writeInstr _ _ _ => true
  | .writeData _ => true
  | .readStatusReg => true
  | .readDataReg => true
  | .blSet _ => true
  | .blToggle => true
  | .setPort values len _ => values.wf && fits32 len
  | .setPortByte _ _ => true
  | .getPort buffer len => buffer.wf && fits32 len
  | .getPortByte => true
  | .clearDisplayCmd _ => true
  | .returnHomeCmd _ => true
  | .entryModeSetCmd _ _ _ => true
  | .displayControlCmd _ _ _ _ => true
  | .cursorDisplayShiftCmd _ _ _ => true
  | .functionSetCmd _ _ _ _ => true
  | .setCgramAddrCmd _ _ => true
  | .setDdramAddrCmd _ _ => true
  | .busWriteInstr _ _ _ => true
  | .busWriteData _ _ => true
  | .busReadStatus _ => true
  | .busReadData _ => true
  | .portByte _ => true
  | .nibbleTriple _ _ _ _ => true
  | .writeBurst4 _ _ _ => true
  | .writeBurst8 _ _ _ => true
  | .readSetup _ _ => true
  | .readIdle _ _ => true
  | .backlightWrite _ => true

end Sys2Proof
end

