-- ==== Sys2Proof/Decode.lean ====
section
/-! DEFINITION. The bytes a call is fetched from, their decoder (total, rejecting by name) and their encoder.
The spec gives a host call no binary encoding (30_encoding.md R109), so the leading call number and the operand fields
are the model's own (log 1, log 2). The bytes of Formats C, B, P, T, W4, W8, RS2, RI and BLW inside them are the spec's
(R100 to R108), in the layout the opcode table is written in. -/

namespace Sys2Proof

/-- Why bytes encode no call. -/
inductive Reject where
  /-- The bytes end inside a call. -/
  | truncated
  /-- No call has this number. -/
  | unknownCall (op : Byte)
  /-- An operand field holds a value no operand has. -/
  | badOperand (b : Byte)
  /-- Byte 0 is no command of 30_encoding.md R107. -/
  | noCommand
  /-- Port bytes that do not have the form of their format (R101 to R105). -/
  | badBurst
  /-- Bytes are left over after the call. -/
  | trailing
deriving DecidableEq, Repr

/-! ### Operand fields -/

def takeByte : List Byte → Except Reject (Byte × List Byte)
  | b :: bs => .ok (b, bs)
  | [] => .error .truncated

def boolByte (b : Bool) : Byte := bitAt b 0

def takeBool : List Byte → Except Reject (Bool × List Byte)
  | b :: bs => if b = 0#8 then .ok (false, bs) else if b = 1#8 then .ok (true, bs) else .error (.badOperand b)
  | [] => .error .truncated

def widthByte : Width → Byte
  | .four => 0#8
  | .eight => 1#8

def takeWidth : List Byte → Except Reject (Width × List Byte)
  | b :: bs => if b = 0#8 then .ok (.four, bs) else if b = 1#8 then .ok (.eight, bs) else .error (.badOperand b)
  | [] => .error .truncated

def settleByte : Settle → Byte
  | .short => 0#8
  | .clear => 1#8
  | .home => 2#8

def takeSettle : List Byte → Except Reject (Settle × List Byte)
  | b :: bs =>
    if b = 0#8 then .ok (.short, bs) else if b = 1#8 then .ok (.clear, bs)
    else if b = 2#8 then .ok (.home, bs) else .error (.badOperand b)
  | [] => .error .truncated

/-- A natural operand: four bytes, least significant first (log 2). -/
def nat32Bytes (n : Nat) : List Byte :=
  [BitVec.ofNat 8 n, BitVec.ofNat 8 (n / 2 ^ 8), BitVec.ofNat 8 (n / 2 ^ 16), BitVec.ofNat 8 (n / 2 ^ 24)]

def takeNat32 : List Byte → Except Reject (Nat × List Byte)
  | b0 :: b1 :: b2 :: b3 :: bs => .ok (b0.toNat + b1.toNat * 2 ^ 8 + b2.toNat * 2 ^ 16 + b3.toNat * 2 ^ 24, bs)
  | _ => .error .truncated

def bufferBytes (b : Buffer) : List Byte := nat32Bytes b.base ++ nat32Bytes b.size

def takeBuffer (bs : List Byte) : Except Reject (Buffer × List Byte) := do
  let (base, bs) ← takeNat32 bs
  let (size, bs) ← takeNat32 bs
  .ok ({ base, size }, bs)

def takeAddr7 : List Byte → Except Reject ((BitVec 7) × List Byte)
  | b :: bs => if getBit b 7 then .error (.badOperand b) else .ok (b.setWidth 7, bs)
  | [] => .error .truncated

def configBytes (c : BusConfig) : List Byte :=
  nat32Bytes c.dev.bus ++ [c.dev.addr.setWidth 8, c.outMask] ++ nat32Bytes c.transport

def takeConfig (bs : List Byte) : Except Reject (BusConfig × List Byte) := do
  let (bus, bs) ← takeNat32 bs
  let (addr, bs) ← takeAddr7 bs
  let (outMask, bs) ← takeByte bs
  let (transport, bs) ← takeNat32 bs
  .ok ({ dev := { bus, addr }, outMask, transport }, bs)

/-! ### Format C: command bytes (R107) -/

/-- The command a byte is: its most significant 1 names the row of R107; don't-care bits are dropped. -/
def decodeCommand (c : Byte) (width : Width) : Except Reject Instr :=
  if getBit c 7 then .ok (.setDdramAddrCmd (c.setWidth 7) width)
  else if getBit c 6 then .ok (.setCgramAddrCmd (c.setWidth 6) width)
  else if getBit c 5 then .ok (.functionSetCmd (getBit c 4) (getBit c 3) (getBit c 2) width)
  else if getBit c 4 then .ok (.cursorDisplayShiftCmd (getBit c 3) (getBit c 2) width)
  else if getBit c 3 then .ok (.displayControlCmd (getBit c 2) (getBit c 1) (getBit c 0) width)
  else if getBit c 2 then .ok (.entryModeSetCmd (getBit c 1) (getBit c 0) width)
  else if getBit c 1 then .ok (.returnHomeCmd width)
  else if getBit c 0 then .ok (.clearDisplayCmd width)
  else .error .noCommand

/-- The byte of a Format C row, don't-care bits 0 (R107, R120). -/
def commandByte : Instr → Option Byte
  | .clearDisplayCmd _ => some CmdSet.hd44780.clear
  | .returnHomeCmd _ => some CmdSet.hd44780.home
  | .entryModeSetCmd i s _ => some (cmdEntry .hd44780 i s)
  | .displayControlCmd d c b _ => some (cmdDisplay .hd44780 d c b)
  | .cursorDisplayShiftCmd p r _ => some (cmdShift .hd44780 p r)
  | .functionSetCmd l n f _ => some (cmdFunction .hd44780 l n f)
  | .setCgramAddrCmd a _ => some (cmdSetCgram .hd44780 a)
  | .setDdramAddrCmd a _ => some (cmdSetDdram .hd44780 a)
  | _ => none

/-! ### Formats T, W4, W8, RS2, RI: port bytes in the table's layout (R101 to R105) -/

/-- Format T. -/
def tripleBytes (rs rw bl : Bool) (n : Nib) : List Byte :=
  (tripleImages { rs, rw, en := false, bl, dt := 0#4 } n).map packPort

/-- Format W4. -/
def burst4Bytes (rs bl : Bool) (v : Byte) : List Byte :=
  (writeImages { rs := false, rw := false, en := false, bl, dt := 0#4 } rs v .four).map packPort

/-- Format W8, the high nibble alone. -/
def burst8Bytes (rs bl : Bool) (h : Nib) : List Byte := tripleBytes rs false bl h

/-- Format RS2. -/
def readSetupBytes (rs bl : Bool) : List Byte :=
  (readSetupImages { rs := false, rw := false, en := false, bl, dt := 0#4 } rs).map packPort

/-- Format RI. -/
def readIdleByte (rs bl : Bool) : Byte := packPort { rs, rw := true, en := false, bl, dt := 0xF#4 }

/-! ### The decoder, family by family -/

/-- Calls 0x01 to 0x11: the host calls (R118). -/
def decodeHost (op : Nat) (bs : List Byte) : Except Reject (Instr × List Byte) :=
  match op with
  | 0x01 => do let (provider, bs) ← takeNat32 bs; .ok (.init provider, bs)
  | 0x02 => do let (config, bs) ← takeConfig bs; .ok (.start config, bs)
  | 0x03 => .ok (.stop, bs)
  | 0x04 => do
    let (d, bs) ← takeBool bs
    let (c, bs) ← takeBool bs
    let (b, bs) ← takeBool bs
    .ok (.setDisplay d c b, bs)
  | 0x05 => .ok (.clear, bs)
  | 0x06 => .ok (.returnHome, bs)
  | 0x07 => do let (display, bs) ← takeBool bs; let (right, bs) ← takeBool bs; .ok (.shift display right, bs)
  | 0x08 => do let (slot, bs) ← takeNat32 bs; let (pattern, bs) ← takeBuffer bs; .ok (.updatePattern slot pattern, bs)
  | 0x09 => do let (ch, bs) ← takeByte bs; .ok (.writeChar ch, bs)
  | 0x0A => do let (row, bs) ← takeNat32 bs; let (col, bs) ← takeNat32 bs; .ok (.moveTo row col, bs)
  | 0x0B => do
    let (row, bs) ← takeNat32 bs
    let (col, bs) ← takeNat32 bs
    let (text, bs) ← takeBuffer bs
    let (len, bs) ← takeNat32 bs
    .ok (.drawText row col text len, bs)
  | 0x0C => do let (ddram, bs) ← takeBool bs; let (offset, bs) ← takeNat32 bs; .ok (.readData ddram offset, bs)
  | 0x0D => .ok (.getStatus, bs)
  | 0x0E => .ok (.getBusy, bs)
  | 0x0F => .ok (.getAddress, bs)
  | 0x10 => do let (on, bs) ← takeNat32 bs; .ok (.setBacklight on, bs)
  | 0x11 => .ok (.toggleBacklight, bs)
  | n => .error (.unknownCall (BitVec.ofNat 8 n))

/-- Calls 0x20 to 0x25, the engine accesses (R117), and 0x30 to 0x33, the expander calls (R116). -/
def decodeEngine (op : Nat) (bs : List Byte) : Except Reject (Instr × List Byte) :=
  match op with
  | 0x20 => do
    let (v, bs) ← takeByte bs
    let (width, bs) ← takeWidth bs
    let (settle, bs) ← takeSettle bs
    .ok (.writeInstr v width settle, bs)
  | 0x21 => do let (v, bs) ← takeByte bs; .ok (.writeData v, bs)
  | 0x22 => .ok (.readStatusReg, bs)
  | 0x23 => .ok (.readDataReg, bs)
  | 0x24 => do let (on, bs) ← takeBool bs; .ok (.blSet on, bs)
  | 0x25 => .ok (.blToggle, bs)
  | 0x30 => do
    let (values, bs) ← takeBuffer bs
    let (len, bs) ← takeNat32 bs
    let (applyMask, bs) ← takeBool bs
    .ok (.setPort values len applyMask, bs)
  | 0x31 => do let (value, bs) ← takeByte bs; let (applyMask, bs) ← takeBool bs; .ok (.setPortByte value applyMask, bs)
  | 0x32 => do let (buffer, bs) ← takeBuffer bs; let (len, bs) ← takeNat32 bs; .ok (.getPort buffer len, bs)
  | 0x33 => .ok (.getPortByte, bs)
  | n => .error (.unknownCall (BitVec.ofNat 8 n))

/-- A Format B row: bits 1 and 0 of the port byte are RW and RS, and only they are matched (R108). log 13. -/
def decodeBus (bs : List Byte) : Except Reject (Instr × List Byte) := do
  let (port, bs) ← takeByte bs
  if getBit port 1 then
    let (width, bs) ← takeWidth bs
    .ok (if getBit port 0 then .busReadData width else .busReadStatus width, bs)
  else
    let (v, bs) ← takeByte bs
    let (width, bs) ← takeWidth bs
    if getBit port 0 then .ok (.busWriteData v width, bs)
    else
      let (settle, bs) ← takeSettle bs
      .ok (.busWriteInstr v width settle, bs)

/-- The bytes of a burst must be the ones its fields give (R101 to R105, R125). -/
def checked (got want : List Byte) (i : Instr) (bs : List Byte) : Except Reject (Instr × List Byte) :=
  if got = want then .ok (i, bs) else .error .badBurst

/-- Calls 0x60 to 0x66: port bytes and bursts. -/
def decodePort (op : Nat) (bs : List Byte) : Except Reject (Instr × List Byte) :=
  match op, bs with
  | 0x60, b :: bs => .ok (.portByte (unpackPort b), bs)
  | 0x61, b0 :: b1 :: b2 :: bs =>
    checked [b0, b1, b2] (tripleBytes (getBit b0 0) (getBit b0 1) (getBit b0 3) (hiNib b0))
      (.nibbleTriple (getBit b0 0) (getBit b0 1) (getBit b0 3) (hiNib b0)) bs
  | 0x62, b0 :: b1 :: b2 :: b3 :: b4 :: b5 :: bs =>
    checked [b0, b1, b2, b3, b4, b5] (burst4Bytes (getBit b0 0) (getBit b0 3) (joinNib (hiNib b0) (hiNib b3)))
      (.writeBurst4 (getBit b0 0) (getBit b0 3) (joinNib (hiNib b0) (hiNib b3))) bs
  | 0x63, b0 :: b1 :: b2 :: bs =>
    checked [b0, b1, b2] (burst8Bytes (getBit b0 0) (getBit b0 3) (hiNib b0))
      (.writeBurst8 (getBit b0 0) (getBit b0 3) (hiNib b0)) bs
  | 0x64, b0 :: b1 :: bs =>
    checked [b0, b1] (readSetupBytes (getBit b0 0) (getBit b0 3)) (.readSetup (getBit b0 0) (getBit b0 3)) bs
  | 0x65, b :: bs => checked [b] [readIdleByte (getBit b 0) (getBit b 3)] (.readIdle (getBit b 0) (getBit b 3)) bs
  | 0x66, b :: bs => .ok (.backlightWrite (getBit b 3), bs)
  | _, _ => .error .truncated

/-- The call at the head of some bytes, and the bytes after it. -/
def decode : List Byte → Except Reject (Instr × List Byte)
  | [] => .error .truncated
  | op :: bs =>
    let n := op.toNat
    if n < 0x20 then decodeHost n bs
    else if n < 0x40 then decodeEngine n bs
    else if n = 0x40 then do
      let (c, bs) ← takeByte bs
      let (width, bs) ← takeWidth bs
      let i ← decodeCommand c width
      .ok (i, bs)
    else if n = 0x50 then decodeBus bs
    else if 0x60 ≤ n ∧ n ≤ 0x66 then decodePort n bs
    else .error (.unknownCall op)

/-- The one call some bytes are, with nothing left over. -/
def decodeCall (bs : List Byte) : Except Reject Instr :=
  match decode bs with
  | .ok (i, []) => .ok i
  | .ok (_, _ :: _) => .error .trailing
  | .error e => .error e

/-! ### The encoder -/

/-- The bytes of a call. -/
def encode : Instr → List Byte
  | .init provider => 0x01#8 :: nat32Bytes provider
  | .start config => 0x02#8 :: configBytes config
  | .stop => [0x03#8]
  | .setDisplay d c b => [0x04#8, boolByte d, boolByte c, boolByte b]
  | .clear => [0x05#8]
  | .returnHome => [0x06#8]
  | .shift display right => [0x07#8, boolByte display, boolByte right]
  | .updatePattern slot pattern => 0x08#8 :: (nat32Bytes slot ++ bufferBytes pattern)
  | .writeChar ch => [0x09#8, ch]
  | .moveTo row col => 0x0A#8 :: (nat32Bytes row ++ nat32Bytes col)
  | .drawText row col text len => 0x0B#8 :: (nat32Bytes row ++ nat32Bytes col ++ bufferBytes text ++ nat32Bytes len)
  | .readData ddram offset => 0x0C#8 :: boolByte ddram :: nat32Bytes offset
  | .getStatus => [0x0D#8]
  | .getBusy => [0x0E#8]
  | .getAddress => [0x0F#8]
  | .setBacklight on => 0x10#8 :: nat32Bytes on
  | .toggleBacklight => [0x11#8]
  | .writeInstr v width settle => [0x20#8, v, widthByte width, settleByte settle]
  | .writeData v => [0x21#8, v]
  | .readStatusReg => [0x22#8]
  | .readDataReg => [0x23#8]
  | .blSet on => [0x24#8, boolByte on]
  | .blToggle => [0x25#8]
  | .setPort values len applyMask => 0x30#8 :: (bufferBytes values ++ nat32Bytes len ++ [boolByte applyMask])
  | .setPortByte value applyMask => [0x31#8, value, boolByte applyMask]
  | .getPort buffer len => 0x32#8 :: (bufferBytes buffer ++ nat32Bytes len)
  | .getPortByte => [0x33#8]
  | .clearDisplayCmd width => [0x40#8, CmdSet.hd44780.clear, widthByte width]
  | .returnHomeCmd width => [0x40#8, CmdSet.hd44780.home, widthByte width]
  | .entryModeSetCmd i s width => [0x40#8, cmdEntry .hd44780 i s, widthByte width]
  | .displayControlCmd d c b width => [0x40#8, cmdDisplay .hd44780 d c b, widthByte width]
  | .cursorDisplayShiftCmd p r width => [0x40#8, cmdShift .hd44780 p r, widthByte width]
  | .functionSetCmd l n f width => [0x40#8, cmdFunction .hd44780 l n f, widthByte width]
  | .setCgramAddrCmd a width => [0x40#8, cmdSetCgram .hd44780 a, widthByte width]
  | .setDdramAddrCmd a width => [0x40#8, cmdSetDdram .hd44780 a, widthByte width]
  | .busWriteInstr v width settle => [0x50#8, 0x00#8, v, widthByte width, settleByte settle]
  | .busWriteData v width => [0x50#8, 0x01#8, v, widthByte width]
  | .busReadStatus width => [0x50#8, 0x02#8, widthByte width]
  | .busReadData width => [0x50#8, 0x03#8, widthByte width]
  | .portByte img => [0x60#8, packPort img]
  | .nibbleTriple rs rw bl n => 0x61#8 :: tripleBytes rs rw bl n
  | .writeBurst4 rs bl v => 0x62#8 :: burst4Bytes rs bl v
  | .writeBurst8 rs bl h => 0x63#8 :: burst8Bytes rs bl h
  | .readSetup rs bl => 0x64#8 :: readSetupBytes rs bl
  | .readIdle rs bl => [0x65#8, readIdleByte rs bl]
  | .backlightWrite bl => [0x66#8, bitAt bl 3]

/-! ### The opcode table's words -/

/-- Whether a byte is a command as the block sends it: a row of R107 with its don't-care bits 0 (R120). -/
def sentCommand (b : Byte) : Bool :=
  match decodeCommand b .four with
  | .ok i => commandByte i == some b
  | .error _ => false

/-- The call bytes of an opcode-table word, first byte in the word's most significant bits as the table writes it.
One byte can be a word of several formats; the order of choice is log 3. Operand bytes the table gives no bits are 0. -/
def tableCode (nbits w : Nat) : List Byte :=
  let at_ (k : Nat) : Byte := BitVec.ofNat 8 (w / 2 ^ (8 * k))
  match nbits with
  | 8 =>
    let b := at_ 0
    if b &&& 0xF6#8 = 0xF2#8 then [0x65#8, b]
    else if sentCommand b then [0x40#8, b, 0#8]
    else if getBit b 1 then [0x50#8, b, 0#8]
    else if getBit b 0 then [0x50#8, b, 0#8, 0#8]
    else [0x50#8, b, 0#8, 0#8, 0#8]
  | 16 => [0x64#8, at_ 1, at_ 0]
  | 24 => (if getBit (at_ 2) 1 then 0x61#8 else 0x63#8) :: [at_ 2, at_ 1, at_ 0]
  | 48 => [0x62#8, at_ 5, at_ 4, at_ 3, at_ 2, at_ 1, at_ 0]
  | _ => []

/-- The call the decoder reads from an opcode-table word. -/
def decodeTableWord (nbits w : Nat) : Option Instr :=
  match decodeCall (tableCode nbits w) with
  | .ok i => some i
  | .error _ => none

end Sys2Proof
end

