-- ==== Sys2Proof/Machine/Sparse.lean ====
section
/-! DEFINITION. Sparse maps: a list of key and value pairs, keys strictly rising, no value equal to what an unlisted
key reads as. Host memory, the instances, the threads and the expander latches are held so. -/

namespace Sys2Proof.Machine

/-- A sparse map from numbers. -/
abbrev Sparse (α : Type) := List (Nat × α)

/-- The value at a key; `d` where the key is not listed. -/
def Sparse.get {α : Type} (d : α) (m : Sparse α) (k : Nat) : α :=
  match m with
  | [] => d
  | (j, v) :: m' => if j = k then v else Sparse.get d m' k

/-- Put an entry in front of the first larger key. -/
def Sparse.insert {α : Type} (k : Nat) (v : α) (m : Sparse α) : Sparse α :=
  match m with
  | [] => [(k, v)]
  | (j, u) :: m' => if k < j then (k, v) :: (j, u) :: m' else (j, u) :: Sparse.insert k v m'

/-- Write a key: its entry goes, and comes back where the value is not what an unlisted key reads as. -/
def Sparse.set {α : Type} [DecidableEq α] (d : α) (m : Sparse α) (k : Nat) (v : α) : Sparse α :=
  if v = d then m.filter (fun e => e.1 ≠ k) else Sparse.insert k v (m.filter (fun e => e.1 ≠ k))

/-- The canonical form. -/
abbrev Sparse.wf {α : Type} (d : α) (m : Sparse α) : Prop :=
  m.Pairwise (fun e f => e.1 < f.1) ∧ ∀ e ∈ m, e.2 ≠ d

end Sys2Proof.Machine
end

