-- ==== Sys2Proof/Machine/State.lean ====
section
/-! DEFINITION. The state of the block and its environment as plain data (10_state.md R30 to R57), the outcomes'
reasons, and the state of a fresh block (R57, 70_reset_and_hazards.md R283). -/

namespace Sys2Proof.Machine

/-- A transport status (00_scope.md R20). -/
inductive Status where
  | ok
  | fail
deriving DecidableEq, Repr, Inhabited

/-- Lifecycle (10_state.md R42). -/
inductive Life where
  | uninit
  | stop
  | ready
deriving DecidableEq, Repr, Inhabited

/-- The reasons of `raise Fatal`, codes 1 to 5 (60_exceptions.md R253). -/
inductive FatalReason where
  | uninit
  | notReady
  | alreadyInit
  | noConfig
  | lifecycleRace
deriving DecidableEq, Repr, Inhabited

/-- One external event (30_encoding.md R127). Bytes written are recorded with the output mask applied. -/
inductive EventBody where
  | wr (dev : Device) (bytes : List Byte) (st : Status)
  | rd (dev : Device) (n : Nat) (st : Status) (bytes : List Byte)
  | sleep (us : Nat)
  | fatal (reason : FatalReason)
deriving DecidableEq, Repr, Inhabited

/-- An event, with the thread that caused it and the instance it is about (log 23). -/
structure Event where
  tid : Nat
  inst : Nat
  body : EventBody
deriving DecidableEq, Repr, Inhabited

/-- What a call returns (42_controller.md R231). -/
inductive RetVal where
  | nothing
  | count (n : Nat)
  | status (st : Status)
  | statusByte (st : Status) (v : Option Byte)
  | busyAddr (st : Status) (v : Option (Bool × BitVec 7))
  | busy (st : Status) (v : Option Bool)
  | byte (v : Byte)
deriving DecidableEq, Repr, Inhabited

/-- How a call forms its return value from the status and byte it ended with. -/
inductive RetKind where
  | nothing
  | count (n : Nat)
  | status
  | statusByte
  | busyAddr
  | busy
  | address
deriving DecidableEq, Repr, Inhabited

/-- Positions of a write access (10_state.md R39, 41_bus_engine.md R173). -/
inductive WPos where
  | acq
  | send
  | settle
  | rel
deriving DecidableEq, Repr, Inhabited

/-- Positions of a read access (10_state.md R39, 41_bus_engine.md R172). -/
inductive RPos where
  | acq
  | setupHi
  | capHi
  | setupLo
  | capLo
  | idle
  | settle
  | rel
  | abort
deriving DecidableEq, Repr, Inhabited

/-- Positions of a bare burst transfer (log 14). -/
inductive BPos where
  | acq
  | send
  | rel
deriving DecidableEq, Repr, Inhabited

/-- One element of a call's sequence: an access at a position, or a single step (10_state.md R38, R39). -/
inductive Act where
  /-- A write access (41_bus_engine.md R160). -/
  | write (pos : WPos) (rs : Bool) (v : Byte) (width : Width) (settle : Settle)
  /-- `writeData(src[i])` before its byte is read from host memory (42_controller.md R217, R222). -/
  | load (src : Buffer) (i : Nat)
  /-- A read access (41_bus_engine.md R166). -/
  | read (pos : RPos) (rs : Bool) (width : Width)
  /-- A bare burst: its images in order (log 14). -/
  | burst (pos : BPos) (images : List PortImage)
  /-- A bring-up wait (42_controller.md R204). -/
  | sleep (us : Nat)
  /-- The assignments of `init` with the `Release` that follows them under OPERATION, one step of 00_scope.md R21
  (42_controller.md R201, R232; log 25). -/
  | initialise
  /-- `Acquire` and `Release` of a controller operation under OPERATION (42_controller.md R232). -/
  | opAcq
  | opRel
  /-- `blSet` (41_bus_engine.md R178). -/
  | blSet (on : Bool)
  /-- BL_READ and BL_WRITE of `blToggle` (41_bus_engine.md R179). -/
  | blRead
  | blWrite
  /-- `life <- READY; lcBusy <- none`, the end of `start` (42_controller.md R204). That it is a step of its own, after the
  `Release` of OPERATION, is the model's choice (log 25). -/
  | setReady
  /-- `life <- STOP; lcBusy <- none`, the end of `stop` (42_controller.md R210). -/
  | setStop
  /-- The expander calls (40_expander.md R142 to R146). -/
  | xwrite (values : Buffer) (len : Nat) (applyMask : Bool)
  | xwriteByte (value : Byte) (applyMask : Bool)
  | xread (buffer : Buffer) (len : Nat)
  | xreadByte
deriving DecidableEq, Repr, Inhabited

/-- A driver instance (10_state.md R48), with its parameters. -/
structure Instance where
  img : PortImage
  life : Life
  cfg : Option BusConfig
  mutex : Option Nat
  waiters : List Nat
  delays : Bool
  lcBusy : Option Nat
  params : Params
deriving DecidableEq, Repr

/-- A call a thread has still to make: the instance it names, and its bytes (log 1, log 4). -/
structure Call where
  inst : Nat
  code : List Byte
deriving DecidableEq, Repr

/-- A caller thread (10_state.md R38, R51 to R53, R56). -/
structure Thread where
  /-- The calls to come, in program order. -/
  calls : List Call
  /-- The instance of the call in progress. -/
  inst : Nat
  /-- Whether the thread is in a call; if not, its position is IDLE. -/
  running : Bool
  /-- The position and what remains after it. -/
  seq : List Act
  ret : RetKind
  /-- The batch (R52). -/
  q : List Byte
  /-- The read result (R53). -/
  r : Byte
  /-- The status the call received last (R40). -/
  st : Status
  /-- What `blToggle` read (41_bus_engine.md R179). -/
  b : Bool
  /-- The image before the access in progress began (41_bus_engine.md R181). -/
  before : PortImage
  /-- The images the access in progress has queued, oldest first (R181). -/
  queued : List PortImage
  /-- Whether a backlight step overlapped the access in progress and changed BL (R181). -/
  race : Bool
  /-- Whether the thread is inside a transfer that never completes (40_expander.md R149). -/
  hung : Bool
  /-- The values its calls returned, oldest first (00_scope.md R26). -/
  rets : List RetVal
deriving DecidableEq, Repr

/-- The environment's draws to come, and how many draws of each kind were made (20_memory.md R86; log 5, log 6). -/
structure Env where
  turns : List Turn
  turnNo : Nat
  xfers : List Xfer
  xferNo : Nat
  choices : List Nat
  choiceNo : Nat
  freeNo : Nat
deriving DecidableEq, Repr

/-- Host memory: what an unlisted byte reads as is 0 (log 8). -/
abbrev Memory := List Host.Cell

/-- What an unlisted byte of host memory reads as. DESIGN CHOICE, log 8. -/
def Memory.blank : Byte := 0#8

/-- The canonical form of host memory. -/
abbrev Memory.wf (m : Memory) : Prop := Sparse.wf Memory.blank m

/-- The whole state. -/
structure State where
  insts : List (Nat × Instance)
  threads : List (Nat × Thread)
  /-- `latch(BUS, DEV_ADDR)` by device key; unlisted is `none`, unknown (10_state.md R54). -/
  latch : List (Nat × Option Byte)
  mem : Memory
  /-- The ordered observation (00_scope.md R26). -/
  trace : List Event
  /-- The faulted state (60_exceptions.md R253). -/
  fatal : Option FatalReason
  /-- Whose turn it is, and for how many atomic steps. -/
  turn : Turn
  env : Env
deriving DecidableEq, Repr

/-- Why the machine stops. -/
inductive Fault where
  /-- Raised by `step` in a faulted process: after a Fatal "no thread takes another step" (60_exceptions.md R253).
  Safe: the spec gives no further step. -/
  | processEnded (reason : FatalReason)
deriving DecidableEq, Repr

/-- Why the model gives no answer. -/
inductive Refusal where
  /-- Answered by `exec` for an instruction that has no meaning yet. Safe. -/
  | notModelled (mnemonic : String)
  /-- Answered by `setPort` and `getPort` when `len` is 0 or beyond the buffer: the spec refuses
  (60_exceptions.md R256). Safe. -/
  | badLength
  /-- Answered by `step` when the bytes of the next call encode no call (log 1). Safe. -/
  | undecodable (why : Reject)
deriving DecidableEq, Repr

/-- The image before `init`, which has no value in the spec. DESIGN CHOICE, log 7. -/
def blankImage : PortImage := { rs := false, rw := false, en := false, bl := false, dt := 0#4 }

/-- A fresh instance (10_state.md R57). -/
def Instance.fresh : Instance :=
  { img := blankImage, life := .uninit, cfg := none, mutex := none, waiters := [], delays := false, lcBusy := none,
    params := .default }

/-- A thread that makes no call (10_state.md R38: IDLE). log 19. -/
def Thread.idle : Thread :=
  { calls := [], inst := 0, running := false, seq := [], ret := .nothing, q := [], r := 0#8, st := .ok, b := false,
    before := blankImage, queued := [], race := false, hung := false, rets := [] }

/-- No draw listed and none made (log 6). -/
def Env.fresh : Env :=
  { turns := [], turnNo := 0, xfers := [], xferNo := 0, choices := [], choiceNo := 0, freeNo := 0 }

/-- A fresh block: every instance fresh, every thread idle, every latch unknown (R57, R283). -/
def State.reset : State :=
  { insts := [], threads := [], latch := [], mem := [], trace := [], fatal := none, turn := { tid := 0, steps := 0 },
    env := .fresh }

end Sys2Proof.Machine
end

