-- ==== Sys2Proof/Machine/Flags.lean ====
section
/-! DEFINITION. The block keeps no condition codes (10_state.md R40). What stands in their place: the busy flag and the
address counter of a status read (R41) and the value a call forms from its status and byte (42_controller.md R226 to
R231, 40_expander.md R146). -/

namespace Sys2Proof.Machine

/-- The busy flag `v[7]` (R41). -/
def busyFlag (v : Byte) : Bool := getBit v 7

/-- The address counter `v[6:0]` (R41). -/
def addrCounter (v : Byte) : BitVec 7 := v.setWidth 7

/-- A value that exists on success only (decision D30). -/
def onOk {α : Type} (st : Status) (a : α) : Option α :=
  match st with
  | .ok => some a
  | .fail => none

/-- What a call returns, from the status and byte it ended with. `getAddress` answers the sentinel 0xFF on failure
(R228). -/
def retValue (kind : RetKind) (st : Status) (r : Byte) : RetVal :=
  match kind with
  | .nothing => .nothing
  | .count n => .count n
  | .status => .status st
  | .statusByte => .statusByte st (onOk st r)
  | .busyAddr => .busyAddr st (onOk st (busyFlag r, addrCounter r))
  | .busy => .busy st (onOk st (busyFlag r))
  | .address =>
    match st with
    | .ok => .byte (r &&& 0x7F#8)
    | .fail => .byte 0xFF#8

end Sys2Proof.Machine
end

