-- ==== Sys2Proof/Machine/Ops.lean ====
section
/-! DEFINITION. The named operations every meaning is built from: reading and writing the records, host memory, the
environment's draws, the transport primitives (00_scope.md R20), the mutex (10_state.md R44), `raise Fatal`
(60_exceptions.md R253) and the guards (42_controller.md R200, 60_exceptions.md R258). -/

namespace Sys2Proof.Machine

/-! ### Records -/

def State.inst (s : State) (k : Nat) : Instance := Sparse.get Instance.fresh s.insts k

def State.setInst (s : State) (k : Nat) (v : Instance) : State :=
  { s with insts := Sparse.set Instance.fresh s.insts k v }

def State.thread (s : State) (t : Nat) : Thread := Sparse.get Thread.idle s.threads t

def State.setThread (s : State) (t : Nat) (v : Thread) : State :=
  { s with threads := Sparse.set Thread.idle s.threads t v }

/-- The thread whose turn it is. -/
def State.me (s : State) : Thread := s.thread s.turn.tid

def State.setMe (s : State) (v : Thread) : State := s.setThread s.turn.tid v

/-- The instance its call is on. -/
def State.here (s : State) : Instance := s.inst s.me.inst

def State.setHere (s : State) (v : Instance) : State := s.setInst s.me.inst v

/-- The parameters of that instance. -/
def State.params (s : State) : Params := s.here.params

/-- The image of that instance. -/
def State.img (s : State) : PortImage := s.here.img

def State.setImg (s : State) (img : PortImage) : State := s.setHere { s.here with img := img }

/-- The number a device's latch is kept under. -/
def deviceKey (d : Device) : Nat := d.bus * 128 + d.addr.toNat

/-- `latch(BUS, DEV_ADDR)` (10_state.md R54). -/
def State.latchOf (s : State) (d : Device) : Option Byte := Sparse.get none s.latch (deviceKey d)

def State.setLatch (s : State) (d : Device) (v : Option Byte) : State :=
  { s with latch := Sparse.set none s.latch (deviceKey d) v }

/-! ### Host memory (20_memory.md R75) -/

def State.readMem (s : State) (a : Nat) : Byte := Sparse.get Memory.blank s.mem a

def State.writeMem (s : State) (a : Nat) (b : Byte) : State := { s with mem := Sparse.set Memory.blank s.mem a b }

/-- Bytes written at `a`, `a + 1`, and on. -/
def State.writeMemBytes (s : State) (a : Nat) : List Byte → State
  | [] => s
  | b :: bs => (s.writeMem a b).writeMemBytes (a + 1) bs

/-- The first `len` bytes of a buffer. -/
def State.bufferBytes (s : State) (buf : Buffer) (len : Nat) : List Byte :=
  (List.range len).map (fun i => s.readMem (buf.base + i))

/-- Byte `i` of a text or pattern. Beyond the buffer the spec states no value: a free one (log 9). -/
def State.loadByte (s : State) (buf : Buffer) (i : Nat) : Byte :=
  if i < buf.size then s.readMem (buf.base + i) else Config.freeByte s.env.freeNo

/-! ### Draws (20_memory.md R86; log 5, log 6) -/

/-- The transport's answer `i` calls from now. -/
def Env.xferAt (e : Env) (i : Nat) : Xfer :=
  match e.xfers[i]? with
  | some x => x
  | none => Config.xfer (e.xferNo + i)

def State.xferAt (s : State) (i : Nat) : Xfer := s.env.xferAt i

/-- The status of an answer; none where the call never returns. -/
def xferStatus : Xfer → Option Status
  | .ok _ => some .ok
  | .fail => some .fail
  | .hang => none

/-- The status of the transport call `i` calls from now. -/
def State.statusAt (s : State) (i : Nat) : Option Status := xferStatus (s.xferAt i)

def State.popXfer (s : State) : State :=
  { s with env := { s.env with xfers := s.env.xfers.tail, xferNo := s.env.xferNo + 1 } }

/-- The `n` bytes a successful read returns: the answer's, then free ones. -/
def readBytes (no : Nat) (data : List Byte) (n : Nat) : List Byte :=
  (List.range n).map fun i =>
    match data[i]? with
    | some b => b
    | none => Config.readByte no i

def State.nextChoice (s : State) : Nat :=
  match s.env.choices with
  | c :: _ => c
  | [] => Config.choice s.env.choiceNo

def State.popChoice (s : State) : State :=
  { s with env := { s.env with choices := s.env.choices.tail, choiceNo := s.env.choiceNo + 1 } }

def State.popFree (s : State) : State := { s with env := { s.env with freeNo := s.env.freeNo + 1 } }

/-! ### Observation, Fatal, hang -/

/-- One more event. -/
def State.recordAs (s : State) (tid inst : Nat) (body : EventBody) : State :=
  { s with trace := s.trace ++ [{ tid, inst, body }] }

/-- One more event of the thread whose turn it is. -/
def State.record (s : State) (body : EventBody) : State := s.recordAs s.turn.tid s.me.inst body

/-- `raise Fatal(reason)` (60_exceptions.md R253, R261): the event is recorded and the process is in the faulted
state; nothing is saved, released or undone. There is no return from it (R263). -/
def State.raiseFatal (s : State) (reason : FatalReason) : State :=
  { s.record (.fatal reason) with fatal := some reason }

/-- The thread is inside a transfer that never completes (40_expander.md R149). -/
def State.hang (s : State) : State := s.setMe { s.me with hung := true }

/-! ### Transport primitives (00_scope.md R20, 40_expander.md R142, R145) -/

/-- The bytes put on the bus (40_expander.md R141, R142). -/
def sentBytes (c : BusConfig) (applyMask : Bool) (bytes : List Byte) : List Byte := bytes.map (masked c.outMask applyMask)

/-- The latch after a write: the last byte sent, or unknown (10_state.md R54). -/
def latchAfter (sent : List Byte) (st : Status) : Option Byte :=
  match st with
  | .ok => sent.getLast?
  | .fail => none

/-- `PortWrite(bytes, applyMask)`, then `next` with its status. A transfer that never completes leaves the thread
there, and the latch unknown (log 15). -/
def State.portWrite (s : State) (bytes : List Byte) (applyMask : Bool) (next : Status → State → State) : State :=
  match s.here.cfg with
  | none => s.raiseFatal .noConfig
  | some c =>
    match s.statusAt 0 with
    | some st =>
      next st ((s.popXfer.setLatch c.dev (latchAfter (sentBytes c applyMask bytes) st)).record
        (.wr c.dev (sentBytes c applyMask bytes) st))
    | none => (s.popXfer.setLatch c.dev none).hang

/-- `PortRead(n)`, then `next` with its status and bytes. A failed read gives no bytes. -/
def State.portRead (s : State) (n : Nat) (next : Status → List Byte → State → State) : State :=
  match s.here.cfg with
  | none => s.raiseFatal .noConfig
  | some c =>
    match s.xferAt 0 with
    | .ok data =>
      next .ok (readBytes s.env.xferNo data n) (s.popXfer.record (.rd c.dev n .ok (readBytes s.env.xferNo data n)))
    | .fail => next .fail [] (s.popXfer.record (.rd c.dev n .fail []))
    | .hang => s.popXfer.hang

/-- `Sleep(us)` (00_scope.md R25, 60_exceptions.md R267). -/
def State.sleep (s : State) (us : Nat) : State := s.record (.sleep us)

/-! ### The mutex (10_state.md R44) -/

/-- A thread number put into a rising list without repeats. -/
def addWaiter (t : Nat) : List Nat → List Nat
  | [] => [t]
  | u :: us => if t < u then t :: u :: us else if t = u then u :: us else u :: addWaiter t us

/-- `Acquire(mutex)`: with the mutex free it is taken and `go` follows in the same step; otherwise the thread waits. -/
def State.acquire (s : State) (go : State → State) : State :=
  match s.here.mutex with
  | none =>
    go (s.setHere { s.here with
      mutex := some s.turn.tid, waiters := s.here.waiters.filter (fun t => t ≠ s.turn.tid) })
  | some _ => s.setHere { s.here with waiters := addWaiter s.turn.tid s.here.waiters }

/-- `Release(mutex)`. -/
def State.release (s : State) : State := s.setHere { s.here with mutex := none }

/-! ### The sequence of a call -/

/-- The thread's record with every call-local value back at rest. -/
def Thread.atRest (th : Thread) : Thread :=
  { th with running := false, seq := [], ret := .nothing, q := [], r := 0#8, st := .ok, b := false, before := blankImage,
            queued := [], race := false }

/-- The call returns: its value is added to the thread's returned values and the position is IDLE (10_state.md R38). -/
def State.finish (s : State) : State :=
  s.setMe { s.me.atRest with rets := s.me.rets ++ [retValue s.me.ret s.me.st s.me.r] }

/-- The head of the sequence is replaced. -/
def State.goto (s : State) (a : Act) : State := s.setMe { s.me with seq := a :: s.me.seq.tail }

/-- The head of the sequence is done; after the last the call returns. -/
def State.pop (s : State) : State :=
  match s.me.seq.tail with
  | [] => s.finish
  | a :: rest => s.setMe { s.me with seq := a :: rest }

/-! ### Guards (42_controller.md R200, 60_exceptions.md R253 to R258) -/

/-- Whether another thread is inside a call on instance `k`. -/
def State.otherInside (s : State) (k : Nat) : Bool :=
  s.threads.any fun e => decide (e.1 ≠ s.turn.tid) && e.2.running && decide (e.2.inst = k)

/-- `LifecycleRace` (R255): a lifecycle call is in progress, or this is one and another call is in progress. -/
def State.raceGuard (s : State) (lifecycleCall : Bool) : Option FatalReason :=
  if s.here.lcBusy.isSome || (lifecycleCall && s.otherInside s.me.inst) then some .lifecycleRace else none

/-- `Uninit`: `start` and `stop` need `life ∈ {STOP, READY}`. -/
def State.initGuard (s : State) : Option FatalReason := if s.here.life = .uninit then some .uninit else none

/-- `AlreadyInit`: `init` needs `life = UNINIT`. -/
def State.freshGuard (s : State) : Option FatalReason := if s.here.life = .uninit then none else some .alreadyInit

/-- `NotReady`: the controller operations need `life = READY`. -/
def State.readyGuard (s : State) : Option FatalReason := if s.here.life = .ready then none else some .notReady

/-- `NoConfig` (R254). -/
def State.configGuard (s : State) : Option FatalReason := if s.here.cfg.isSome then none else some .noConfig

end Sys2Proof.Machine
end

