-- ==== Sys2Proof/Machine/Sequencer.lean ====
section
/-! DEFINITION. The enable-pulse sequencer and the busy-read state machine: what a thread does at each position of its
call, one atomic step at a time (00_scope.md R21, 10_state.md R38, R39; 41_bus_engine.md R160, R166, R172, R173,
R178, R179, R181; 40_expander.md R142, R145), and how a call begins. -/

namespace Sys2Proof.Machine

/-! ### Backlight overlap (41_bus_engine.md R181; log 16) -/

/-- An access that has begun and not ended. -/
def Act.inAccess : Act → Bool
  | .write pos _ _ _ _ => pos ≠ .acq
  | .read pos _ _ => pos ≠ .acq
  | .burst pos _ => pos ≠ .acq
  | _ => false

/-- Whether the thread is inside an access on instance `k`. -/
def Thread.inAccess (th : Thread) (k : Nat) : Bool :=
  th.running && decide (th.inst = k) &&
    match th.seq with
    | a :: _ => a.inAccess
    | [] => false

/-- The images that copy `imgs` but for EN. -/
def copies (ens : List Bool) (imgs : List PortImage) : List PortImage :=
  imgs.flatMap fun i => ens.map fun en => { i with en := en }

/-- The images, up to BL, an access at this position queues in its current or next batch, from the image as it stands.
A read's second setup and its idle byte copy that image but for EN (R166); `others` are the images that direct accesses
may put there before that. -/
def Act.nextImages (img : PortImage) (others : List PortImage) : Act → List PortImage
  | .write .send rs v width _ => writeImages img rs v width
  | .read .setupHi rs .four => readSetupImages img rs ++ copies [false, true] others
  | .read .setupHi rs .eight => readSetupImages img rs ++ copies [false] others
  | .read .capHi _ .four => copies [false, true] (img :: others)
  | .read .capHi _ .eight => copies [false] (img :: others)
  | .read .setupLo _ _ => copies [false, true] (img :: others)
  | .read .capLo _ _ => copies [false] (img :: others)
  | .read .idle _ _ => copies [false] (img :: others)
  | .burst .send images => images
  | _ => []

/-- R181 item 1: the image before the access began, every image it has queued, and, unless a transfer that never completes
holds it, every image it will queue in its current or next batch. -/
def Thread.overlapImages (th : Thread) (img : PortImage) (others : List PortImage) : List PortImage :=
  th.before :: th.queued ++
    match th.hung, th.seq with
    | false, a :: _ => a.nextImages img others
    | _, _ => []

/-! Under OPERATION the direct accesses take no mutex (R175), and can put another image in place inside an access. -/

/-- What a write access is called with. -/
structure WriteOp where
  rs : Bool
  v : Byte
  width : Width
  settle : Settle
deriving DecidableEq, Repr

/-- The direct write accesses: the engine's (41_bus_engine.md R182), the write bus cycles (30_encoding.md R108) and the
command bytes as R107 draws them, don't-care bits 0. -/
def engineWrite : Instr → Option WriteOp
  | .writeInstr v width settle => some { rs := false, v, width, settle }
  | .writeData v => some { rs := true, v, width := .four, settle := .short }
  | .busWriteInstr v width settle => some { rs := false, v, width, settle }
  | .busWriteData v width => some { rs := true, v, width, settle := .short }
  | .clearDisplayCmd width => some { rs := false, v := 0b00000001#8, width, settle := .clear }
  | .returnHomeCmd width => some { rs := false, v := 0b00000010#8, width, settle := .home }
  | .entryModeSetCmd i s width =>
    some { rs := false, v := 0b000001#6 ++ BitVec.ofBool i ++ BitVec.ofBool s, width, settle := .short }
  | .displayControlCmd d c b width =>
    some { rs := false, v := 0b00001#5 ++ BitVec.ofBool d ++ BitVec.ofBool c ++ BitVec.ofBool b, width, settle := .short }
  | .cursorDisplayShiftCmd p r width =>
    some { rs := false, v := 0b0001#4 ++ BitVec.ofBool p ++ BitVec.ofBool r ++ 0b00#2, width, settle := .short }
  | .functionSetCmd l n f width =>
    some { rs := false, v := 0b001#3 ++ BitVec.ofBool l ++ BitVec.ofBool n ++ BitVec.ofBool f ++ 0b00#2, width,
           settle := .short }
  | .setCgramAddrCmd a width => some { rs := false, v := 0b01#2 ++ a, width, settle := .short }
  | .setDdramAddrCmd a width => some { rs := false, v := 0b1#1 ++ a, width, settle := .short }
  | _ => none

/-- The direct read accesses (41_bus_engine.md R182, 30_encoding.md R108): RS and width. -/
def engineRead : Instr → Option (Bool × Width)
  | .readStatusReg => some (false, .four)
  | .readDataReg => some (true, .four)
  | .busReadStatus width => some (false, width)
  | .busReadData width => some (true, width)
  | _ => none

/-- The image, up to EN and BL, a direct access that has not yet composed its first batch puts in place. -/
def Act.puts : Act → List PortImage
  | .write .acq rs v width _ => [(writeImages blankImage rs v width).getLastD blankImage]
  | .write .send rs v width _ => [(writeImages blankImage rs v width).getLastD blankImage]
  | .read .acq rs _ => [(readSetupImages blankImage rs).getLastD blankImage]
  | .read .setupHi rs _ => [(readSetupImages blankImage rs).getLastD blankImage]
  | _ => []

/-- That of a call still to be made, if it is a direct access on instance `k`. -/
def Call.puts (k : Nat) (c : Call) : List PortImage :=
  if c.inst = k then
    match decodeCall c.code with
    | .ok i =>
      match engineWrite i, engineRead i with
      | some w, _ => (Act.write .acq w.rs w.v w.width w.settle).puts
      | none, some (rs, width) => (Act.read .acq rs width).puts
      | none, none => []
    | .error _ => []
  else []

/-- Those of a thread's direct accesses on instance `k`: the one it is inside, whose sequence is one element, and those
among its calls to come. -/
def Thread.puts (th : Thread) (k : Nat) : List PortImage :=
  (match th.seq with
    | [a] => if th.running ∧ th.inst = k ∧ th.hung = false then a.puts else []
    | _ => []) ++ th.calls.flatMap (Call.puts k)

/-- The images direct accesses may still put in place while thread `t` is inside an access on the instance: none under
ACCESS, where it holds the mutex, and none inside a lifecycle call, during which a call raises LifecycleRace. -/
def State.otherImages (s : State) (t : Nat) : List PortImage :=
  match s.params.lock, s.here.lcBusy with
  | .operation, none => (s.threads.filter fun e => decide (e.1 ≠ t)).flatMap fun e => e.2.puts s.me.inst
  | _, _ => []

/-- The image as it stands, under OPERATION. DESIGN CHOICE (log 16): there direct accesses hold no mutex, so R181's
premise fails, and one access may change the image inside another; the byte R178 sends is then admitted beside R181's.
Under ACCESS the image as it stands is, up to BL, already one of R181's. -/
def State.presentImages (s : State) : List PortImage :=
  match s.params.lock with
  | .access => []
  | .operation => [s.img]

/-- Those of every other thread inside an access on the instance of the running call, whether it holds the mutex or not
(DESIGN CHOICE under OPERATION and for a bare burst, log 16), and with any the image as it stands under OPERATION. -/
def State.overlapImages (s : State) : List PortImage :=
  (s.threads.filter fun e => decide (e.1 ≠ s.turn.tid) && e.2.inAccess s.me.inst).flatMap
    fun e => e.2.overlapImages s.img (s.otherImages e.1) ++ s.presentImages

/-- Mark those accesses: from here BL is a draw for them (R181 items 2 and 3). -/
def State.markRace (s : State) : State :=
  { s with threads := s.threads.map fun e =>
      if e.1 ≠ s.turn.tid ∧ e.2.inAccess s.me.inst = true then (e.1, { e.2 with race := true }) else e }

/-- The image whose seven other bits a backlight step sends: the image itself, or with an overlap one of
`State.overlapImages`. -/
def State.blBase (s : State) : PortImage :=
  match s.overlapImages with
  | [] => s.img
  | c :: cs => (c :: cs).getD (s.nextChoice % (c :: cs).length) s.img

/-- The one write of `blSet` and the BL_WRITE of `blToggle` (R178, R179, R106), its status discarded (R180). -/
def State.blWriteStep (s : State) (on : Bool) : State :=
  let base := s.blBase
  let s1 := if s.overlapImages.isEmpty then s else s.popChoice
  let s2 := if s.img.bl = on then s1 else s1.markRace
  let s3 := s2.setImg { s2.img with bl := on }
  s3.portWrite [serialize s.params.layout { base with bl := on }] s.params.applyMask (fun _ s => s.pop)

/-- The BL a batch carries: the image's, or after an overlap a draw for all its bytes (R181 item 2). DESIGN CHOICE (log 16):
the drawn BL is written into the image with the batch, and the image holds it until the next batch or the end of the
access; R181 gives the image's BL only at that end, and R161 has no access write BL. -/
def State.holdBl (s : State) : State :=
  if s.me.race then (s.setImg { s.img with bl := decide (s.nextChoice % 2 = 1) }).popChoice else s

/-! ### Accesses -/

/-- Start of an access: the image before it is kept for R181. -/
def State.beginAccess (s : State) : State := s.setMe { s.me with before := s.img, queued := [], race := false, q := [] }

/-- End of an access: after an overlap `img.BL` is a draw (R181 item 3); the batch is gone (10_state.md R52). -/
def State.endAccess (s : State) : State :=
  (s.holdBl).setMe { s.holdBl.me with race := false, q := [], before := blankImage, queued := [] }

/-- W_ACQ and R_ACQ: `Acquire(mutex)` under ACCESS only (41_bus_engine.md R174, R175). -/
def State.enterAccess (s : State) (first : Act) : State :=
  match s.params.lock with
  | .access => s.acquire fun s => s.beginAccess.goto first
  | .operation => s.beginAccess.goto first

/-- W_REL, R_REL and R_ABORT: `Release(mutex)` under ACCESS only. -/
def State.leaveAccess (s : State) : State :=
  match s.params.lock with
  | .access => s.endAccess.release.pop
  | .operation => s.endAccess.pop

/-- Compose a batch by mutating the image, and send it in one transport write (10_state.md R33, R52). -/
def State.sendImages (s : State) (images : List PortImage) (next : Status → State → State) : State :=
  let s1 := s.setImg (images.getLastD s.img)
  let s2 := s1.setMe { s1.me with q := images.map (serialize s.params.layout), queued := s1.me.queued ++ images }
  s2.portWrite (images.map (serialize s.params.layout)) s.params.applyMask next

/-- The status of the access in progress. -/
def State.setSt (s : State) (st : Status) : State := s.setMe { s.me with st := st }

/-- The read result. -/
def State.setR (s : State) (r : Byte) : State := s.setMe { s.me with r := r }

/-- The data nibble of a captured byte (10_state.md R35). -/
def State.captured (s : State) (cs : List Byte) : Nib := dtOf s.params.layout (cs.headD 0#8)

/-- One step of a write access (41_bus_engine.md R160, R173). -/
def State.writeStep (s : State) (pos : WPos) (rs : Bool) (v : Byte) (width : Width) (settle : Settle) : State :=
  match pos with
  | .acq => s.enterAccess (.write .send rs v width settle)
  | .send =>
    s.holdBl.sendImages (writeImages s.holdBl.img rs v width)
      (fun _ s => s.goto (.write .settle rs v width settle))
  | .settle => (s.sleep (settleTime s.params settle)).goto (.write .rel rs v width settle)
  | .rel => s.leaveAccess

/-- One step of a read access (41_bus_engine.md R166 to R172). -/
def State.readStep (s : State) (pos : RPos) (rs : Bool) (width : Width) : State :=
  match pos with
  | .acq => s.enterAccess (.read .setupHi rs width)
  | .setupHi =>
    s.holdBl.sendImages (readSetupImages s.holdBl.img rs) fun st s =>
      match st with
      | .ok => s.goto (.read .capHi rs width)
      | .fail => s.goto (.read .abort rs width)
  | .capHi =>
    s.portRead 1 fun st cs s =>
      match st with
      | .ok =>
        (s.setR (joinNib (s.captured cs) 0#4)).goto
          (match width with
           | .four => .read .setupLo rs width
           | .eight => .read .idle rs width)
      | .fail => s.goto (.read .abort rs width)
  | .setupLo =>
    s.holdBl.sendImages [{ s.holdBl.img with en := false }, { s.holdBl.img with en := true }] fun st s =>
      match st with
      | .ok => s.goto (.read .capLo rs width)
      | .fail => s.goto (.read .abort rs width)
  | .capLo =>
    s.portRead 1 fun st cs s =>
      match st with
      | .ok => (s.setR (joinNib (hiNib s.me.r) (s.captured cs))).goto (.read .idle rs width)
      | .fail => s.goto (.read .abort rs width)
  | .idle =>
    s.holdBl.sendImages [{ s.holdBl.img with en := false }] fun _ s => s.goto (.read .settle rs width)
  | .settle => (if rs then s else s.sleep s.params.tStatus).goto (.read .rel rs width)
  | .rel => (s.setSt .ok).leaveAccess
  | .abort => (s.setSt .fail).leaveAccess

/-- One step of a bare burst transfer, under the mutex (70_reset_and_hazards.md R291; log 14). -/
def State.burstStep (s : State) (pos : BPos) (images : List PortImage) : State :=
  match pos with
  | .acq => s.acquire fun s => s.beginAccess.goto (.burst .send images)
  | .send => s.sendImages images fun st s => (s.setSt st).goto (.burst .rel images)
  | .rel => s.endAccess.release.pop

/-! ### Expander calls -/

/-- The transfer of `setPort`: its status is the call's (40_expander.md R142). -/
def State.xwriteStep (s : State) (bytes : List Byte) (applyMask : Bool) : State :=
  s.portWrite bytes applyMask fun st s => (s.setSt st).pop

/-- The transfer of `getPort` (40_expander.md R145): on success the buffer is written, on failure not. -/
def State.xreadStep (s : State) (buffer : Buffer) (len : Nat) : State :=
  s.portRead len fun st cs s => ((s.writeMemBytes buffer.base cs).setSt st).pop

/-- The transfer of `getPortByte` (40_expander.md R146): the byte is the call's value. -/
def State.xreadByteStep (s : State) : State :=
  s.portRead 1 fun st cs s => ((s.setR (cs.headD 0#8)).setSt st).pop

/-! ### init -/

/-- What `init` assigns (42_controller.md R201, 10_state.md R57): image zero but for BL = 1, no configuration, mutex free,
delays bound, marker clear, STOP. -/
def Instance.initialised (i : Instance) : Instance :=
  { i with img := { rs := false, rw := false, en := false, bl := true, dt := 0#4 }, life := .stop, cfg := none,
           mutex := none, waiters := [], delays := true, lcBusy := none }

/-! ### One atomic step -/

/-- What the thread does at the head of its sequence. -/
def State.perform (s : State) : Act → State
  | .write pos rs v width settle => s.writeStep pos rs v width settle
  | .load src i =>
    (if i < src.size then s else s.popFree).goto (.write .acq true (s.loadByte src i) .four .short)
  | .read pos rs width => s.readStep pos rs width
  | .burst pos images => s.burstStep pos images
  | .sleep us => (s.sleep us).pop
  | .initialise => (s.setHere s.here.initialised).pop
  | .opAcq =>
    match s.params.lock with
    | .access => s.pop
    | .operation => s.acquire State.pop
  | .opRel =>
    match s.params.lock with
    | .access => s.pop
    | .operation => s.release.pop
  | .blSet on => s.blWriteStep on
  | .blRead => (s.setMe { s.me with b := s.img.bl }).pop
  | .blWrite => s.blWriteStep (!s.me.b)
  | .setReady => (s.setHere { s.here with life := .ready, lcBusy := none }).pop
  | .setStop => (s.setHere { s.here with life := .stop, lcBusy := none }).pop
  | .xwrite values len applyMask => s.xwriteStep (s.bufferBytes values len) applyMask
  | .xwriteByte value applyMask => s.xwriteStep [value] applyMask
  | .xread buffer len => s.xreadStep buffer len
  | .xreadByte => s.xreadByteStep

/-- One atomic step of the thread whose turn it is. A thread that is not in a call, is inside a transfer that never
completes, or belongs to a faulted process makes no step (60_exceptions.md R253, 40_expander.md R149). -/
def State.atomic (s : State) : State :=
  if s.fatal.isSome || !s.me.running || s.me.hung then s
  else
    match s.me.seq with
    | [] => s.finish
    | a :: _ => s.perform a

/-- `n` atomic steps of the thread whose turn it is. -/
def State.advance : Nat → State → State
  | 0, s => s
  | n + 1, s => State.advance n s.atomic

/-! ### The beginning of a call -/

/-- The call is in progress at its first position. -/
def State.begin (s : State) (acts : List Act) (ret : RetKind) : State :=
  s.setMe { s.me.atRest with running := true, seq := acts, ret := ret }

/-- A call: the first failing guard raises Fatal before any effect (60_exceptions.md R258); otherwise the call begins
with `setup` and goes on for the atomic steps of this turn (log 5). -/
def State.call (s : State) (guard : Option FatalReason) (setup : State → State) (ret : RetKind) (acts : List Act) :
    Host.Outcome State Fault Refusal :=
  match guard with
  | some reason => .next (s.raiseFatal reason)
  | none => .next (((setup s).begin acts ret).advance s.turn.steps)

end Sys2Proof.Machine
end

