-- ==== Sys2Proof/Machine/Engine.lean ====
section
/-! DEFINITION. The engine's named accesses (41_bus_engine.md R160, R166, R178, R179, R182). A direct call needs a bound
configuration (40_expander.md R140, 60_exceptions.md R254; log 11). -/

namespace Sys2Proof.Machine

/-- A direct engine call: `LifecycleRace`, then `NoConfig`. -/
def State.engineCall (s : State) (ret : RetKind) (acts : List Act) : Host.Outcome State Fault Refusal :=
  s.call ((s.raceGuard false).or s.configGuard) id ret acts

/-- `writeInstr(v, width, settle)` (R160, R182). -/
def execWriteInstr (v : Byte) (width : Width) (settle : Settle) (s : State) : Host.Outcome State Fault Refusal :=
  s.engineCall .nothing [.write .acq false v width settle]

/-- `writeData(v)` (R160, R182). -/
def execWriteData (v : Byte) (s : State) : Host.Outcome State Fault Refusal :=
  s.engineCall .nothing [.write .acq true v .four .short]

/-- `readStatusReg()` (R166, R182). -/
def execReadStatusReg (s : State) : Host.Outcome State Fault Refusal :=
  s.engineCall .statusByte [.read .acq false .four]

/-- `readDataReg()` (R166, R182). -/
def execReadDataReg (s : State) : Host.Outcome State Fault Refusal :=
  s.engineCall .statusByte [.read .acq true .four]

/-- `blSet(on)` (R178). -/
def execBlSet (on : Bool) (s : State) : Host.Outcome State Fault Refusal := s.engineCall .nothing [.blSet on]

/-- `blToggle()` (R179). -/
def execBlToggle (s : State) : Host.Outcome State Fault Refusal := s.engineCall .nothing [.blRead, .blWrite]

end Sys2Proof.Machine
end

