-- ==== Sys2Proof/Machine/Burst.lean ====
section
/-! DEFINITION. The rows of Formats P, T, W4, W8, RS2, RI and BLW (30_encoding.md R100 to R106): the transfer of the
port bytes the row spells, as one transport write composed through the image (10_state.md R33), under the mutex but for
the backlight write (70_reset_and_hazards.md R291, 20_memory.md R92; log 14). -/

namespace Sys2Proof.Machine

/-- One transfer of a burst's images; it returns the status of the transfer. -/
def State.burstCall (s : State) (images : List PortImage) : Host.Outcome State Fault Refusal :=
  s.engineCall .status [.burst .acq images]

/-- PORT_BYTE (R100). -/
def execPortByte (img : PortImage) (s : State) : Host.Outcome State Fault Refusal := s.burstCall [img]

/-- NIBBLE_TRIPLE (R101). -/
def execNibbleTriple (rs rw bl : Bool) (n : Nib) (s : State) : Host.Outcome State Fault Refusal :=
  s.burstCall (tripleImages { rs, rw, en := false, bl, dt := n } n)

/-- WRITE_BURST_4 (R102). -/
def execWriteBurst4 (rs bl : Bool) (v : Byte) (s : State) : Host.Outcome State Fault Refusal :=
  s.burstCall (writeImages { s.img with bl := bl } rs v .four)

/-- WRITE_BURST_8 (R103). -/
def execWriteBurst8 (rs bl : Bool) (h : Nib) (s : State) : Host.Outcome State Fault Refusal :=
  s.burstCall (tripleImages { rs, rw := false, en := false, bl, dt := h } h)

/-- READ_SETUP (R104). -/
def execReadSetup (rs bl : Bool) (s : State) : Host.Outcome State Fault Refusal :=
  s.burstCall (readSetupImages { s.img with bl := bl } rs)

/-- READ_IDLE (R105). -/
def execReadIdle (rs bl : Bool) (s : State) : Host.Outcome State Fault Refusal :=
  s.burstCall (readIdleImages { s.img with bl := bl } rs)

/-- BACKLIGHT_WRITE (R106): BL is the row's, every other field as the image holds it; no mutex. -/
def execBacklightWrite (bl : Bool) (s : State) : Host.Outcome State Fault Refusal :=
  s.engineCall .nothing [.blSet bl]

end Sys2Proof.Machine
end

