-- ==== Sys2Proof/Machine/Bus.lean ====
section
/-! DEFINITION. The Format B rows (30_encoding.md R108): the four logical accesses, selected by RS and RW, in either
width (41_bus_engine.md R160, R163, R166, R167; log 13). -/

namespace Sys2Proof.Machine

/-- BUS_WRITE_INSTR: RS = 0, RW = 0. -/
def execBusWriteInstr (v : Byte) (width : Width) (settle : Settle) (s : State) : Host.Outcome State Fault Refusal :=
  s.engineCall .nothing [.write .acq false v width settle]

/-- BUS_WRITE_DATA: RS = 1, RW = 0. Every data write settles SHORT (41_bus_engine.md R162). -/
def execBusWriteData (v : Byte) (width : Width) (s : State) : Host.Outcome State Fault Refusal :=
  s.engineCall .nothing [.write .acq true v width .short]

/-- BUS_READ_STATUS: RS = 0, RW = 1. -/
def execBusReadStatus (width : Width) (s : State) : Host.Outcome State Fault Refusal :=
  s.engineCall .statusByte [.read .acq false width]

/-- BUS_READ_DATA: RS = 1, RW = 1. -/
def execBusReadData (width : Width) (s : State) : Host.Outcome State Fault Refusal :=
  s.engineCall .statusByte [.read .acq true width]

end Sys2Proof.Machine
end

