-- ==== Sys2Proof/Machine/Command.lean ====
section
/-! DEFINITION. The Format C rows (30_encoding.md R107): each is the write-instruction access that sends its byte, in
either width (R124), with the settle class of its command (41_bus_engine.md R162; log 12). -/

namespace Sys2Proof.Machine

/-- A command byte sent with RS = 0 by a write access. -/
def State.commandCall (s : State) (byte : Byte) (width : Width) (settle : Settle) : Host.Outcome State Fault Refusal :=
  s.engineCall .nothing [.write .acq false byte width settle]

/-- CLEAR_DISPLAY, `00000001`. -/
def execClearDisplayCmd (width : Width) (s : State) : Host.Outcome State Fault Refusal :=
  s.commandCall CmdSet.hd44780.clear width .clear

/-- RETURN_HOME, `0000001x`. -/
def execReturnHomeCmd (width : Width) (s : State) : Host.Outcome State Fault Refusal :=
  s.commandCall CmdSet.hd44780.home width .home

/-- ENTRY_MODE_SET, `000001IS`. -/
def execEntryModeSetCmd (i e : Bool) (width : Width) (s : State) : Host.Outcome State Fault Refusal :=
  s.commandCall (cmdEntry .hd44780 i e) width .short

/-- DISPLAY_CONTROL, `00001DCB`. -/
def execDisplayControlCmd (d c b : Bool) (width : Width) (s : State) : Host.Outcome State Fault Refusal :=
  s.commandCall (cmdDisplay .hd44780 d c b) width .short

/-- CURSOR_DISPLAY_SHIFT, `0001PRxx`. -/
def execCursorDisplayShiftCmd (p r : Bool) (width : Width) (s : State) : Host.Outcome State Fault Refusal :=
  s.commandCall (cmdShift .hd44780 p r) width .short

/-- FUNCTION_SET, `001LNFxx`. -/
def execFunctionSetCmd (l n f : Bool) (width : Width) (s : State) : Host.Outcome State Fault Refusal :=
  s.commandCall (cmdFunction .hd44780 l n f) width .short

/-- SET_CGRAM_ADDR, `01AAAAAA`. -/
def execSetCgramAddrCmd (a : CgramAddr) (width : Width) (s : State) : Host.Outcome State Fault Refusal :=
  s.commandCall (cmdSetCgram .hd44780 a) width .short

/-- SET_DDRAM_ADDR, `1AAAAAAA`. -/
def execSetDdramAddrCmd (a : DdramAddr) (width : Width) (s : State) : Host.Outcome State Fault Refusal :=
  s.commandCall (cmdSetDdram .hd44780 a) width .short

end Sys2Proof.Machine
end

