-- ==== Sys2Proof/Machine/Controller.lean ====
section
/-! DEFINITION. The LCD controller's host calls (42_controller.md R200 to R235). -/

namespace Sys2Proof.Machine

/-! ### Lifecycle -/

/-- The first act of a lifecycle call: the marker is set (10_state.md R47), and by `start` the configuration bound
(R203). -/
def State.claim (s : State) (cfg : Option BusConfig) : State :=
  s.setHere { s.here with cfg := cfg, lcBusy := some s.turn.tid }

/-- `init(provider)` (R201). It makes no transport event and no `Sleep`. Under OPERATION it acquires the mutex after its
guard and releases it before it returns (R232), and the marker stands in between (10_state.md R47; log 25). Which
provider it binds is not state (10_state.md R45; log 21). -/
def execInit (_provider : Nat) (s : State) : Host.Outcome State Fault Refusal :=
  s.call ((s.raceGuard true).or s.freshGuard) (fun s => s.claim s.here.cfg) .nothing [.opAcq, .initialise]

/-- The bring-up (R204), under OPERATION between one `Acquire` and one `Release` (R232). DESIGN CHOICE: the `Release` is
one step before `life <- READY; lcBusy <- none`; R232 says only that it comes before the return (log 25). -/
def bringUp (p : Params) : List Act :=
  [ .opAcq,
    .sleep p.tPower,
    .write .acq false (cmdFunction p.cmd true false false) .eight .short,
    .sleep p.tFs1,
    .write .acq false (cmdFunction p.cmd true false false) .eight .short,
    .sleep p.tFs2,
    .write .acq false (cmdFunction p.cmd true false false) .eight .short,
    .write .acq false (cmdFunction p.cmd false false false) .eight .short,
    .write .acq false (cmdFunction p.cmd false true false) .four .short,
    .write .acq false (cmdDisplay p.cmd false false false) .four .short,
    .write .acq false p.cmd.clear .four .clear,
    .write .acq false (cmdEntry p.cmd true false) .four .short,
    .write .acq false p.cmd.home .four .home,
    .read .acq false .four,
    .write .acq false (cmdDisplay p.cmd true false false) .four .short,
    .opRel,
    .setReady ]

/-- `start(config)` (R202 to R209). -/
def execStart (config : BusConfig) (s : State) : Host.Outcome State Fault Refusal :=
  s.call ((s.raceGuard true).or s.initGuard) (fun s => s.claim (some config)) .nothing (bringUp s.params)

/-- `stop()` (R210, R211): display off, then backlight off; under OPERATION the mutex is released before the backlight
write (R232). -/
def execStop (s : State) : Host.Outcome State Fault Refusal :=
  s.call (((s.raceGuard true).or s.initGuard).or s.configGuard) (fun s => s.claim s.here.cfg) .nothing
    [.opAcq, .write .acq false (cmdDisplay s.params.cmd false false false) .four .short, .opRel, .blSet false, .setStop]

/-! ### Operations that need READY -/

/-- A controller operation: `LifecycleRace`, then `NotReady`; under OPERATION one `Acquire` and one `Release` around its
accesses (R232). -/
def State.operation (s : State) (ret : RetKind) (acts : List Act) : Host.Outcome State Fault Refusal :=
  s.call ((s.raceGuard false).or s.readyGuard) id ret (.opAcq :: acts ++ [.opRel])

/-- An instruction write in 4-bit mode (R205). -/
def instrAct (v : Byte) (settle : Settle) : Act := .write .acq false v .four settle

/-- `setDisplay(d, c, b)` (R213). -/
def execSetDisplay (d c b : Bool) (s : State) : Host.Outcome State Fault Refusal :=
  s.operation .nothing [instrAct (cmdDisplay s.params.cmd d c b) .short]

/-- `clear()` (R214). -/
def execClear (s : State) : Host.Outcome State Fault Refusal :=
  s.operation .nothing [instrAct s.params.cmd.clear .clear]

/-- `returnHome()` (R215). -/
def execReturnHome (s : State) : Host.Outcome State Fault Refusal :=
  s.operation .nothing [instrAct s.params.cmd.home .home]

/-- `shift(display, right)` (R216). -/
def execShift (display right : Bool) (s : State) : Host.Outcome State Fault Refusal :=
  s.operation .nothing [instrAct (cmdShift s.params.cmd display right) .short]

/-- `updatePattern(slot, pattern)` (R217). -/
def execUpdatePattern (slot : Nat) (pattern : Buffer) (s : State) : Host.Outcome State Fault Refusal :=
  s.operation .nothing
    (instrAct (cmdSetCgram s.params.cmd (cgramSlotAddr slot)) .short :: (List.range 8).map (Act.load pattern))

/-- `writeChar(ch)` (R218). -/
def execWriteChar (ch : Byte) (s : State) : Host.Outcome State Fault Refusal :=
  s.operation .nothing [.write .acq true ch .four .short]

/-- The set-DDRAM-address write of `moveTo` (R220). -/
def moveAct (p : Params) (row col : Nat) : Act := instrAct (cmdSetDdram p.cmd (ddramAddr p.lineWidth row col)) .short

/-- `moveTo(row, col)` (R220, R221). -/
def execMoveTo (row col : Nat) (s : State) : Host.Outcome State Fault Refusal :=
  s.operation .nothing [moveAct s.params row col]

/-- `drawText(row, col, text, len)` (R222). -/
def execDrawText (row col : Nat) (text : Buffer) (len : Nat) (s : State) : Host.Outcome State Fault Refusal :=
  s.operation (.count (min s.params.maxLine len))
    (moveAct s.params row col :: (List.range (min s.params.maxLine len)).map (Act.load text))

/-- The positioning write of `readData` (R223). -/
def positionAct (p : Params) (ddram : Bool) (offset : Nat) : Act :=
  if ddram then instrAct (cmdSetDdram p.cmd (ddramOff offset)) .short
  else instrAct (cmdSetCgram p.cmd (cgramOff offset)) .short

/-- `readData(ddram, offset)` (R223, R224). -/
def execReadData (ddram : Bool) (offset : Nat) (s : State) : Host.Outcome State Fault Refusal :=
  s.operation .statusByte [positionAct s.params ddram offset, .read .acq true .four]

/-- `getStatus()` (R226). -/
def execGetStatus (s : State) : Host.Outcome State Fault Refusal := s.operation .busyAddr [.read .acq false .four]

/-- `getBusy()` (R227). -/
def execGetBusy (s : State) : Host.Outcome State Fault Refusal := s.operation .busy [.read .acq false .four]

/-- `getAddress()` (R228). -/
def execGetAddress (s : State) : Host.Outcome State Fault Refusal := s.operation .address [.read .acq false .four]

/-! ### Backlight: no mutex, any lifecycle state with a configuration (R229, R230) -/

/-- `setBacklight(on)` (R229): 0 is off, any other value on. -/
def execSetBacklight (on : Nat) (s : State) : Host.Outcome State Fault Refusal :=
  s.engineCall .nothing [.blSet (decide (on ≠ 0))]

/-- `toggleBacklight()` (R230). -/
def execToggleBacklight (s : State) : Host.Outcome State Fault Refusal := s.engineCall .nothing [.blRead, .blWrite]

end Sys2Proof.Machine
end

