-- ==== Sys2Proof/Machine/Expander.lean ====
section
/-! DEFINITION. The Port-Expander Bus calls (40_expander.md R140 to R150). -/

namespace Sys2Proof.Machine

/-- An expander call: `LifecycleRace`, then `NoConfig` (R140), then the refusal of a length that is 0 or beyond the
buffer (20_memory.md R81, 60_exceptions.md R256), then the one transfer. -/
def State.expanderCall (s : State) (lengthOk : Bool) (ret : RetKind) (act : Act) : Host.Outcome State Fault Refusal :=
  match (s.raceGuard false).or s.configGuard with
  | some reason => .next (s.raiseFatal reason)
  | none => if lengthOk then s.call none id ret [act] else .refused .badLength

/-- `0 < len ≤ length(buffer)`. -/
def Buffer.admits (b : Buffer) (len : Nat) : Bool := decide (0 < len) && decide (len ≤ b.size)

/-- `setPort(values, len, applyMask)` (R142). -/
def execSetPort (values : Buffer) (len : Nat) (applyMask : Bool) (s : State) : Host.Outcome State Fault Refusal :=
  s.expanderCall (Buffer.admits values len) .status (.xwrite values len applyMask)

/-- `setPortByte(value, applyMask)` (R143). -/
def execSetPortByte (value : Byte) (applyMask : Bool) (s : State) : Host.Outcome State Fault Refusal :=
  s.expanderCall true .status (.xwriteByte value applyMask)

/-- `getPort(buffer, len)` (R145). -/
def execGetPort (buffer : Buffer) (len : Nat) (s : State) : Host.Outcome State Fault Refusal :=
  s.expanderCall (Buffer.admits buffer len) .status (.xread buffer len)

/-- `getPortByte()` (R146). -/
def execGetPortByte (s : State) : Host.Outcome State Fault Refusal := s.expanderCall true .statusByte .xreadByte

end Sys2Proof.Machine
end

