-- ==== Sys2Proof/Machine/Dispatch.lean ====
section
/-! DEFINITION. The meaning of each call: one arm per constructor of Instr. -/

namespace Sys2Proof.Machine

def exec (i : Instr) (s : State) : Host.Outcome State Fault Refusal :=
  match i with
  | .init p => Sys2Proof.Machine.execInit p s
  | .start c => Sys2Proof.Machine.execStart c s
  | .stop => Sys2Proof.Machine.execStop s
  | .setDisplay d c b => Sys2Proof.Machine.execSetDisplay d c b s
  | .clear => Sys2Proof.Machine.execClear s
  | .returnHome => Sys2Proof.Machine.execReturnHome s
  | .shift d r => Sys2Proof.Machine.execShift d r s
  | .updatePattern n p => Sys2Proof.Machine.execUpdatePattern n p s
  | .writeChar ch => Sys2Proof.Machine.execWriteChar ch s
  | .moveTo row col => Sys2Proof.Machine.execMoveTo row col s
  | .drawText row col text len => Sys2Proof.Machine.execDrawText row col text len s
  | .readData ddram offset => Sys2Proof.Machine.execReadData ddram offset s
  | .getStatus => Sys2Proof.Machine.execGetStatus s
  | .getBusy => Sys2Proof.Machine.execGetBusy s
  | .getAddress => Sys2Proof.Machine.execGetAddress s
  | .setBacklight on => Sys2Proof.Machine.execSetBacklight on s
  | .toggleBacklight => Sys2Proof.Machine.execToggleBacklight s
  | .writeInstr v width settle => Sys2Proof.Machine.execWriteInstr v width settle s
  | .writeData v => Sys2Proof.Machine.execWriteData v s
  | .readStatusReg => Sys2Proof.Machine.execReadStatusReg s
  | .readDataReg => Sys2Proof.Machine.execReadDataReg s
  | .blSet on => Sys2Proof.Machine.execBlSet on s
  | .blToggle => Sys2Proof.Machine.execBlToggle s
  | .setPort values len mask => Sys2Proof.Machine.execSetPort values len mask s
  | .setPortByte value mask => Sys2Proof.Machine.execSetPortByte value mask s
  | .getPort buffer len => Sys2Proof.Machine.execGetPort buffer len s
  | .getPortByte => Sys2Proof.Machine.execGetPortByte s
  | .clearDisplayCmd width => Sys2Proof.Machine.execClearDisplayCmd width s
  | .returnHomeCmd width => Sys2Proof.Machine.execReturnHomeCmd width s
  | .entryModeSetCmd a e width => Sys2Proof.Machine.execEntryModeSetCmd a e width s
  | .displayControlCmd d c b width => Sys2Proof.Machine.execDisplayControlCmd d c b width s
  | .cursorDisplayShiftCmd p r width => Sys2Proof.Machine.execCursorDisplayShiftCmd p r width s
  | .functionSetCmd l n f width => Sys2Proof.Machine.execFunctionSetCmd l n f width s
  | .setCgramAddrCmd a width => Sys2Proof.Machine.execSetCgramAddrCmd a width s
  | .setDdramAddrCmd a width => Sys2Proof.Machine.execSetDdramAddrCmd a width s
  | .busWriteInstr v width settle => Sys2Proof.Machine.execBusWriteInstr v width settle s
  | .busWriteData v width => Sys2Proof.Machine.execBusWriteData v width s
  | .busReadStatus width => Sys2Proof.Machine.execBusReadStatus width s
  | .busReadData width => Sys2Proof.Machine.execBusReadData width s
  | .portByte img => Sys2Proof.Machine.execPortByte img s
  | .nibbleTriple rs rw bl n => Sys2Proof.Machine.execNibbleTriple rs rw bl n s
  | .writeBurst4 rs bl v => Sys2Proof.Machine.execWriteBurst4 rs bl v s
  | .writeBurst8 rs bl h => Sys2Proof.Machine.execWriteBurst8 rs bl h s
  | .readSetup rs bl => Sys2Proof.Machine.execReadSetup rs bl s
  | .readIdle rs bl => Sys2Proof.Machine.execReadIdle rs bl s
  | .backlightWrite bl => Sys2Proof.Machine.execBacklightWrite bl s

end Sys2Proof.Machine
end

