-- ==== Sys2Proof/Machine/Fetch.lean ====
section
/-! DEFINITION. Whose turn it is and which call comes next (20_memory.md R89, R93; log 4, log 5), and the opcode-table
word put where the next call is fetched from. -/

namespace Sys2Proof.Machine

/-- The scheduler's next choice. -/
def State.nextTurn (s : State) : Turn :=
  match s.env.turns with
  | t :: _ => t
  | [] => Config.turn s.env.turnNo

/-- The next turn begins. -/
def State.takeTurn (s : State) : State :=
  { s with turn := s.nextTurn, env := { s.env with turns := s.env.turns.tail, turnNo := s.env.turnNo + 1 } }

/-- The thread's next call is taken: the call's instance is the one its positions act on. -/
def State.takeCall (s : State) (c : Call) : State :=
  s.setMe { s.me with calls := s.me.calls.tail, inst := c.inst }

/-- How many atomic steps the turn of a placed instruction has (log 4). -/
def placedSteps : Nat := 128

/-- The call bytes of an opcode-table word are thread 0's one call to come, on instance 0, and the next turn is
thread 0's. -/
def State.placeWord (s : State) (nbits w : Nat) : State :=
  { s.setThread 0 { s.thread 0 with calls := [{ inst := 0, code := tableCode nbits w }] } with
    env := { s.env with turns := [{ tid := 0, steps := placedSteps }] } }

end Sys2Proof.Machine
end

