-- ==== Sys2Proof/Machine/Step.lean ====
section
/-! DEFINITION. One step of the machine: the next thread has its turn (20_memory.md R93). -/

namespace Sys2Proof.Machine

/-- In a faulted process no thread takes a step (60_exceptions.md R253). Otherwise the thread whose turn comes goes on
with its call, or fetches, decodes and begins its next one, or has none to make. -/
def step (s : State) : Host.Outcome State Fault Refusal :=
  match s.fatal with
  | some reason => .fault (.processEnded reason)
  | none =>
    if s.takeTurn.me.running then .next (s.takeTurn.advance s.takeTurn.turn.steps)
    else
      match s.takeTurn.me.calls with
      | [] => .next s.takeTurn
      | c :: _ =>
        match decodeCall c.code with
        | .ok i => exec i (s.takeTurn.takeCall c)
        | .error why => .refused (.undecodable why)

/-- The state with an opcode-table word placed where the next call is fetched from (log 4). -/
def State.withFetchWord (s : State) (nbits w : Nat) : State := s.placeWord nbits w

end Sys2Proof.Machine
end

