-- ==== Sys2Proof/Safety.lean ====
section
/-! DEFINITION. The terms claims are made in: a run without Fatal (60_exceptions.md R253), the states a call can begin
in, what a completed call did and left alone, the bursts and events of an access as the rules spell them, the calls of
one shape grouped, and the invariants of the machine. -/

namespace Sys2Proof.Machine

/-! ### Safe runs -/

/-- A claim takes the absence of a recorded Fatal as a premise (R253). -/
def State.noFatal (s : State) : Prop := s.fatal = none

/-- A safe step: it answers a next state in which no Fatal is recorded. -/
def safeStep (s : State) : Prop := ∃ t, step s = .next t ∧ t.noFatal

/-! ### States a call can begin in -/

/-- The process is not faulted, the thread whose turn it is is not hung and waits for no mutex, and no lifecycle call
is in progress on its instance. -/
structure State.CanCall (s : State) : Prop where
  fatal : s.fatal = none
  hung : s.me.hung = false
  lcBusy : s.here.lcBusy = none
  waiters : s.turn.tid ∉ s.here.waiters

/-- Further, the instance is bound to `c`. -/
structure State.Bound (s : State) (c : BusConfig) : Prop extends s.CanCall where
  cfg : s.here.cfg = some c

/-- Further, its mutex is free. -/
structure State.Free (s : State) (c : BusConfig) : Prop extends s.Bound c where
  mutex : s.here.mutex = none

/-- The mutex is free where a logical access would take it (41_bus_engine.md R174, R175). -/
def State.accessFree (s : State) : Prop := s.params.lock = .access → s.here.mutex = none

/-- No other thread is inside an access on the instance: no backlight overlap (41_bus_engine.md R181). -/
def State.noOverlap (s : State) : Prop := s.overlapImages = []

/-! ### What a completed call did -/

/-- The call has returned `ret`, and left alone every other thread and instance, every other latch, host memory, and all
of its own thread and instance but what is named. -/
structure Did (s t : State) (c : BusConfig) (inst : Instance) (events : List EventBody) (latch : Option Byte)
    (ret : RetVal) : Prop where
  /-- The instance's record after the call. -/
  inst : t.inst s.me.inst = inst
  /-- The events of the call, in order, each of this thread and instance. -/
  trace : t.trace = s.trace ++ events.map (fun e => { tid := s.turn.tid, inst := s.me.inst, body := e })
  latch : t.latchOf c.dev = latch
  /-- The thread is idle again, with one more returned value. -/
  me : t.me = { s.me.atRest with rets := s.me.rets ++ [ret] }
  insts : ∀ k, k ≠ s.me.inst → t.inst k = s.inst k
  threads : ∀ j, j ≠ s.turn.tid → t.thread j = s.thread j
  latches : ∀ d, d ≠ c.dev → t.latchOf d = s.latchOf d
  mem : ∀ a, t.readMem a = s.readMem a
  fatal : t.fatal = s.fatal
  turn : t.turn = s.turn
  turns : t.env.turns = s.env.turns

/-! ### Bursts as the rules of 30_encoding.md spell them -/

/-- `T(rs, rw, bl, n)` (R101): EN low, high, low. -/
def triple (rs rw bl : Bool) (n : Nib) : List PortImage :=
  [{ rs, rw, en := false, bl, dt := n }, { rs, rw, en := true, bl, dt := n }, { rs, rw, en := false, bl, dt := n }]

/-- W4 (R102) or W8 (R103). -/
def writeBurst (bl rs : Bool) (v : Byte) : Width → List PortImage
  | .four => triple rs false bl (hiNib v) ++ triple rs false bl (loNib v)
  | .eight => triple rs false bl (hiNib v)

/-- The image of a read (41_bus_engine.md R168, R170): RW = 1, DT = 0xF. -/
def readImage (bl rs en : Bool) : PortImage := { rs, rw := true, en, bl, dt := 0xF#4 }

/-- RS2 (R104). -/
def setupBurst (bl rs : Bool) : List PortImage := [readImage bl rs false, readImage bl rs true]

/-- The bytes of a burst on the bus: each image serialised, with the engine's mask. -/
def sent (p : Params) (c : BusConfig) (images : List PortImage) : List Byte :=
  images.map fun i => masked c.outMask p.applyMask (serialize p.layout i)

/-- The latch after a write whose last image is `img` (10_state.md R54): the image's masked byte, or unknown. -/
def mirror (p : Params) (c : BusConfig) (img : PortImage) : Status → Option Byte
  | .ok => some (masked c.outMask p.applyMask (serialize p.layout img))
  | .fail => none

/-! ### The events of an access -/

/-- The two events of a write access (41_bus_engine.md R160, R164): its burst with the status, then its settle. -/
def writeEvents (p : Params) (c : BusConfig) (bl rs : Bool) (v : Byte) (width : Width) (settle : Settle) (st : Status) :
    List EventBody :=
  [.wr c.dev (sent p c (writeBurst bl rs v width)) st, .sleep (settleTime p settle)]

/-- The image after a write access (R165). -/
def writeImage (bl rs : Bool) (v : Byte) (width : Width) : PortImage :=
  { rs, rw := false, en := false, bl, dt := match width with | .four => loNib v | .eight => hiNib v }

/-- The settle of a read: `T_STATUS` after a status read, nothing after a data read (R169). -/
def readSettle (p : Params) (rs : Bool) : List EventBody := if rs then [] else [.sleep p.tStatus]

/-- The events of a read access that succeeds (R166, R167): `b1` and `b2` are the captured bytes, `st` the status of the
idle write. -/
def readEvents (p : Params) (c : BusConfig) (bl rs : Bool) (b1 b2 : Byte) (st : Status) : Width → List EventBody
  | .four =>
    [.wr c.dev (sent p c (setupBurst bl rs)) .ok, .rd c.dev 1 .ok [b1], .wr c.dev (sent p c (setupBurst bl rs)) .ok,
      .rd c.dev 1 .ok [b2], .wr c.dev (sent p c [readImage bl rs false]) st] ++ readSettle p rs
  | .eight =>
    [.wr c.dev (sent p c (setupBurst bl rs)) .ok, .rd c.dev 1 .ok [b1],
      .wr c.dev (sent p c [readImage bl rs false]) st] ++ readSettle p rs

/-- The byte a read access assembles (30_encoding.md R112). -/
def readValue (p : Params) (b1 b2 : Byte) : Width → Byte
  | .four => (dtOf p.layout b1).setWidth 8 <<< 4 ||| (dtOf p.layout b2).setWidth 8
  | .eight => (dtOf p.layout b1).setWidth 8 <<< 4

/-- The required transport calls of a read access: setup, capture, and again in 4-bit mode (R166, R167). -/
def readCalls : Width → Nat
  | .four => 4
  | .eight => 2

/-- The required transport call number `k` of a read that begins `n` calls from now is the first to fail. -/
def State.failsAt (s : State) (n : Nat) (width : Width) (k : Nat) : Prop :=
  k < readCalls width ∧ (∀ j, j < k → s.statusAt (n + j) = some .ok) ∧ s.statusAt (n + k) = some .fail

/-- All of them succeed, and the idle write completes with `st`. -/
def State.reads (s : State) (n : Nat) (width : Width) (st : Status) : Prop :=
  (∀ j, j < readCalls width → s.statusAt (n + j) = some .ok) ∧ s.statusAt (n + readCalls width) = some st

/-- The events of a read access whose required transport call number `k` fails (R168). -/
def abortEvents (p : Params) (c : BusConfig) (bl rs : Bool) (b1 : Byte) : Nat → List EventBody
  | 0 => [.wr c.dev (sent p c (setupBurst bl rs)) .fail]
  | 1 => [.wr c.dev (sent p c (setupBurst bl rs)) .ok, .rd c.dev 1 .fail []]
  | 2 => [.wr c.dev (sent p c (setupBurst bl rs)) .ok, .rd c.dev 1 .ok [b1], .wr c.dev (sent p c (setupBurst bl rs)) .fail]
  | _ => [.wr c.dev (sent p c (setupBurst bl rs)) .ok, .rd c.dev 1 .ok [b1], .wr c.dev (sent p c (setupBurst bl rs)) .ok,
          .rd c.dev 1 .fail []]

/-- The latch after such an abort: unknown after a failed write, else the last setup byte. -/
def abortLatch (p : Params) (c : BusConfig) (bl rs : Bool) (k : Nat) : Option Byte :=
  if k % 2 = 0 then none else mirror p c (readImage bl rs true) .ok

/-- Byte `j` of the read `i` transport calls from now: the answer's, or a free one where the answer is shorter. -/
def State.sampleAt (s : State) (i j : Nat) : Byte :=
  match s.xferAt i with
  | .ok data =>
    match data[j]? with
    | some b => b
    | none => Config.readByte (s.env.xferNo + i) j
  | .fail => 0#8
  | .hang => 0#8

/-- The byte the one-byte read `i` transport calls from now returns. -/
def State.byteAt (s : State) (i : Nat) : Byte := s.sampleAt i 0

/-- Byte `i` of a text or pattern: host memory inside the buffer, a free value beyond it (log 9). -/
def State.textByte (s : State) (buf : Buffer) (i : Nat) : Byte :=
  if i < buf.size then s.readMem (buf.base + i) else Config.freeByte (s.env.freeNo + (i - buf.size))

/-- The events of writing the first `n` bytes of a text, whose transfers have the statuses `st`. -/
def textEvents (s : State) (c : BusConfig) (buf : Buffer) (st : Nat → Status) (n : Nat) : List EventBody :=
  (List.range n).flatMap fun i =>
    writeEvents s.params c s.img.bl true (s.textByte buf i) .four .short (st i)

/-- The image a chain of data writes leaves after `n` bytes; before the first, `img`. -/
def textImage (s : State) (buf : Buffer) (img : PortImage) : Nat → PortImage
  | 0 => img
  | n + 1 => writeImage s.img.bl true (s.textByte buf n) .four

/-- The events of the bring-up (42_controller.md R204) but for the poll's, which are given: transfers have the
statuses `st`, the poll's transfers standing between `st 8` and `st 9`. -/
def bringUpEvents (p : Params) (c : BusConfig) (bl : Bool) (st : Nat → Status) (poll : List EventBody) : List EventBody :=
  [.sleep p.tPower] ++ writeEvents p c bl false (p.cmd.function ||| 0x10#8) .eight .short (st 0) ++
  [.sleep p.tFs1] ++ writeEvents p c bl false (p.cmd.function ||| 0x10#8) .eight .short (st 1) ++
  [.sleep p.tFs2] ++ writeEvents p c bl false (p.cmd.function ||| 0x10#8) .eight .short (st 2) ++
  writeEvents p c bl false p.cmd.function .eight .short (st 3) ++
  writeEvents p c bl false (p.cmd.function ||| 0x08#8) .four .short (st 4) ++
  writeEvents p c bl false p.cmd.display .four .short (st 5) ++
  writeEvents p c bl false p.cmd.clear .four .clear (st 6) ++
  writeEvents p c bl false (p.cmd.entry ||| 0x02#8) .four .short (st 7) ++
  writeEvents p c bl false p.cmd.home .four .home (st 8) ++ poll ++
  writeEvents p c bl false (p.cmd.display ||| 0x04#8) .four .short (st 9)

/-- The total of the SLEEP durations among some events (70_reset_and_hazards.md R298). -/
def sleepTotal : List EventBody → Nat
  | [] => 0
  | .sleep us :: es => us + sleepTotal es
  | .wr _ _ _ :: es => sleepTotal es
  | .rd _ _ _ _ :: es => sleepTotal es
  | .fatal _ :: es => sleepTotal es

/-! ### The calls of one shape -/

/-- The controller operations that are one write access (42_controller.md R213 to R216, R218, R220). -/
def hostWrite (p : Params) : Instr → Option WriteOp
  | .setDisplay d c b => some { rs := false, v := cmdDisplay p.cmd d c b, width := .four, settle := .short }
  | .clear => some { rs := false, v := p.cmd.clear, width := .four, settle := .clear }
  | .returnHome => some { rs := false, v := p.cmd.home, width := .four, settle := .home }
  | .shift display right => some { rs := false, v := cmdShift p.cmd display right, width := .four, settle := .short }
  | .writeChar ch => some { rs := true, v := ch, width := .four, settle := .short }
  | .moveTo row col =>
    some { rs := false, v := cmdSetDdram p.cmd (ddramAddr p.lineWidth row col), width := .four, settle := .short }
  | _ => none

/-- What a busy and address query returns for a byte read, or for a failure (42_controller.md R226 to R228). -/
def queryReturn : Instr → Option Byte → Option RetVal
  | .getStatus, some v => some (.busyAddr .ok (some (v.getLsbD 7, v.setWidth 7)))
  | .getStatus, none => some (.busyAddr .fail none)
  | .getBusy, some v => some (.busy .ok (some (v.getLsbD 7)))
  | .getBusy, none => some (.busy .fail none)
  | .getAddress, some v => some (.byte (v &&& 0x7F#8))
  | .getAddress, none => some (.byte 0xFF#8)
  | _, _ => none

/-- The backlight calls: the BL each sets, from the image's (41_bus_engine.md R178, R179; 42_controller.md R229, R230;
30_encoding.md R106). -/
def backlightLevel (bl : Bool) : Instr → Option Bool
  | .setBacklight on => some (decide (on ≠ 0))
  | .blSet on => some on
  | .backlightWrite on => some on
  | .toggleBacklight => some (!bl)
  | .blToggle => some (!bl)
  | _ => none

/-- The bare bursts: the images of R100 to R105 each sends. -/
def burstOf : Instr → Option (List PortImage)
  | .portByte img => some [img]
  | .nibbleTriple rs rw bl n => some (triple rs rw bl n)
  | .writeBurst4 rs bl v => some (writeBurst bl rs v .four)
  | .writeBurst8 rs bl h => some (triple rs false bl h)
  | .readSetup rs bl => some (setupBurst bl rs)
  | .readIdle rs bl => some [readImage bl rs false]
  | _ => none

/-- The controller operations, which need READY and run under one mutex where the granularity is OPERATION
(42_controller.md R200, R232). -/
def isOperation : Instr → Bool
  | .setDisplay _ _ _ => true
  | .clear => true
  | .returnHome => true
  | .shift _ _ => true
  | .updatePattern _ _ => true
  | .writeChar _ => true
  | .moveTo _ _ => true
  | .drawText _ _ _ _ => true
  | .readData _ _ => true
  | .getStatus => true
  | .getBusy => true
  | .getAddress => true
  | _ => false

/-- The lifecycle guard of a call (42_controller.md R200). -/
def lifeGuard (life : Life) (i : Instr) : Option FatalReason :=
  match i with
  | .init _ => if life = .uninit then none else some .alreadyInit
  | .start _ => if life = .uninit then some .uninit else none
  | .stop => if life = .uninit then some .uninit else none
  | _ => if isOperation i = true ∧ life ≠ .ready then some .notReady else none

/-- Whether a call needs a bound configuration of its own: every one but `init`, `start` and the operations, which need
READY (42_controller.md R200, 60_exceptions.md R254; for engine accesses and bursts called directly, log 11). -/
def needsConfig : Instr → Bool
  | .init _ => false
  | .start _ => false
  | i => !isOperation i

/-- Whether a call is a lifecycle call (60_exceptions.md R255). -/
def isLifecycle : Instr → Bool
  | .init _ => true
  | .start _ => true
  | .stop => true
  | _ => false

/-- The first guard of a call that fails, in the order of 60_exceptions.md R258. -/
def State.firstFailing (s : State) (i : Instr) : Option FatalReason :=
  if s.here.lcBusy.isSome = true ∨ (isLifecycle i = true ∧ s.otherInside s.me.inst = true) then some .lifecycleRace
  else
    match lifeGuard s.here.life i with
    | some reason => some reason
    | none => if needsConfig i = true ∧ s.here.cfg = none then some .noConfig else none

/-- An expander call whose length the spec refuses (60_exceptions.md R256). -/
def badLength : Instr → Prop
  | .setPort values len _ => len = 0 ∨ values.size < len
  | .getPort buffer len => len = 0 ∨ buffer.size < len
  | _ => False

/-! ### Invariants -/

/-- Host memory and the three tables are in canonical form. -/
abbrev State.wf (s : State) : Prop :=
  Sparse.wf Instance.fresh s.insts ∧ Sparse.wf Thread.idle s.threads ∧ Sparse.wf none s.latch ∧ Memory.wf s.mem

/-- What may stand after the head of a sequence: nothing that has begun. -/
def Act.initial : Act → Bool
  | .write pos _ _ _ _ => decide (pos = .acq)
  | .read pos _ _ => decide (pos = .acq)
  | .burst _ _ => false
  | .opAcq => false
  | _ => true

/-- Whether an element is a bare burst. -/
def Act.isBurst : Act → Bool
  | .burst _ _ => true
  | _ => false

/-- Whether an element is a transport step (20_memory.md R86). -/
def Act.isTransfer : Act → Bool
  | .write pos _ _ _ _ => decide (pos = .send)
  | .read pos _ _ =>
    decide (pos = .setupHi ∨ pos = .capHi ∨ pos = .setupLo ∨ pos = .capLo ∨ pos = .idle)
  | .burst pos _ => decide (pos = .send)
  | .blSet _ => true
  | .blWrite => true
  | .xwrite _ _ _ => true
  | .xwriteByte _ _ => true
  | .xread _ _ => true
  | .xreadByte => true
  | _ => false

/-- The images an access queues at this position, from the image and the BL its batch carries (41_bus_engine.md R160,
R166); none where it queues none, or its images are its own (a bare burst). -/
def Act.batch (img : PortImage) (bl : Bool) : Act → Option (List PortImage)
  | .write .send rs v width _ => some (writeBurst bl rs v width)
  | .read .setupHi rs _ => some (setupBurst bl rs)
  | .read .setupLo _ _ => some [{ img with bl, en := false }, { img with bl, en := true }]
  | .read .idle _ _ => some [{ img with bl, en := false }]
  | _ => none

/-- Whether an element is the last position of an access or of a bare burst. -/
def Act.ends : Act → Bool
  | .write pos _ _ _ _ => decide (pos = .rel)
  | .read pos _ _ => decide (pos = .rel ∨ pos = .abort)
  | .burst pos _ => decide (pos = .rel)
  | _ => false

/-- Whether an element gives back the mutex that `opAcq` took under OPERATION. -/
def Act.releases : Act → Bool
  | .opRel => true
  | .initialise => true
  | _ => false

/-- The shape of a call's sequence: only its head has begun, it releases an operation's mutex at most once, and a bare
burst stands alone. -/
def seqShape (seq : List Act) : Bool :=
  seq.tail.all Act.initial && decide (seq.countP Act.releases ≤ 1) &&
    match seq with
    | a :: _ :: _ => !a.isBurst
    | _ => true

/-- Whether a thread at this position owns its instance's mutex: inside an access under ACCESS, between `Acquire` and
`Release` of an operation under OPERATION, inside a bare burst under either. -/
def ownsMutex (lock : Lock) (seq : List Act) : Bool :=
  match seq with
  | [] => false
  | a :: _ =>
    match lock with
    | .access => a.inAccess
    | .operation => (a.isBurst && a.inAccess) || (seq.any Act.releases && decide (a ≠ .opAcq))

/-- Whether the thread is past the `Acquire` of a controller operation on instance `k` and not past its `Release`
(42_controller.md R232). -/
def Thread.inOperation (th : Thread) (k : Nat) : Bool :=
  th.running && decide (th.inst = k) && th.seq.any Act.releases && decide (th.seq.head? ≠ some .opAcq)

/-- A lifecycle call is alone on its instance (10_state.md R47, 60_exceptions.md R255): while the marker names a thread no
other is inside a call there, and a thread inside `init` has set the marker. -/
def LifecycleAlone (s : State) : Prop :=
  (∀ k t, (s.inst k).lcBusy = some t → ∀ u, (s.thread u).running = true → (s.thread u).inst = k → u = t) ∧
  ∀ t, (s.thread t).running = true → Act.initialise ∈ (s.thread t).seq →
    ((s.thread t).seq = [.opAcq, .initialise] ∨ (s.thread t).seq = [.initialise]) ∧
    (s.inst (s.thread t).inst).lcBusy = some t

/-- Mutual exclusion (20_memory.md R90, 41_bus_engine.md R174, R175): every thread at a position that owns the mutex is
its owner; with it, that a lifecycle call is alone, since `init` frees the mutex. -/
def MutexInv (s : State) : Prop :=
  LifecycleAlone s ∧
  ∀ t, (s.thread t).running = true →
    seqShape (s.thread t).seq = true ∧
    (ownsMutex (s.inst (s.thread t).inst).params.lock (s.thread t).seq = true →
      (s.inst (s.thread t).inst).mutex = some t)

/-- Lifecycle (10_state.md R42, R43, R45): an UNINIT instance has no configuration and no delay binding, every other has
its delays bound, a READY one is configured, so is any instance a call other than `init` is in progress on, an instance
`init` is in progress on is UNINIT, and a lifecycle call is alone. -/
def LifeInv (s : State) : Prop :=
  LifecycleAlone s ∧
  (∀ k, ((s.inst k).life = .uninit → (s.inst k).cfg = none ∧ (s.inst k).delays = false) ∧
    ((s.inst k).life ≠ .uninit → (s.inst k).delays = true) ∧
    ((s.inst k).life = .ready → (s.inst k).cfg.isSome = true)) ∧
  ∀ t, (s.thread t).running = true →
    if Act.initialise ∈ (s.thread t).seq then (s.inst (s.thread t).inst).life = .uninit
    else (s.inst (s.thread t).inst).cfg.isSome = true

end Sys2Proof.Machine
end

