-- ==== Sys2Proof/Certificates/Slice0/Obligations.lean ====
section
/-! DEFINITION. The statements for the provers. -/

open Sys2Proof Sys2Proof.Machine

/-! ### Encoding and operands -/

/-- Decoding the bytes of a well-formed call gives it back, whatever follows. The call number and the operand fields are
the model's own (log 1, log 2); the bytes of Formats C, B, P, T, W4, W8, RS2, RI and BLW inside are R100 to R108's. -/
def Obligations.DecodeOfEncodeIsTheCall : Prop :=
  ∀ (i : Instr) (rest : List Byte), i.wf = true → decode (encode i ++ rest) = .ok (i, rest)

/-- Whatever the decoder answers is well-formed, its natural operands below 2^32 (log 2), and what is left is the bytes
after as many as its encoding has (log 1). -/
def Obligations.DecodedCallIsWellFormed : Prop :=
  ∀ (bs rest : List Byte) (i : Instr), decode bs = .ok (i, rest) →
    i.wf = true ∧ bs.length = (encode i).length + rest.length ∧ rest = bs.drop (encode i).length

/-- Words of the opcode table, written out from R100 to R108, decode to the call they stand for. -/
def Obligations.TableWordsDecode : Prop :=
  decodeTableWord 8 0b00001110 = some (.displayControlCmd true true false .four) ∧
  decodeTableWord 8 0b00011000 = some (.cursorDisplayShiftCmd true false .four) ∧
  decodeTableWord 8 0b00101000 = some (.functionSetCmd false true false .four) ∧
  decodeTableWord 8 0b11000010 = some (.setDdramAddrCmd 0x42#7 .four) ∧
  decodeTableWord 8 0b00000011 = some (.busReadData .four) ∧
  decodeTableWord 16 0xFAFE = some (.readSetup false true) ∧
  decodeTableWord 24 0x383C38 = some (.writeBurst8 false true 0x3#4) ∧
  decodeTableWord 24 0xFAFEFA = some (.nibbleTriple false true true 0xF#4) ∧
  decodeTableWord 48 0x494D49898D89 = some (.writeBurst4 true true 0x48#8) ∧
  decodeTableWord 8 0xFB = some (.readIdle true true)

/-- R107: each command byte, whatever its don't-care bits, is the command of its row with the fields of its row. The
call number and width byte before and after it are the model's own (log 1). -/
def Obligations.CommandBytesDecodeByTheirRow : Prop :=
  ∀ width : Width,
    let dec (v : Byte) := decodeCall [0x40#8, v, widthByte width]
    dec 0b00000001#8 = .ok (.clearDisplayCmd width) ∧
    (∀ x, dec (0b0000001#7 ++ BitVec.ofBool x) = .ok (.returnHomeCmd width)) ∧
    (∀ i s, dec (0b000001#6 ++ BitVec.ofBool i ++ BitVec.ofBool s) = .ok (.entryModeSetCmd i s width)) ∧
    (∀ d c b, dec (0b00001#5 ++ BitVec.ofBool d ++ BitVec.ofBool c ++ BitVec.ofBool b) =
      .ok (.displayControlCmd d c b width)) ∧
    (∀ p r x y, dec (0b0001#4 ++ BitVec.ofBool p ++ BitVec.ofBool r ++ BitVec.ofBool x ++ BitVec.ofBool y) =
      .ok (.cursorDisplayShiftCmd p r width)) ∧
    (∀ l n f x y, dec (0b001#3 ++ BitVec.ofBool l ++ BitVec.ofBool n ++ BitVec.ofBool f ++ BitVec.ofBool x ++
      BitVec.ofBool y) = .ok (.functionSetCmd l n f width)) ∧
    (∀ a : CgramAddr, dec (0b01#2 ++ a) = .ok (.setCgramAddrCmd a width)) ∧
    (∀ a : DdramAddr, dec (0b1#1 ++ a) = .ok (.setDdramAddrCmd a width))

/-- R34, R100: under LAYOUT the byte is DT, BL, EN, RW, RS from bit 7 down; the conversion is total, injective under
every legal layout, and every byte is some image's (no bit is reserved). -/
def Obligations.PortByteOfImage : Prop :=
  (∀ img : PortImage, serialize .d1 img =
    img.dt ++ BitVec.ofBool img.bl ++ BitVec.ofBool img.en ++ BitVec.ofBool img.rw ++ BitVec.ofBool img.rs) ∧
  (∀ (l : Layout) (i j : PortImage), l.wf = true → serialize l i = serialize l j → i = j) ∧
  (∀ b : Byte, ∃ img : PortImage, serialize .d1 img = b)

/-- R35, R112: the data nibble of a captured byte is its bits 7..4 under LAYOUT, the low bits ignored; the read result
is the high nibble and the low nibble in 4-bit mode, the high nibble and zeros in 8-bit mode. -/
def Obligations.ReadByteIsAssembledHighNibbleFirst : Prop :=
  (∀ c : Byte, dtOf .d1 c = c.extractLsb' 4 4) ∧
  ∀ (p : Params) (c1 c2 : Byte),
    readValue p c1 c2 .four = dtOf p.layout c1 ++ dtOf p.layout c2 ∧
    readValue p c1 c2 .eight = dtOf p.layout c1 ++ 0#4

/-- R101: the nibble triple is three port bytes that differ only in EN, which is low, high, low. -/
def Obligations.NibbleTripleBytes : Prop :=
  ∀ (img : PortImage) (rs rw bl : Bool) (n : Nib),
    let bit (b : Bool) : Byte := (BitVec.ofBool b).setWidth 8
    let P (en : Bool) : Byte := bit rs ||| bit rw <<< 1 ||| bit en <<< 2 ||| bit bl <<< 3 ||| n.setWidth 8 <<< 4
    (tripleImages { img with rs := rs, rw := rw, bl := bl } n).map (serialize .d1) = [P false, P true, P false] ∧
    tripleBytes rs rw bl n = [P false, P true, P false] ∧ P false &&& ~~~0x04#8 = P true &&& ~~~0x04#8

/-- R77, R111: a write sends the high nibble in its first triple and the low nibble in its second; a read captures the high
nibble into `r[7:4]` and then the low nibble into `r[3:0]`. -/
def Obligations.NibbleOrder : Prop :=
  (∀ (img : PortImage) (rs : Bool) (v : Byte),
    let hi := v.extractLsb' 4 4
    let lo := v.extractLsb' 0 4
    (writeImages img rs v .four).map PortImage.dt = [hi, hi, hi, lo, lo, lo]) ∧
  ∀ (s : State) (c : BusConfig) (data : List Byte) (rs : Bool) (width : Width) (rest : List Act), s.fatal = none →
    s.me.running = true → s.me.hung = false → s.here.cfg = some c → s.xferAt 0 = .ok data →
    (s.me.seq = .read .capHi rs width :: rest → s.atomic.me.r = dtOf s.params.layout (s.byteAt 0) ++ 0#4) ∧
    (s.me.seq = .read .capLo rs width :: rest →
      s.atomic.me.r = s.me.r.extractLsb' 4 4 ++ dtOf s.params.layout (s.byteAt 0))

/-- R102 to R105 under LAYOUT: the bytes of both write bursts, of the read setup and of the idle byte, each with the
engine's mask. -/
def Obligations.BurstBytes : Prop :=
  ∀ (p : Params) (c : BusConfig) (rs bl : Bool) (v : Byte), p.layout = .d1 →
    let bit (b : Bool) : Byte := (BitVec.ofBool b).setWidth 8
    let mask (bytes : List Byte) := bytes.map (masked c.outMask p.applyMask)
    let b := bit rs ||| bit bl <<< 3
    let hi := v &&& 0xF0#8
    let lo := (v &&& 0x0F#8) <<< 4
    sent p c (writeBurst bl rs v .four) =
      mask [hi ||| b, hi ||| b ||| 0x04#8, hi ||| b, lo ||| b, lo ||| b ||| 0x04#8, lo ||| b] ∧
    sent p c (writeBurst bl rs v .eight) = mask [hi ||| b, hi ||| b ||| 0x04#8, hi ||| b] ∧
    sent p c (setupBurst bl rs) =
      mask [0xF0#8 ||| bit bl <<< 3 ||| 0x02#8 ||| bit rs, 0xF0#8 ||| bit bl <<< 3 ||| 0x02#8 ||| 0x04#8 ||| bit rs] ∧
    sent p c [readImage bl rs false] = mask [0xF0#8 ||| bit bl <<< 3 ||| 0x02#8 ||| bit rs]

/-- R113: address operands are computed in the naturals and then masked. -/
def Obligations.AddressOperands : Prop :=
  (∀ lineWidth row col, (ddramAddr lineWidth row col).toNat = (row * lineWidth + col) % 128) ∧
  (∀ slot, (cgramSlotAddr slot).toNat = (slot % 8) * 8) ∧
  (∀ o, (ddramOff o).toNat = o % 128) ∧
  (∀ o, (cgramOff o).toNat = o % 64)

/-- R114, with the HD44780 command set. -/
def Obligations.CommandOperands : Prop :=
  let bit (b : Bool) : Byte := (BitVec.ofBool b).setWidth 8
  (∀ d c b, cmdDisplay .hd44780 d c b = 0x08#8 ||| bit d <<< 2 ||| bit c <<< 1 ||| bit b) ∧
  (∀ display right, cmdShift .hd44780 display right = 0x10#8 ||| bit display <<< 3 ||| bit right <<< 2) ∧
  (∀ a, (cmdSetCgram .hd44780 a).toNat = 0x40 + a.toNat) ∧
  (∀ a, (cmdSetDdram .hd44780 a).toNat = 0x80 + a.toNat) ∧
  (∀ l n f, cmdFunction .hd44780 l n f = 0x20#8 ||| bit l <<< 4 ||| bit n <<< 3 ||| bit f <<< 2) ∧
  (∀ i s, cmdEntry .hd44780 i s = 0x04#8 ||| bit i <<< 1 ||| bit s)

/-- R177: in a write burst each nibble has EN low, high, low and every other field fixed; in a read setup EN goes from
low to high; under every legal layout, byte by byte. -/
def Obligations.EnablePulse : Prop :=
  ∀ (l : Layout) (bl rs : Bool) (v : Byte), l.wf = true →
    let en (images : List PortImage) := images.map fun i => getBit (serialize l i) l.en
    let rest (images : List PortImage) := images.map fun i => serialize l i &&& ~~~(1#8 <<< l.en)
    en (writeBurst bl rs v .four) = [false, true, false, false, true, false] ∧
    en (writeBurst bl rs v .eight) = [false, true, false] ∧
    en (setupBurst bl rs) = [false, true] ∧
    (∃ hi lo, rest (writeBurst bl rs v .four) = [hi, hi, hi, lo, lo, lo] ∧
      rest (writeBurst bl rs v .eight) = [hi, hi, hi]) ∧
    ∃ b, rest (setupBurst bl rs) = [b, b]

/-! ### Reset and lifecycle -/

/-- R57, R283: the values of a fresh instance, of every thread and of every latch at reset, and the values `init` leaves
in any instance it runs on. -/
def Obligations.FreshAndInitialisedValues : Prop :=
  (∀ k, (State.reset.inst k).life = .uninit ∧ (State.reset.inst k).cfg = none ∧ (State.reset.inst k).mutex = none ∧
    (State.reset.inst k).waiters = [] ∧ (State.reset.inst k).delays = false ∧ (State.reset.inst k).lcBusy = none) ∧
  (∀ t, (State.reset.thread t).running = false ∧ (State.reset.thread t).seq = []) ∧
  (∀ d, State.reset.latchOf d = none) ∧
  ∀ (s : State) (p : Nat), s.firstFailing (.init p) = none → s.fatal = none → s.me.hung = false →
    s.here.mutex = none → 2 ≤ s.turn.steps → ∃ t, exec (.init p) s = .next t ∧
    (t.inst s.me.inst).img = { rs := false, rw := false, en := false, bl := true, dt := 0#4 } ∧
    serialize .d1 (t.inst s.me.inst).img = 0x08#8 ∧
    (t.inst s.me.inst).life = .stop ∧ (t.inst s.me.inst).cfg = none ∧ (t.inst s.me.inst).mutex = none ∧
    (t.inst s.me.inst).waiters = [] ∧ (t.inst s.me.inst).delays = true ∧ (t.inst s.me.inst).lcBusy = none ∧
    t.me.running = false ∧ t.me.seq = [] ∧ ∀ d, t.latchOf d = s.latchOf d

/-- R201: `init` on an UNINIT instance, its mutex free for the `Acquire` of OPERATION, returns with no event, and changes
nothing but that instance; on any other it raises AlreadyInit. -/
def Obligations.InitCompletes : Prop :=
  ∀ (s : State) (p : Nat) (c : BusConfig), s.CanCall → s.otherInside s.me.inst = false →
    (s.here.life = .uninit → s.here.mutex = none → 2 ≤ s.turn.steps → ∃ t, exec (.init p) s = .next t ∧
      Did s t c { s.here with
        img := { rs := false, rw := false, en := false, bl := true, dt := 0#4 }, life := .stop, cfg := none,
        mutex := none, waiters := [], delays := true, lcBusy := none } [] (s.latchOf c.dev) .nothing) ∧
    (s.here.life ≠ .uninit → exec (.init p) s = .next (s.raiseFatal .alreadyInit))

/-- R202 to R206, R209: from STOP or READY, in a turn long enough, `start` binds its configuration and performs the
bring-up with the image's BL, whatever the transfers answer: the poll may succeed or abort. -/
def Obligations.StartPerformsTheBringUp : Prop :=
  ∀ (s : State) (c : BusConfig) (st : Nat → Status), s.CanCall → s.otherInside s.me.inst = false →
    s.here.life ≠ .uninit → s.here.mutex = none → 54 ≤ s.turn.steps → (∀ j, j < 9 → s.statusAt j = some (st j)) →
    let p := s.params
    let bl := s.img.bl
    let last := writeImage bl false (p.cmd.display ||| 0x04#8) .four
    let inst := { s.here with img := last, life := .ready, cfg := some c, lcBusy := none }
    (∀ si, s.reads 9 .four si → s.statusAt 14 = some (st 9) →
      ∃ t, exec (.start c) s = .next t ∧
        Did s t c inst
          (bringUpEvents p c bl st (readEvents p c bl false (s.byteAt 10) (s.byteAt 12) si .four))
          (mirror p c last (st 9)) .nothing) ∧
    (∀ k, s.failsAt 9 .four k → s.statusAt (10 + k) = some (st 9) →
      ∃ t, exec (.start c) s = .next t ∧
        Did s t c inst (bringUpEvents p c bl st (abortEvents p c bl false (s.byteAt 10) k))
          (mirror p c last (st 9)) .nothing)

/-- R207: a bring-up that does not hang, its at most fifteen transfers answered, ends READY whatever the statuses were,
and until it has ended `life` is what it was, the marker the thread's and the configuration the one given. -/
def Obligations.StartEndsReady : Prop :=
  ∀ (s : State) (c : BusConfig), s.CanCall → s.otherInside s.me.inst = false → s.here.life ≠ .uninit →
    s.here.mutex = none →
    ∃ t, exec (.start c) s = .next t ∧ (t.inst s.me.inst).cfg = some c ∧
      (t.me.running = true →
        (t.inst s.me.inst).life = s.here.life ∧ (t.inst s.me.inst).lcBusy = some s.turn.tid) ∧
      (54 ≤ s.turn.steps → (∀ j, j < 15 → s.statusAt j ≠ none) →
        t.me.running = false ∧ t.fatal = none ∧ (t.inst s.me.inst).life = .ready ∧ (t.inst s.me.inst).lcBusy = none)

/-- R210, R211: `stop` sends display-off and then the backlight write with BL = 0, goes to STOP, and keeps the
configuration, the mutex and the image but for these two writes. -/
def Obligations.StopCompletes : Prop :=
  ∀ (s : State) (c : BusConfig) (st0 st1 : Status), s.Free c → s.otherInside s.me.inst = false →
    s.here.life ≠ .uninit → 8 ≤ s.turn.steps → s.statusAt 0 = some st0 → s.statusAt 1 = some st1 →
    let p := s.params
    let img := { writeImage s.img.bl false p.cmd.display .four with bl := false }
    ∃ t, exec .stop s = .next t ∧
      Did s t c { s.here with img := img, life := .stop }
        (writeEvents p c s.img.bl false p.cmd.display .four .short st0 ++ [.wr c.dev (sent p c [img]) st1])
        (mirror p c img st1) .nothing

/-! ### Controller operations -/

/-- R213 to R216, R218, R220: each of `setDisplay`, `clear`, `returnHome`, `shift`, `writeChar` and `moveTo` is one write
access with its byte and settle; in READY it completes whatever the transfer's status, otherwise it raises NotReady. -/
def Obligations.OneWriteOperationsComplete : Prop :=
  ∀ (s : State) (i : Instr) (w : WriteOp), hostWrite s.params i = some w → s.CanCall →
    (s.here.life ≠ .ready → exec i s = .next (s.raiseFatal .notReady)) ∧
    ∀ (c : BusConfig) (st : Status), s.here.life = .ready → s.Free c → 6 ≤ s.turn.steps → s.statusAt 0 = some st →
      let img := writeImage s.img.bl w.rs w.v w.width
      ∃ t, exec i s = .next t ∧
        Did s t c { s.here with img := img } (writeEvents s.params c s.img.bl w.rs w.v w.width w.settle st)
          (mirror s.params c img st) .nothing

/-- R217: `updatePattern` sets the CGRAM address of the slot and writes the eight bytes of the pattern. A byte beyond the
buffer is a free value (log 9): the statement holds for every one. -/
def Obligations.UpdatePatternCompletes : Prop :=
  ∀ (s : State) (c : BusConfig) (slot : Nat) (pattern : Buffer) (st : Nat → Status), s.here.life = .ready → s.Free c →
    46 ≤ s.turn.steps → (∀ j, j < 9 → s.statusAt j = some (st j)) →
    let v := cmdSetCgram s.params.cmd (cgramSlotAddr slot)
    let img := textImage s pattern (writeImage s.img.bl false v .four) 8
    ∃ t, exec (.updatePattern slot pattern) s = .next t ∧
      Did s t c { s.here with img := img }
        (writeEvents s.params c s.img.bl false v .four .short (st 0) ++ textEvents s c pattern (fun j => st (j + 1)) 8)
        (mirror s.params c img (st 8)) .nothing

/-- R222: `drawText` moves as `moveTo` does, writes `min(MAX_LINE, len)` bytes of the text, and returns that count. -/
def Obligations.DrawTextCompletes : Prop :=
  ∀ (s : State) (c : BusConfig) (row col : Nat) (text : Buffer) (len : Nat) (st : Nat → Status),
    s.here.life = .ready → s.Free c →
    let n := min s.params.maxLine len
    6 + 5 * n ≤ s.turn.steps → (∀ j, j < n + 1 → s.statusAt j = some (st j)) →
    let v := cmdSetDdram s.params.cmd (ddramAddr s.params.lineWidth row col)
    let img := textImage s text (writeImage s.img.bl false v .four) n
    ∃ t, exec (.drawText row col text len) s = .next t ∧
      Did s t c { s.here with img := img }
        (writeEvents s.params c s.img.bl false v .four .short (st 0) ++ textEvents s c text (fun j => st (j + 1)) n)
        (mirror s.params c img (st n)) (.count n)

/-- R223: `readData` positions the address and reads a data byte: it returns the byte, or FAIL where the read aborts;
the positioning write's status changes nothing. -/
def Obligations.ReadDataCompletes : Prop :=
  ∀ (s : State) (c : BusConfig) (ddram : Bool) (offset : Nat) (st : Status), s.here.life = .ready → s.Free c →
    14 ≤ s.turn.steps → s.statusAt 0 = some st →
    let p := s.params
    let bl := s.img.bl
    let v := if ddram then cmdSetDdram p.cmd (ddramOff offset) else cmdSetCgram p.cmd (cgramOff offset)
    (∀ si, s.reads 1 .four si → ∃ t, exec (.readData ddram offset) s = .next t ∧
      Did s t c { s.here with img := readImage bl true false }
        (writeEvents p c bl false v .four .short st ++
          readEvents p c bl true (s.byteAt 2) (s.byteAt 4) si .four)
        (mirror p c (readImage bl true false) si)
        (.statusByte .ok (some (readValue p (s.byteAt 2) (s.byteAt 4) .four)))) ∧
    (∀ k, s.failsAt 1 .four k → ∃ t, exec (.readData ddram offset) s = .next t ∧
      Did s t c { s.here with img := readImage bl true true }
        (writeEvents p c bl false v .four .short st ++ abortEvents p c bl true (s.byteAt 2) k)
        (abortLatch p c bl true k) (.statusByte .fail none))

/-- R226 to R228: `getStatus`, `getBusy` and `getAddress` are one status read; each returns its projection of the byte,
or its answer to a failure. -/
def Obligations.StatusQueriesComplete : Prop :=
  ∀ (s : State) (c : BusConfig) (i : Instr), s.here.life = .ready → s.Free c → 10 ≤ s.turn.steps →
    let p := s.params
    let bl := s.img.bl
    (∀ si ret, s.reads 0 .four si →
      queryReturn i (some (readValue p (s.byteAt 1) (s.byteAt 3) .four)) = some ret →
      ∃ t, exec i s = .next t ∧
        Did s t c { s.here with img := readImage bl false false }
          (readEvents p c bl false (s.byteAt 1) (s.byteAt 3) si .four)
          (mirror p c (readImage bl false false) si) ret) ∧
    (∀ k ret, s.failsAt 0 .four k → queryReturn i none = some ret →
      ∃ t, exec i s = .next t ∧
        Did s t c { s.here with img := readImage bl false true } (abortEvents p c bl false (s.byteAt 1) k)
          (abortLatch p c bl false k) ret)

/-! ### Engine accesses -/

/-- R160 to R165: a direct write access, a write bus cycle or a command byte sends its burst and settles, whatever the
status; it needs no lifecycle state but a configuration (log 11, log 12, log 13). -/
def Obligations.WriteAccessesComplete : Prop :=
  ∀ (s : State) (c : BusConfig) (i : Instr) (w : WriteOp) (st : Status), engineWrite i = some w → s.Bound c →
    s.accessFree → 4 ≤ s.turn.steps → s.statusAt 0 = some st →
    let img := writeImage s.img.bl w.rs w.v w.width
    ∃ t, exec i s = .next t ∧
      Did s t c { s.here with img := img } (writeEvents s.params c s.img.bl w.rs w.v w.width w.settle st)
        (mirror s.params c img st) .nothing

/-- R166, R167, R169 to R171: a direct read access whose required transfers succeed returns the assembled byte, whatever
the idle write answers. -/
def Obligations.ReadAccessesComplete : Prop :=
  ∀ (s : State) (c : BusConfig) (i : Instr) (rs : Bool) (width : Width) (si : Status),
    engineRead i = some (rs, width) → s.Bound c → s.accessFree → 8 ≤ s.turn.steps → s.reads 0 width si →
    ∃ t, exec i s = .next t ∧
      Did s t c { s.here with img := readImage s.img.bl rs false }
        (readEvents s.params c s.img.bl rs (s.byteAt 1) (s.byteAt 3) si width)
        (mirror s.params c (readImage s.img.bl rs false) si)
        (.statusByte .ok (some (readValue s.params (s.byteAt 1) (s.byteAt 3) width)))

/-- R169: after the idle write a status read sleeps `T_STATUS`, and a data read does not sleep. -/
def Obligations.StatusReadSettles : Prop :=
  ∀ (s : State) (rs : Bool) (width : Width) (rest : List Act), s.fatal = none → s.me.running = true →
    s.me.hung = false →
    (∀ (c : BusConfig) (st : Status), s.me.seq = .read .idle rs width :: rest → s.here.cfg = some c →
      s.statusAt 0 = some st → s.atomic.me.seq = .read .settle rs width :: rest) ∧
    (s.me.seq = .read .settle rs width :: rest →
      s.atomic.me.seq = .read .rel rs width :: rest ∧
      s.atomic.trace = s.trace ++
        if rs then [] else [{ tid := s.turn.tid, inst := s.me.inst, body := .sleep s.params.tStatus }])

/-- R168: a FAIL of a setup write or a capture ends the read at once: no further event, no settle, the mutex free, the
image with EN = 1, and the answer FAIL with no byte. -/
def Obligations.ReadAccessesAbort : Prop :=
  ∀ (s : State) (c : BusConfig) (i : Instr) (rs : Bool) (width : Width) (k : Nat),
    engineRead i = some (rs, width) → s.Bound c → s.accessFree → 6 ≤ s.turn.steps → s.failsAt 0 width k →
    ∃ t, exec i s = .next t ∧
      Did s t c { s.here with img := readImage s.img.bl rs true }
        (abortEvents s.params c s.img.bl rs (s.byteAt 1) k) (abortLatch s.params c s.img.bl rs k)
        (.statusByte .fail none)

/-- R178 to R180, R229, R230: with no access overlapped, a backlight call writes BL and sends the image's byte once,
whoever holds the mutex and in any lifecycle state with a configuration; no settle, no status returned. -/
def Obligations.BacklightCallsComplete : Prop :=
  ∀ (s : State) (c : BusConfig) (i : Instr) (on : Bool) (st : Status), backlightLevel s.img.bl i = some on →
    s.Bound c → s.noOverlap → 2 ≤ s.turn.steps → s.statusAt 0 = some st →
    let img := { s.img with bl := on }
    ∃ t, exec i s = .next t ∧
      Did s t c { s.here with img := img } [.wr c.dev (sent s.params c [img]) st] (mirror s.params c img st) .nothing

/-- R181 item 1: with an access overlapped, the byte carries the new BL and the other seven bits of one of the images of
`State.overlapImages`: under ACCESS R181's, under OPERATION these, with those a direct access may yet bring about, or the image
as it stands (R178); the image's own fields change in BL only; every overlapped access whose BL changed is marked for the
draws of items 2 and 3 (log 16). -/
def Obligations.OverlappingBacklightByte : Prop :=
  ∀ (s : State) (c : BusConfig) (i : Instr) (on : Bool) (st : Status), backlightLevel s.img.bl i = some on →
    s.Bound c → ¬ s.noOverlap → 2 ≤ s.turn.steps → s.statusAt 0 = some st →
    ∃ t base, base ∈ s.overlapImages ∧ exec i s = .next t ∧
      t.trace = s.trace ++ [{ tid := s.turn.tid, inst := s.me.inst,
                              body := .wr c.dev (sent s.params c [{ base with bl := on }]) st }] ∧
      t.inst s.me.inst = { s.here with img := { s.img with bl := on } } ∧
      ∀ j, j ≠ s.turn.tid → (s.thread j).inAccess s.me.inst = true →
        (t.thread j).race = ((s.thread j).race || decide (s.img.bl ≠ on))

/-- R181 items 2 and 3, for every position of a write or read access that queues images: its batch carries one BL in all
its bytes, the image's own unless the access was overlapped, and the image is then the last one sent (its
BL in between is the model's choice, log 16); at the end of an access, an abort and a bare burst's end (log 16) among them, `img.BL` is a draw only if it was overlapped. -/
def Obligations.OverlappedAccessDrawsBacklight : Prop :=
  ∀ (s : State) (c : BusConfig) (a : Act) (rest : List Act) (st : Status),
    s.fatal = none → s.me.running = true → s.me.hung = false → s.here.cfg = some c → s.statusAt 0 = some st →
    s.me.seq = a :: rest →
    ((a.batch s.img s.img.bl).isSome = true →
      ∃ bl images, (s.me.race = false → bl = s.img.bl) ∧ a.batch s.img bl = some images ∧
        (∀ i ∈ images, i.bl = bl) ∧
        s.atomic.trace = s.trace ++ [{ tid := s.turn.tid, inst := s.me.inst,
                                       body := .wr c.dev (sent s.params c images) st }] ∧
        some (s.atomic.inst s.me.inst).img = images.getLast?) ∧
    (a.ends = true →
      ∃ bl, (s.me.race = false → bl = s.img.bl) ∧ (s.atomic.inst s.me.inst).img = { s.img with bl := bl })

/-- R100 to R105, R291: a bare port byte or burst is one transfer composed through the image, and returns the transfer's
status; in either granularity the mutex is the caller's from its first step until it returns (log 14). -/
def Obligations.BareBurstsComplete : Prop :=
  ∀ (s : State) (c : BusConfig) (i : Instr) (images : List PortImage) (last : PortImage),
    burstOf i = some images → images.getLast? = some last → s.Free c → 1 ≤ s.turn.steps →
    ∃ t, exec i s = .next t ∧
      (t.inst s.me.inst).mutex = (if t.me.running then some s.turn.tid else none) ∧
      ∀ st : Status, 3 ≤ s.turn.steps → s.statusAt 0 = some st →
        Did s t c { s.here with img := last } [.wr c.dev (sent s.params c images) st] (mirror s.params c last st)
          (.status st)

/-! ### Expander calls -/

/-- R142, R143: without a configuration `setPort` raises NoConfig; it is refused where its length is 0 or beyond its
buffer; otherwise it sends the first `len` bytes, masked if asked, in one transfer, returns its status, and the latch
holds the last byte sent or is unknown. `setPortByte` is its one-byte form. -/
def Obligations.SetPortCompletes : Prop :=
  ∀ (s : State) (applyMask : Bool), s.CanCall →
    (s.here.cfg = none →
      (∀ values len, exec (.setPort values len applyMask) s = .next (s.raiseFatal .noConfig)) ∧
      ∀ value, exec (.setPortByte value applyMask) s = .next (s.raiseFatal .noConfig)) ∧
    ∀ (c : BusConfig) (st : Status), s.here.cfg = some c → 1 ≤ s.turn.steps → s.statusAt 0 = some st →
      (∀ (values : Buffer) (len : Nat), len = 0 ∨ values.size < len →
        exec (.setPort values len applyMask) s = .refused .badLength) ∧
      (∀ (values : Buffer) (len : Nat), 0 < len → len ≤ values.size →
        ∃ t, exec (.setPort values len applyMask) s = .next t ∧
          Did s t c s.here
            [.wr c.dev ((List.range len).map fun j => masked c.outMask applyMask (s.readMem (values.base + j))) st]
            (if st = .ok then some (masked c.outMask applyMask (s.readMem (values.base + (len - 1)))) else none)
            (.status st)) ∧
      ∀ value : Byte, ∃ t, exec (.setPortByte value applyMask) s = .next t ∧
        Did s t c s.here [.wr c.dev [masked c.outMask applyMask value] st]
          (if st = .ok then some (masked c.outMask applyMask value) else none) (.status st)

/-- R145, R146: without a configuration `getPort` raises NoConfig; it is refused where its length is 0 or beyond its
buffer; otherwise it reads `len` samples in one transfer. On success it writes them to its buffer, unmasked, and nothing
else in memory; on failure no byte of memory changes; the latch is never changed. `getPortByte` returns its sample, or no
byte. -/
def Obligations.GetPortCompletes : Prop :=
  ∀ (s : State), s.CanCall →
    (s.here.cfg = none →
      (∀ buffer len, exec (.getPort buffer len) s = .next (s.raiseFatal .noConfig)) ∧
      exec .getPortByte s = .next (s.raiseFatal .noConfig)) ∧
    ∀ (c : BusConfig) (buffer : Buffer) (len : Nat), s.here.cfg = some c → 1 ≤ s.turn.steps →
      (len = 0 ∨ buffer.size < len → exec (.getPort buffer len) s = .refused .badLength) ∧
      (0 < len → len ≤ buffer.size → s.statusAt 0 = some .ok →
        (∃ t, exec (.getPort buffer len) s = .next t ∧
          Did { s with mem := t.mem } t c s.here [.rd c.dev len .ok ((List.range len).map (s.sampleAt 0))]
            (s.latchOf c.dev) (.status .ok) ∧
          ∀ a, t.readMem a =
            if buffer.base ≤ a ∧ a < buffer.base + len then s.sampleAt 0 (a - buffer.base) else s.readMem a) ∧
        ∃ t, exec .getPortByte s = .next t ∧
          Did s t c s.here [.rd c.dev 1 .ok [s.byteAt 0]] (s.latchOf c.dev) (.statusByte .ok (some (s.byteAt 0)))) ∧
      (0 < len → len ≤ buffer.size → s.statusAt 0 = some .fail →
        (∃ t, exec (.getPort buffer len) s = .next t ∧
          Did s t c s.here [.rd c.dev len .fail []] (s.latchOf c.dev) (.status .fail)) ∧
        ∃ t, exec .getPortByte s = .next t ∧
          Did s t c s.here [.rd c.dev 1 .fail []] (s.latchOf c.dev) (.statusByte .fail none))

/-! ### Guards, Fatal, refusal, hang -/

/-- R258, R261: a call whose guards fail raises Fatal for the first of them, in the order race, lifecycle, configuration,
and has no other effect. -/
def Obligations.FirstFailingGuardRaisesFatal : Prop :=
  ∀ (s : State) (i : Instr) (reason : FatalReason), s.firstFailing i = some reason →
    exec i s = .next { s with
      trace := s.trace ++ [{ tid := s.turn.tid, inst := s.me.inst, body := .fatal reason }], fatal := some reason }

/-- R258: past its guards a call never raises Fatal, in every state of the lifecycle invariant. -/
def Obligations.NoFatalPastTheGuards : Prop :=
  ∀ (s : State) (i : Instr), LifeInv s → s.firstFailing i = none → ¬ badLength i →
    ∃ t, exec i s = .next t ∧ t.fatal = s.fatal

/-- R256: past its guards a call is refused exactly where it is an expander call with a length that is 0 or beyond its
buffer. -/
def Obligations.RefusedExactlyOnBadLength : Prop :=
  ∀ (s : State) (i : Instr), s.firstFailing i = none → (exec i s = .refused .badLength ↔ badLength i)

/-- R253: in a faulted process no thread takes another step: the machine stops with the recorded reason (log 10). -/
def Obligations.FaultedProcessTakesNoStep : Prop :=
  ∀ (s : State) (reason : FatalReason), s.fatal = some reason →
    step s = .fault (.processEnded reason) ∧ ∀ n, s.advance n = s

/-- R149: at whatever transport step of whatever call, a transfer that never completes hangs its thread: the thread stays
in its call, no event and no Fatal is recorded, and the mutex is as it was; a hung thread makes no step ever, so a turn of
it changes nothing but whose turn it is. That no event is recorded is log 15, what a turn is log 5. -/
def Obligations.HungTransferHoldsTheMutex : Prop :=
  (∀ (s : State) (c : BusConfig) (a : Act) (rest : List Act), s.fatal = none → s.me.running = true →
    s.me.hung = false → s.here.cfg = some c → s.me.seq = a :: rest → a.isTransfer = true → s.statusAt 0 = none →
    s.atomic.me.hung = true ∧ s.atomic.me.running = true ∧ s.atomic.trace = s.trace ∧ s.atomic.fatal = none ∧
      s.atomic.me.inst = s.me.inst ∧ (s.atomic.inst s.me.inst).mutex = s.here.mutex) ∧
  (∀ (s : State) (n : Nat), s.me.hung = true → s.advance n = s) ∧
  ∀ s : State, s.fatal = none → s.takeTurn.me.running = true → s.takeTurn.me.hung = true → step s = .next s.takeTurn

/-- R44: `Acquire` of a held mutex makes the thread wait: an access under ACCESS, a controller operation and a bare burst
(log 14) under either granularity stay in their call, the thread among the waiters, and change nothing else. -/
def Obligations.HeldMutexMakesTheCallerWait : Prop :=
  ∀ (s : State) (c : BusConfig) (i : Instr) (owner : Nat),
    (((engineWrite i).isSome = true ∨ (engineRead i).isSome = true) ∧ s.params.lock = .access ∨
      (burstOf i).isSome = true ∨ isOperation i = true ∧ s.here.life = .ready) →
    s.Bound c → s.here.mutex = some owner → 2 ≤ s.turn.steps →
    ∃ t, exec i s = .next t ∧
      t.me = { s.me.atRest with running := true, seq := t.me.seq, ret := t.me.ret } ∧
      t.inst s.me.inst = { s.here with waiters := addWaiter s.turn.tid s.here.waiters } ∧
      (∀ u, u ∈ addWaiter s.turn.tid s.here.waiters ↔ u = s.turn.tid ∨ u ∈ s.here.waiters) ∧
      (∀ k, k ≠ s.me.inst → t.inst k = s.inst k) ∧ (∀ j, j ≠ s.turn.tid → t.thread j = s.thread j) ∧
      (∀ d, t.latchOf d = s.latchOf d) ∧ (∀ a, t.readMem a = s.readMem a) ∧ t.trace = s.trace ∧ t.fatal = none ∧
      t.turn = s.turn ∧ t.env = s.env

/-- R174: under ACCESS an access holds the mutex from its first step to its last, the settle included: wherever the turn
ends inside it the mutex is the caller's, and once it has returned the mutex is free. -/
def Obligations.AccessHoldsTheMutexThroughout : Prop :=
  ∀ (s : State) (c : BusConfig) (i : Instr), (engineWrite i).isSome = true ∨ (engineRead i).isSome = true →
    s.Bound c → s.params.lock = .access → s.here.mutex = none → 1 ≤ s.turn.steps →
    ∃ t, exec i s = .next t ∧
      (t.inst s.me.inst).mutex = if t.me.running then some s.turn.tid else none

/-- R232: under OPERATION a controller operation, and `init`, hold the mutex from after their guard until they return;
`start` and `stop` hold it until their `Release`, after their last access under the mutex (where the `Release` of `start`
stands: log 25). -/
def Obligations.OperationHoldsTheMutexThroughout : Prop :=
  ∀ (s : State) (c : BusConfig), s.params.lock = .operation → s.here.mutex = none → 1 ≤ s.turn.steps → s.CanCall →
    (∀ i, isOperation i = true → s.here.life = .ready → s.here.cfg = some c →
      ∃ t, exec i s = .next t ∧
        (t.inst s.me.inst).mutex = if t.me.running then some s.turn.tid else none) ∧
    (s.otherInside s.me.inst = false →
      (∀ p, s.here.life = .uninit →
        ∃ t, exec (.init p) s = .next t ∧
          (t.inst s.me.inst).mutex = if t.me.running then some s.turn.tid else none) ∧
      (s.here.life ≠ .uninit →
        (∃ t, exec (.start c) s = .next t ∧
          (t.inst s.me.inst).mutex = if Act.opRel ∈ t.me.seq then some s.turn.tid else none) ∧
        (s.here.cfg = some c → ∃ t, exec .stop s = .next t ∧
          (t.inst s.me.inst).mutex = if Act.opRel ∈ t.me.seq then some s.turn.tid else none)))

/-! ### The step -/

/-- When the next call of the thread whose turn comes decodes, the step is exec of it, in the state whose turn is taken
and whose call is taken off the thread's list (log 4, log 5). -/
def Obligations.StepRunsTheDecodedCall : Prop :=
  ∀ (s : State) (c : Call) (rest : List Call) (i : Instr), s.fatal = none → s.takeTurn.me.running = false →
    s.takeTurn.me.calls = c :: rest → decodeCall c.code = .ok i →
    step s = exec i (s.takeTurn.takeCall c) ∧
    (s.takeTurn.takeCall c).me = { s.takeTurn.me with calls := rest, inst := c.inst } ∧
    (s.takeTurn.takeCall c).turn = s.nextTurn ∧ (s.takeTurn.takeCall c).trace = s.trace ∧
    (∀ k, (s.takeTurn.takeCall c).inst k = s.inst k) ∧
    ∀ j, j ≠ s.nextTurn.tid → (s.takeTurn.takeCall c).thread j = s.thread j

/-- A thread inside a call goes on with it for the atomic steps of its turn (20_memory.md R93); a thread with no call to
make does nothing; bytes that encode no call are refused by name (log 1). -/
def Obligations.StepContinuesACall : Prop :=
  ∀ s : State, s.fatal = none →
    (s.takeTurn.me.running = true → step s = .next (s.takeTurn.advance s.nextTurn.steps)) ∧
    (s.takeTurn.me.running = false → s.takeTurn.me.calls = [] → step s = .next s.takeTurn) ∧
    ∀ c rest why, s.takeTurn.me.running = false → s.takeTurn.me.calls = c :: rest → decodeCall c.code = .error why →
      step s = .refused (.undecodable why)

/-- An opcode-table word placed where the next call is fetched from is the next call to run (log 4). -/
def Obligations.PlacedWordRunsNext : Prop :=
  ∀ (s : State) (nbits w : Nat) (i : Instr), s.fatal = none → (s.thread 0).running = false →
    decodeTableWord nbits w = some i →
    ∃ u, step (s.withFetchWord nbits w) = exec i u ∧ u.turn = { tid := 0, steps := 128 } ∧ u.me.inst = 0 ∧
      u.trace = s.trace ∧ (∀ k, u.inst k = s.inst k) ∧ ∀ j, j ≠ 0 → u.thread j = s.thread j

/-! ### Whole-machine rules -/

/-- R26, R89: a step only adds events to the trace, all of the thread whose turn it is and of the instance its call is
on. -/
def Obligations.TraceOnlyGrows : Prop :=
  ∀ s t : State, step s = .next t →
    ∃ es, t.trace = s.trace ++ es ∧ ∀ e ∈ es, e.tid = t.turn.tid ∧ e.inst = t.me.inst

/-- R48, R91: a step changes no instance but the one its call is on, and of another thread nothing but the mark of a
backlight overlap (log 16). -/
def Obligations.StepTouchesOneInstanceAndThread : Prop :=
  ∀ s t : State, step s = .next t →
    (∀ k, k ≠ t.me.inst → t.inst k = s.inst k) ∧
    ∀ j, j ≠ t.turn.tid → t.thread j = { s.thread j with race := (t.thread j).race }

/-- R46: no step changes LINE_WIDTH or MAX_LINE of an instance; nor any other of the parameters of R11 to R17, which the
model keeps in the instance (log 17). -/
def Obligations.ParametersNeverChange : Prop :=
  ∀ s t : State, step s = .next t → ∀ k, (t.inst k).params = (s.inst k).params

/-- R75: of all calls only `getPort` changes host memory, and only the first `len` bytes of its buffer. -/
def Obligations.OnlyGetPortWritesMemory : Prop :=
  ∀ (s t : State) (i : Instr), exec i s = .next t → ∀ a, t.readMem a ≠ s.readMem a →
    ∃ buffer len, i = .getPort buffer len ∧ buffer.base ≤ a ∧ a < buffer.base + len

/-- R212: `life` of the call's instance changes only from UNINIT to STOP by `init`, to READY by `start` and to STOP by
`stop`, these two not from UNINIT; no call returns to UNINIT, and no other instance's `life` changes. -/
def Obligations.LifecycleTransitions : Prop :=
  ∀ (s t : State) (i : Instr), exec i s = .next t → ∀ k,
    (t.inst k).life = (s.inst k).life ∨
    (k = s.me.inst ∧
      (((∃ p, i = .init p) ∧ (s.inst k).life = .uninit ∧ (t.inst k).life = .stop) ∨
       ((∃ c, i = .start c) ∧ (s.inst k).life ≠ .uninit ∧ (t.inst k).life = .ready) ∨
       (i = .stop ∧ (s.inst k).life ≠ .uninit ∧ (t.inst k).life = .stop)))

/-- R36, R291: an atomic step changes RS, RW, EN or DT only of the instance its call is on, and only in `init` or inside
an access or a bare burst (log 14), whose thread then owns the mutex under ACCESS, in a bare burst and in a controller
operation; it changes BL only in `init`, in a backlight write, in a bare burst (log 14) or after an overlap (log 16). -/
def Obligations.ProtocolFieldsChangeOnlyUnderTheMutex : Prop :=
  ∀ (s : State) (k : Nat), MutexInv s →
    ({ (s.atomic.inst k).img with bl := false } ≠ { (s.inst k).img with bl := false } →
      k = s.me.inst ∧ ∃ a rest, s.me.seq = a :: rest ∧
        (a = .initialise ∨ a.inAccess = true ∧
          ((s.inst k).params.lock = .access ∨ a.isBurst = true ∨ rest.any Act.releases = true →
            (s.inst k).mutex = some s.turn.tid))) ∧
    ((s.atomic.inst k).img.bl ≠ (s.inst k).img.bl →
      k = s.me.inst ∧ (s.me.race = true ∨
        ∃ a rest, s.me.seq = a :: rest ∧
          (a = .initialise ∨ (∃ on, a = .blSet on) ∨ a = .blWrite ∨ a.isBurst = true)))

/-- R45: every Sleep step is on an instance whose delays are bound. -/
def Obligations.SleepNeedsBoundDelays : Prop :=
  ∀ (s : State) (us : Nat), LifeInv s →
    s.atomic.trace = s.trace ++ [{ tid := s.turn.tid, inst := s.me.inst, body := .sleep us }] →
    s.here.delays = true

/-- R298: the sum of the SLEEP durations of the event lists the statements above give `start`, a write access, a text run,
and a status or data read. -/
def Obligations.SleepTotals : Prop :=
  ∀ (s : State) (p : Params) (c : BusConfig) (bl rs : Bool) (v b1 b2 : Byte) (settle : Settle) (buf : Buffer)
    (st : Nat → Status) (si : Status) (n k : Nat) (width : Width),
    sleepTotal (bringUpEvents p c bl st (readEvents p c bl false b1 b2 si .four)) =
      p.tPower + p.tFs1 + p.tFs2 + 8 * p.tSettle + p.tClear + p.tHome + p.tStatus ∧
    sleepTotal (writeEvents p c bl rs v width settle si) = settleTime p settle ∧
    sleepTotal (textEvents s c buf st n) = n * s.params.tSettle ∧
    sleepTotal (readEvents p c bl rs b1 b2 si width) = (if rs then 0 else p.tStatus) ∧
    sleepTotal (abortEvents p c bl rs b1 k) = 0

/-! ### Invariants -/

/-- Host memory (log 8) and the tables (log 24) keep the canonical form the model gives them in every step. -/
def Obligations.StepKeepsCanonicalForm : Prop := ∀ s t : State, s.wf → step s = .next t → t.wf

/-- Host memory (log 8) and the tables (log 24) have that form at reset. -/
def Obligations.ResetHasCanonicalForm : Prop := State.reset.wf

/-- R90, R174, R175: every step keeps that a thread at a position that owns the mutex is the mutex's owner, together with
R255's that a lifecycle call is alone on its instance. -/
def Obligations.StepKeepsMutexOwnership : Prop := ∀ s t : State, MutexInv s → step s = .next t → MutexInv t

/-- It holds at reset. -/
def Obligations.ResetHasMutexOwnership : Prop := MutexInv State.reset

/-- R90, R291: after any step from a state of the mutex invariant, two threads inside an access on one instance are one
thread under ACCESS, two past the `Acquire` of a controller operation on one instance are one thread under OPERATION, and
in either granularity two inside a bare burst on it are (log 14). -/
def Obligations.NoTwoOwnersOfOneMutex : Prop :=
  ∀ (s s' : State) (k t u : Nat), MutexInv s → step s = .next s' →
    ((s'.inst k).params.lock = .access → (s'.thread t).inAccess k = true → (s'.thread u).inAccess k = true → t = u) ∧
    ((s'.inst k).params.lock = .operation → (s'.thread t).inOperation k = true → (s'.thread u).inOperation k = true →
      t = u) ∧
    ((s'.thread t).inAccess k = true → (s'.thread u).inAccess k = true →
      (s'.thread t).seq.head?.any Act.isBurst = true → (s'.thread u).seq.head?.any Act.isBurst = true → t = u)

/-- R42, R43, R45, R47: every step keeps the lifecycle invariant. -/
def Obligations.StepKeepsLifecycle : Prop := ∀ s t : State, LifeInv s → step s = .next t → LifeInv t

/-- It holds at reset. -/
def Obligations.ResetHasLifecycle : Prop := LifeInv State.reset

/-! ### Lifecycle calls in progress -/

/-- R47, R203, R210: past its guards `init`, `start` or `stop` keeps the marker on the calling thread from its first step
until it returns, and clears it then; until then `life` is what it was; `start` has bound its configuration from the
first step, and `stop` keeps the one it found. -/
def Obligations.LifecycleCallsAreMarkedThroughout : Prop :=
  ∀ (s : State) (i : Instr), isLifecycle i = true → s.firstFailing i = none →
    ∃ t, exec i s = .next t ∧
      (t.inst s.me.inst).lcBusy = (if t.me.running then some s.turn.tid else none) ∧
      (t.me.running = true → (t.inst s.me.inst).life = s.here.life) ∧
      (∀ c, i = .start c → (t.inst s.me.inst).cfg = some c) ∧
      (i = .stop → (t.inst s.me.inst).cfg = s.here.cfg)
end

