-- ==== Sys2Proof/Laws/Sparse.lean ====
section
/-! SUPPORT. The laws of sparse maps: read after write, writes to one key, and the canonical form. -/

namespace Sys2Proof.Machine

variable {α : Type}

@[simp] theorem Sparse.get_nil (d : α) (k : Nat) : Sparse.get d [] k = d := rfl

theorem Sparse.get_insert_same (d v : α) (k : Nat) (m : Sparse α) (h : ∀ e ∈ m, e.1 ≠ k) :
    Sparse.get d (Sparse.insert k v m) k = v := by
  induction m with
  | nil => simp [Sparse.insert, Sparse.get]
  | cons e m ih =>
    obtain ⟨j, u⟩ := e
    have hj : j ≠ k := h (j, u) (by simp)
    have := ih (fun e he => h e (by simp [he]))
    by_cases hk : k < j <;> simp [Sparse.insert, hk, Sparse.get, hj, this]

theorem Sparse.get_insert_other (d v : α) {j k : Nat} (m : Sparse α) (h : j ≠ k) :
    Sparse.get d (Sparse.insert k v m) j = Sparse.get d m j := by
  induction m with
  | nil => simp [Sparse.insert, Sparse.get, Ne.symm h]
  | cons e m ih =>
    obtain ⟨i, u⟩ := e
    by_cases hk : k < i <;> simp [Sparse.insert, hk, Sparse.get, ih, Ne.symm h]

theorem Sparse.get_filter_same (d : α) (k : Nat) (m : Sparse α) :
    Sparse.get d (m.filter (fun e => e.1 ≠ k)) k = d := by
  induction m with
  | nil => rfl
  | cons e m ih =>
    by_cases he : e.1 = k
    · rw [List.filter_cons_of_neg (by simp [he])]; exact ih
    · rw [List.filter_cons_of_pos (by simp [he])]
      obtain ⟨i, u⟩ := e
      simp only [Sparse.get, if_neg he]
      exact ih

theorem Sparse.get_filter_other (d : α) {j k : Nat} (m : Sparse α) (h : j ≠ k) :
    Sparse.get d (m.filter (fun e => e.1 ≠ k)) j = Sparse.get d m j := by
  induction m with
  | nil => rfl
  | cons e m ih =>
    obtain ⟨i, u⟩ := e
    by_cases he : i = k
    · rw [List.filter_cons_of_neg (by simp [he])]
      simp [Sparse.get, he, Ne.symm h] at ih ⊢
      exact ih
    · rw [List.filter_cons_of_pos (by simp [he])]
      simp only [Sparse.get, ih]

variable [DecidableEq α]

@[simp] theorem Sparse.get_set_same (d v : α) (m : Sparse α) (k : Nat) :
    Sparse.get d (Sparse.set d m k v) k = v := by
  unfold Sparse.set
  split
  · rename_i h; rw [Sparse.get_filter_same, h]
  · exact Sparse.get_insert_same d v k _ (by simp)

theorem Sparse.get_set_other (d v : α) (m : Sparse α) {j k : Nat} (h : j ≠ k) :
    Sparse.get d (Sparse.set d m k v) j = Sparse.get d m j := by
  unfold Sparse.set
  split
  · exact Sparse.get_filter_other d m h
  · rw [Sparse.get_insert_other d v _ h, Sparse.get_filter_other d m h]

theorem Sparse.get_set (d v : α) (m : Sparse α) (j k : Nat) :
    Sparse.get d (Sparse.set d m k v) j = if j = k then v else Sparse.get d m j := by
  by_cases h : j = k
  · simp [h]
  · simp [h, Sparse.get_set_other d v m h]

omit [DecidableEq α] in
theorem Sparse.filter_insert (k : Nat) (v : α) (m : Sparse α) :
    (Sparse.insert k v m).filter (fun e => e.1 ≠ k) = m.filter (fun e => e.1 ≠ k) := by
  induction m with
  | nil => simp [Sparse.insert]
  | cons e m ih =>
    obtain ⟨i, u⟩ := e
    by_cases hk : k < i
    · simp [Sparse.insert, hk]
    · simp only [Sparse.insert, if_neg hk, List.filter_cons, ih]

@[simp] theorem Sparse.set_set (d v w : α) (m : Sparse α) (k : Nat) :
    Sparse.set d (Sparse.set d m k v) k w = Sparse.set d m k w := by
  have h : (Sparse.set d m k v).filter (fun e => e.1 ≠ k) = m.filter (fun e => e.1 ≠ k) := by
    unfold Sparse.set
    split
    · simp
    · rw [Sparse.filter_insert]; simp
  unfold Sparse.set at h ⊢
  rw [h]

omit [DecidableEq α] in
theorem Sparse.mem_insert {k : Nat} {v : α} {m : Sparse α} {e : Nat × α} (h : e ∈ Sparse.insert k v m) :
    e = (k, v) ∨ e ∈ m := by
  induction m with
  | nil => simpa [Sparse.insert] using h
  | cons f m ih =>
    obtain ⟨i, u⟩ := f
    by_cases hk : k < i
    · simpa [Sparse.insert, hk] using h
    · simp only [Sparse.insert, if_neg hk, List.mem_cons] at h ⊢
      rcases h with h | h
      · exact .inr (.inl h)
      · rcases ih h with h | h
        · exact .inl h
        · exact .inr (.inr h)

omit [DecidableEq α] in
theorem Sparse.pairwise_insert {k : Nat} {v : α} {m : Sparse α} (hm : m.Pairwise (fun e f => e.1 < f.1))
    (hk : ∀ e ∈ m, e.1 ≠ k) : (Sparse.insert k v m).Pairwise (fun e f => e.1 < f.1) := by
  induction m with
  | nil => simp [Sparse.insert]
  | cons f m ih =>
    obtain ⟨i, u⟩ := f
    rw [List.pairwise_cons] at hm
    by_cases hki : k < i
    · simp only [Sparse.insert, if_pos hki, List.pairwise_cons, List.mem_cons, forall_eq_or_imp]
      exact ⟨⟨hki, fun e he => lt_trans hki (hm.1 e he)⟩, hm.1, hm.2⟩
    · simp only [Sparse.insert, if_neg hki, List.pairwise_cons]
      refine ⟨fun e he => ?_, ih hm.2 (fun e he => hk e (by simp [he]))⟩
      rcases Sparse.mem_insert he with he | he
      · have := hk (i, u) (by simp)
        subst he
        simp only at this ⊢
        omega
      · exact hm.1 e he

/-- Every write keeps the canonical form. -/
theorem Sparse.wf_set (d v : α) {m : Sparse α} (k : Nat) (h : Sparse.wf d m) : Sparse.wf d (Sparse.set d m k v) := by
  have hf : (m.filter (fun e => e.1 ≠ k)).Pairwise (fun e f => e.1 < f.1) := h.1.sublist List.filter_sublist
  unfold Sparse.set
  split
  · exact ⟨hf, fun e he => h.2 e (List.mem_filter.1 he).1⟩
  · rename_i hv
    refine ⟨Sparse.pairwise_insert hf (by simp), fun e he => ?_⟩
    rcases Sparse.mem_insert he with he | he
    · rw [he]; exact hv
    · exact h.2 e (List.mem_filter.1 he).1

end Sys2Proof.Machine
end

