-- ==== Sys2Proof/Laws/State.lean ====
section
/-! SUPPORT. One lemma per field of State and basic update, true by rfl. -/

namespace Sys2Proof.Machine

variable (s : State)

@[simp] theorem State.setInst_insts (k : Nat) (v : Instance) : (s.setInst k v).insts = Sparse.set Instance.fresh s.insts k v := rfl
@[simp] theorem State.setInst_threads (k : Nat) (v : Instance) : (s.setInst k v).threads = s.threads := rfl
@[simp] theorem State.setInst_latch (k : Nat) (v : Instance) : (s.setInst k v).latch = s.latch := rfl
@[simp] theorem State.setInst_mem (k : Nat) (v : Instance) : (s.setInst k v).mem = s.mem := rfl
@[simp] theorem State.setInst_trace (k : Nat) (v : Instance) : (s.setInst k v).trace = s.trace := rfl
@[simp] theorem State.setInst_fatal (k : Nat) (v : Instance) : (s.setInst k v).fatal = s.fatal := rfl
@[simp] theorem State.setInst_turn (k : Nat) (v : Instance) : (s.setInst k v).turn = s.turn := rfl
@[simp] theorem State.setInst_env (k : Nat) (v : Instance) : (s.setInst k v).env = s.env := rfl

@[simp] theorem State.setThread_insts (t : Nat) (v : Thread) : (s.setThread t v).insts = s.insts := rfl
@[simp] theorem State.setThread_threads (t : Nat) (v : Thread) : (s.setThread t v).threads = Sparse.set Thread.idle s.threads t v := rfl
@[simp] theorem State.setThread_latch (t : Nat) (v : Thread) : (s.setThread t v).latch = s.latch := rfl
@[simp] theorem State.setThread_mem (t : Nat) (v : Thread) : (s.setThread t v).mem = s.mem := rfl
@[simp] theorem State.setThread_trace (t : Nat) (v : Thread) : (s.setThread t v).trace = s.trace := rfl
@[simp] theorem State.setThread_fatal (t : Nat) (v : Thread) : (s.setThread t v).fatal = s.fatal := rfl
@[simp] theorem State.setThread_turn (t : Nat) (v : Thread) : (s.setThread t v).turn = s.turn := rfl
@[simp] theorem State.setThread_env (t : Nat) (v : Thread) : (s.setThread t v).env = s.env := rfl

@[simp] theorem State.setMe_insts (v : Thread) : (s.setMe v).insts = s.insts := rfl
@[simp] theorem State.setMe_threads (v : Thread) : (s.setMe v).threads = Sparse.set Thread.idle s.threads s.turn.tid v := rfl
@[simp] theorem State.setMe_latch (v : Thread) : (s.setMe v).latch = s.latch := rfl
@[simp] theorem State.setMe_mem (v : Thread) : (s.setMe v).mem = s.mem := rfl
@[simp] theorem State.setMe_trace (v : Thread) : (s.setMe v).trace = s.trace := rfl
@[simp] theorem State.setMe_fatal (v : Thread) : (s.setMe v).fatal = s.fatal := rfl
@[simp] theorem State.setMe_turn (v : Thread) : (s.setMe v).turn = s.turn := rfl
@[simp] theorem State.setMe_env (v : Thread) : (s.setMe v).env = s.env := rfl

@[simp] theorem State.setLatch_insts (d : Device) (v : Option Byte) : (s.setLatch d v).insts = s.insts := rfl
@[simp] theorem State.setLatch_threads (d : Device) (v : Option Byte) : (s.setLatch d v).threads = s.threads := rfl
@[simp] theorem State.setLatch_latch (d : Device) (v : Option Byte) : (s.setLatch d v).latch = Sparse.set none s.latch (deviceKey d) v := rfl
@[simp] theorem State.setLatch_mem (d : Device) (v : Option Byte) : (s.setLatch d v).mem = s.mem := rfl
@[simp] theorem State.setLatch_trace (d : Device) (v : Option Byte) : (s.setLatch d v).trace = s.trace := rfl
@[simp] theorem State.setLatch_fatal (d : Device) (v : Option Byte) : (s.setLatch d v).fatal = s.fatal := rfl
@[simp] theorem State.setLatch_turn (d : Device) (v : Option Byte) : (s.setLatch d v).turn = s.turn := rfl
@[simp] theorem State.setLatch_env (d : Device) (v : Option Byte) : (s.setLatch d v).env = s.env := rfl

@[simp] theorem State.writeMem_insts (a : Nat) (b : Byte) : (s.writeMem a b).insts = s.insts := rfl
@[simp] theorem State.writeMem_threads (a : Nat) (b : Byte) : (s.writeMem a b).threads = s.threads := rfl
@[simp] theorem State.writeMem_latch (a : Nat) (b : Byte) : (s.writeMem a b).latch = s.latch := rfl
@[simp] theorem State.writeMem_mem (a : Nat) (b : Byte) : (s.writeMem a b).mem = Sparse.set Memory.blank s.mem a b := rfl
@[simp] theorem State.writeMem_trace (a : Nat) (b : Byte) : (s.writeMem a b).trace = s.trace := rfl
@[simp] theorem State.writeMem_fatal (a : Nat) (b : Byte) : (s.writeMem a b).fatal = s.fatal := rfl
@[simp] theorem State.writeMem_turn (a : Nat) (b : Byte) : (s.writeMem a b).turn = s.turn := rfl
@[simp] theorem State.writeMem_env (a : Nat) (b : Byte) : (s.writeMem a b).env = s.env := rfl

@[simp] theorem State.popXfer_insts : s.popXfer.insts = s.insts := rfl
@[simp] theorem State.popXfer_threads : s.popXfer.threads = s.threads := rfl
@[simp] theorem State.popXfer_latch : s.popXfer.latch = s.latch := rfl
@[simp] theorem State.popXfer_mem : s.popXfer.mem = s.mem := rfl
@[simp] theorem State.popXfer_trace : s.popXfer.trace = s.trace := rfl
@[simp] theorem State.popXfer_fatal : s.popXfer.fatal = s.fatal := rfl
@[simp] theorem State.popXfer_turn : s.popXfer.turn = s.turn := rfl
@[simp] theorem State.popXfer_env : s.popXfer.env = { s.env with xfers := s.env.xfers.tail, xferNo := s.env.xferNo + 1 } := rfl

@[simp] theorem State.popChoice_insts : s.popChoice.insts = s.insts := rfl
@[simp] theorem State.popChoice_threads : s.popChoice.threads = s.threads := rfl
@[simp] theorem State.popChoice_latch : s.popChoice.latch = s.latch := rfl
@[simp] theorem State.popChoice_mem : s.popChoice.mem = s.mem := rfl
@[simp] theorem State.popChoice_trace : s.popChoice.trace = s.trace := rfl
@[simp] theorem State.popChoice_fatal : s.popChoice.fatal = s.fatal := rfl
@[simp] theorem State.popChoice_turn : s.popChoice.turn = s.turn := rfl
@[simp] theorem State.popChoice_env : s.popChoice.env = { s.env with choices := s.env.choices.tail, choiceNo := s.env.choiceNo + 1 } := rfl

@[simp] theorem State.popFree_insts : s.popFree.insts = s.insts := rfl
@[simp] theorem State.popFree_threads : s.popFree.threads = s.threads := rfl
@[simp] theorem State.popFree_latch : s.popFree.latch = s.latch := rfl
@[simp] theorem State.popFree_mem : s.popFree.mem = s.mem := rfl
@[simp] theorem State.popFree_trace : s.popFree.trace = s.trace := rfl
@[simp] theorem State.popFree_fatal : s.popFree.fatal = s.fatal := rfl
@[simp] theorem State.popFree_turn : s.popFree.turn = s.turn := rfl
@[simp] theorem State.popFree_env : s.popFree.env = { s.env with freeNo := s.env.freeNo + 1 } := rfl

@[simp] theorem State.recordAs_insts (t k : Nat) (body : EventBody) : (s.recordAs t k body).insts = s.insts := rfl
@[simp] theorem State.recordAs_threads (t k : Nat) (body : EventBody) : (s.recordAs t k body).threads = s.threads := rfl
@[simp] theorem State.recordAs_latch (t k : Nat) (body : EventBody) : (s.recordAs t k body).latch = s.latch := rfl
@[simp] theorem State.recordAs_mem (t k : Nat) (body : EventBody) : (s.recordAs t k body).mem = s.mem := rfl
@[simp] theorem State.recordAs_trace (t k : Nat) (body : EventBody) : (s.recordAs t k body).trace = s.trace ++ [{ tid := t, inst := k, body := body }] := rfl
@[simp] theorem State.recordAs_fatal (t k : Nat) (body : EventBody) : (s.recordAs t k body).fatal = s.fatal := rfl
@[simp] theorem State.recordAs_turn (t k : Nat) (body : EventBody) : (s.recordAs t k body).turn = s.turn := rfl
@[simp] theorem State.recordAs_env (t k : Nat) (body : EventBody) : (s.recordAs t k body).env = s.env := rfl

@[simp] theorem State.takeTurn_insts : s.takeTurn.insts = s.insts := rfl
@[simp] theorem State.takeTurn_threads : s.takeTurn.threads = s.threads := rfl
@[simp] theorem State.takeTurn_latch : s.takeTurn.latch = s.latch := rfl
@[simp] theorem State.takeTurn_mem : s.takeTurn.mem = s.mem := rfl
@[simp] theorem State.takeTurn_trace : s.takeTurn.trace = s.trace := rfl
@[simp] theorem State.takeTurn_fatal : s.takeTurn.fatal = s.fatal := rfl
@[simp] theorem State.takeTurn_turn : s.takeTurn.turn = s.nextTurn := rfl

end Sys2Proof.Machine
end

