-- ==== Sys2Proof/Laws/Ops.lean ====
section
/-! SUPPORT. Reading a record after an update, and the normal form of a chain of updates: the thread's record
outermost, the instance's inside it, then the trace, the latch and the draws. -/

namespace Sys2Proof.Machine

variable (s : State)

/-! ### Reading -/

@[simp] theorem State.here_eq : s.here = s.inst s.me.inst := rfl
@[simp] theorem State.setHere_eq (v : Instance) : s.setHere v = s.setInst s.me.inst v := rfl
@[simp] theorem State.record_eq (e : EventBody) : s.record e = s.recordAs s.turn.tid s.me.inst e := rfl
@[simp] theorem State.thread_me : s.thread s.turn.tid = s.me := rfl

@[simp] theorem State.me_setMe (v : Thread) : (s.setMe v).me = v := Sparse.get_set_same ..
@[simp] theorem State.me_setInst (k : Nat) (v : Instance) : (s.setInst k v).me = s.me := rfl
@[simp] theorem State.me_setLatch (d : Device) (l : Option Byte) : (s.setLatch d l).me = s.me := rfl
@[simp] theorem State.me_writeMem (a : Nat) (b : Byte) : (s.writeMem a b).me = s.me := rfl
@[simp] theorem State.me_popXfer : s.popXfer.me = s.me := rfl
@[simp] theorem State.me_popChoice : s.popChoice.me = s.me := rfl
@[simp] theorem State.me_popFree : s.popFree.me = s.me := rfl
@[simp] theorem State.me_recordAs (t k : Nat) (e : EventBody) : (s.recordAs t k e).me = s.me := rfl

theorem State.inst_setInst (j k : Nat) (v : Instance) : (s.setInst k v).inst j = if j = k then v else s.inst j :=
  Sparse.get_set ..
@[simp] theorem State.inst_setInst_same (k : Nat) (v : Instance) : (s.setInst k v).inst k = v := Sparse.get_set_same ..
@[simp] theorem State.inst_setMe (v : Thread) (j : Nat) : (s.setMe v).inst j = s.inst j := rfl
@[simp] theorem State.inst_setThread (t : Nat) (v : Thread) (j : Nat) : (s.setThread t v).inst j = s.inst j := rfl
@[simp] theorem State.inst_setLatch (d : Device) (l : Option Byte) (j : Nat) : (s.setLatch d l).inst j = s.inst j := rfl
@[simp] theorem State.inst_writeMem (a : Nat) (b : Byte) (j : Nat) : (s.writeMem a b).inst j = s.inst j := rfl
@[simp] theorem State.inst_popXfer (j : Nat) : s.popXfer.inst j = s.inst j := rfl
@[simp] theorem State.inst_popChoice (j : Nat) : s.popChoice.inst j = s.inst j := rfl
@[simp] theorem State.inst_popFree (j : Nat) : s.popFree.inst j = s.inst j := rfl
@[simp] theorem State.inst_recordAs (t k : Nat) (e : EventBody) (j : Nat) : (s.recordAs t k e).inst j = s.inst j := rfl

theorem State.thread_setThread (j t : Nat) (v : Thread) :
    (s.setThread t v).thread j = if j = t then v else s.thread j := Sparse.get_set ..
theorem State.thread_setMe (j : Nat) (v : Thread) :
    (s.setMe v).thread j = if j = s.turn.tid then v else s.thread j := Sparse.get_set ..
@[simp] theorem State.thread_setInst (k : Nat) (v : Instance) (j : Nat) : (s.setInst k v).thread j = s.thread j := rfl
@[simp] theorem State.thread_setLatch (d : Device) (l : Option Byte) (j : Nat) : (s.setLatch d l).thread j = s.thread j := rfl
@[simp] theorem State.thread_writeMem (a : Nat) (b : Byte) (j : Nat) : (s.writeMem a b).thread j = s.thread j := rfl
@[simp] theorem State.thread_popXfer (j : Nat) : s.popXfer.thread j = s.thread j := rfl
@[simp] theorem State.thread_popChoice (j : Nat) : s.popChoice.thread j = s.thread j := rfl
@[simp] theorem State.thread_popFree (j : Nat) : s.popFree.thread j = s.thread j := rfl
@[simp] theorem State.thread_recordAs (t k : Nat) (e : EventBody) (j : Nat) : (s.recordAs t k e).thread j = s.thread j := rfl

theorem State.latchOf_setLatch (d e : Device) (l : Option Byte) :
    (s.setLatch d l).latchOf e = if deviceKey e = deviceKey d then l else s.latchOf e := Sparse.get_set ..
@[simp] theorem State.latchOf_setLatch_same (d : Device) (l : Option Byte) : (s.setLatch d l).latchOf d = l :=
  Sparse.get_set_same ..
@[simp] theorem State.latchOf_setMe (v : Thread) (x : Device) : (s.setMe v).latchOf x = s.latchOf x := rfl
@[simp] theorem State.latchOf_setThread (t : Nat) (v : Thread) (x : Device) : (s.setThread t v).latchOf x = s.latchOf x := rfl
@[simp] theorem State.latchOf_setInst (k : Nat) (v : Instance) (x : Device) : (s.setInst k v).latchOf x = s.latchOf x := rfl
@[simp] theorem State.latchOf_writeMem (a : Nat) (b : Byte) (x : Device) : (s.writeMem a b).latchOf x = s.latchOf x := rfl
@[simp] theorem State.latchOf_popXfer (x : Device) : s.popXfer.latchOf x = s.latchOf x := rfl
@[simp] theorem State.latchOf_popChoice (x : Device) : s.popChoice.latchOf x = s.latchOf x := rfl
@[simp] theorem State.latchOf_popFree (x : Device) : s.popFree.latchOf x = s.latchOf x := rfl
@[simp] theorem State.latchOf_recordAs (t k : Nat) (e : EventBody) (x : Device) : (s.recordAs t k e).latchOf x = s.latchOf x := rfl

/-- Read after write, and every other byte as before. -/
theorem State.readMem_writeMem (a c : Nat) (b : Byte) :
    (s.writeMem a b).readMem c = if c = a then b else s.readMem c := Sparse.get_set ..
@[simp] theorem State.readMem_setMe (v : Thread) (c : Nat) : (s.setMe v).readMem c = s.readMem c := rfl
@[simp] theorem State.readMem_setThread (t : Nat) (v : Thread) (c : Nat) : (s.setThread t v).readMem c = s.readMem c := rfl
@[simp] theorem State.readMem_setInst (k : Nat) (v : Instance) (c : Nat) : (s.setInst k v).readMem c = s.readMem c := rfl
@[simp] theorem State.readMem_setLatch (d : Device) (l : Option Byte) (c : Nat) : (s.setLatch d l).readMem c = s.readMem c := rfl
@[simp] theorem State.readMem_popXfer (c : Nat) : s.popXfer.readMem c = s.readMem c := rfl
@[simp] theorem State.readMem_popChoice (c : Nat) : s.popChoice.readMem c = s.readMem c := rfl
@[simp] theorem State.readMem_popFree (c : Nat) : s.popFree.readMem c = s.readMem c := rfl
@[simp] theorem State.readMem_recordAs (t k : Nat) (e : EventBody) (c : Nat) : (s.recordAs t k e).readMem c = s.readMem c := rfl

/-- A draw leaves the draws after it where they were. -/
@[simp] theorem Env.xferAt_pop (e : Env) (i : Nat) :
    Env.xferAt { e with xfers := e.xfers.tail, xferNo := e.xferNo + 1 } i = e.xferAt (i + 1) := by
  simp [Env.xferAt, Nat.add_comm, Nat.add_left_comm]
@[simp] theorem State.xferAt_popXfer (i : Nat) : s.popXfer.xferAt i = s.xferAt (i + 1) := Env.xferAt_pop s.env i
@[simp] theorem State.statusAt_popXfer (i : Nat) : s.popXfer.statusAt i = s.statusAt (i + 1) := by
  simp [State.statusAt]
@[simp] theorem State.xferAt_setMe (v : Thread) (i : Nat) : (s.setMe v).xferAt i = s.xferAt i := rfl
@[simp] theorem State.xferAt_setThread (t : Nat) (v : Thread) (i : Nat) : (s.setThread t v).xferAt i = s.xferAt i := rfl
@[simp] theorem State.xferAt_setInst (k : Nat) (v : Instance) (i : Nat) : (s.setInst k v).xferAt i = s.xferAt i := rfl
@[simp] theorem State.xferAt_setLatch (d : Device) (l : Option Byte) (i : Nat) : (s.setLatch d l).xferAt i = s.xferAt i := rfl
@[simp] theorem State.xferAt_writeMem (a : Nat) (b : Byte) (i : Nat) : (s.writeMem a b).xferAt i = s.xferAt i := rfl
@[simp] theorem State.xferAt_popChoice (i : Nat) : s.popChoice.xferAt i = s.xferAt i := rfl
@[simp] theorem State.xferAt_popFree (i : Nat) : s.popFree.xferAt i = s.xferAt i := rfl
@[simp] theorem State.xferAt_recordAs (t k : Nat) (e : EventBody) (i : Nat) : (s.recordAs t k e).xferAt i = s.xferAt i := rfl
@[simp] theorem State.statusAt_setMe (v : Thread) (i : Nat) : (s.setMe v).statusAt i = s.statusAt i := rfl
@[simp] theorem State.statusAt_setThread (t : Nat) (v : Thread) (i : Nat) : (s.setThread t v).statusAt i = s.statusAt i := rfl
@[simp] theorem State.statusAt_setInst (k : Nat) (v : Instance) (i : Nat) : (s.setInst k v).statusAt i = s.statusAt i := rfl
@[simp] theorem State.statusAt_setLatch (d : Device) (l : Option Byte) (i : Nat) : (s.setLatch d l).statusAt i = s.statusAt i := rfl
@[simp] theorem State.statusAt_writeMem (a : Nat) (b : Byte) (i : Nat) : (s.writeMem a b).statusAt i = s.statusAt i := rfl
@[simp] theorem State.statusAt_popChoice (i : Nat) : s.popChoice.statusAt i = s.statusAt i := rfl
@[simp] theorem State.statusAt_popFree (i : Nat) : s.popFree.statusAt i = s.statusAt i := rfl
@[simp] theorem State.statusAt_recordAs (t k : Nat) (e : EventBody) (i : Nat) : (s.recordAs t k e).statusAt i = s.statusAt i := rfl

/-! ### The normal form of a chain -/

@[simp] theorem State.setMe_setMe (v w : Thread) : (s.setMe v).setMe w = s.setMe w := by
  simp [State.setMe, State.setThread]
@[simp] theorem State.setInst_setInst (k : Nat) (v w : Instance) : (s.setInst k v).setInst k w = s.setInst k w := by
  simp [State.setInst]
@[simp] theorem State.setLatch_setLatch (d : Device) (l l' : Option Byte) :
    (s.setLatch d l).setLatch d l' = s.setLatch d l' := by
  simp [State.setLatch]
@[simp] theorem State.setInst_setMe (v : Thread) (k : Nat) (w : Instance) : (s.setMe v).setInst k w = (s.setInst k w).setMe v := rfl
@[simp] theorem State.recordAs_setMe (v : Thread) (t j : Nat) (e : EventBody) : (s.setMe v).recordAs t j e = (s.recordAs t j e).setMe v := rfl
@[simp] theorem State.writeMem_setMe (v : Thread) (a : Nat) (b : Byte) : (s.setMe v).writeMem a b = (s.writeMem a b).setMe v := rfl
@[simp] theorem State.setLatch_setMe (v : Thread) (d : Device) (l : Option Byte) : (s.setMe v).setLatch d l = (s.setLatch d l).setMe v := rfl
@[simp] theorem State.popFree_setMe (v : Thread) : (s.setMe v).popFree = (s.popFree).setMe v := rfl
@[simp] theorem State.popChoice_setMe (v : Thread) : (s.setMe v).popChoice = (s.popChoice).setMe v := rfl
@[simp] theorem State.popXfer_setMe (v : Thread) : (s.setMe v).popXfer = (s.popXfer).setMe v := rfl
@[simp] theorem State.recordAs_setInst (k : Nat) (w : Instance) (t j : Nat) (e : EventBody) : (s.setInst k w).recordAs t j e = (s.recordAs t j e).setInst k w := rfl
@[simp] theorem State.writeMem_setInst (k : Nat) (w : Instance) (a : Nat) (b : Byte) : (s.setInst k w).writeMem a b = (s.writeMem a b).setInst k w := rfl
@[simp] theorem State.setLatch_setInst (k : Nat) (w : Instance) (d : Device) (l : Option Byte) : (s.setInst k w).setLatch d l = (s.setLatch d l).setInst k w := rfl
@[simp] theorem State.popFree_setInst (k : Nat) (w : Instance) : (s.setInst k w).popFree = (s.popFree).setInst k w := rfl
@[simp] theorem State.popChoice_setInst (k : Nat) (w : Instance) : (s.setInst k w).popChoice = (s.popChoice).setInst k w := rfl
@[simp] theorem State.popXfer_setInst (k : Nat) (w : Instance) : (s.setInst k w).popXfer = (s.popXfer).setInst k w := rfl
@[simp] theorem State.writeMem_recordAs (t j : Nat) (e : EventBody) (a : Nat) (b : Byte) : (s.recordAs t j e).writeMem a b = (s.writeMem a b).recordAs t j e := rfl
@[simp] theorem State.setLatch_recordAs (t j : Nat) (e : EventBody) (d : Device) (l : Option Byte) : (s.recordAs t j e).setLatch d l = (s.setLatch d l).recordAs t j e := rfl
@[simp] theorem State.popFree_recordAs (t j : Nat) (e : EventBody) : (s.recordAs t j e).popFree = (s.popFree).recordAs t j e := rfl
@[simp] theorem State.popChoice_recordAs (t j : Nat) (e : EventBody) : (s.recordAs t j e).popChoice = (s.popChoice).recordAs t j e := rfl
@[simp] theorem State.popXfer_recordAs (t j : Nat) (e : EventBody) : (s.recordAs t j e).popXfer = (s.popXfer).recordAs t j e := rfl
@[simp] theorem State.setLatch_writeMem (a : Nat) (b : Byte) (d : Device) (l : Option Byte) : (s.writeMem a b).setLatch d l = (s.setLatch d l).writeMem a b := rfl
@[simp] theorem State.popFree_writeMem (a : Nat) (b : Byte) : (s.writeMem a b).popFree = (s.popFree).writeMem a b := rfl
@[simp] theorem State.popChoice_writeMem (a : Nat) (b : Byte) : (s.writeMem a b).popChoice = (s.popChoice).writeMem a b := rfl
@[simp] theorem State.popXfer_writeMem (a : Nat) (b : Byte) : (s.writeMem a b).popXfer = (s.popXfer).writeMem a b := rfl
@[simp] theorem State.popFree_setLatch (d : Device) (l : Option Byte) : (s.setLatch d l).popFree = (s.popFree).setLatch d l := rfl
@[simp] theorem State.popChoice_setLatch (d : Device) (l : Option Byte) : (s.setLatch d l).popChoice = (s.popChoice).setLatch d l := rfl
@[simp] theorem State.popXfer_setLatch (d : Device) (l : Option Byte) : (s.setLatch d l).popXfer = (s.popXfer).setLatch d l := rfl
@[simp] theorem State.popChoice_popFree : (s.popFree).popChoice = (s.popChoice).popFree := rfl
@[simp] theorem State.popXfer_popFree : (s.popFree).popXfer = (s.popXfer).popFree := rfl
@[simp] theorem State.popXfer_popChoice : (s.popChoice).popXfer = (s.popXfer).popChoice := rfl

/-! ### Abbreviations unfolded -/

@[simp] theorem State.params_eq : s.params = (s.inst s.me.inst).params := rfl
@[simp] theorem State.img_eq : s.img = (s.inst s.me.inst).img := rfl
@[simp] theorem State.setImg_eq (img : PortImage) :
    s.setImg img = s.setInst s.me.inst { s.inst s.me.inst with img := img } := rfl
@[simp] theorem Thread.atRest_inst (th : Thread) : th.atRest.inst = th.inst := rfl
@[simp] theorem Thread.atRest_calls (th : Thread) : th.atRest.calls = th.calls := rfl
@[simp] theorem Thread.atRest_hung (th : Thread) : th.atRest.hung = th.hung := rfl
@[simp] theorem Thread.atRest_rets (th : Thread) : th.atRest.rets = th.rets := rfl
@[simp] theorem Thread.atRest_atRest (th : Thread) : th.atRest.atRest = th.atRest := rfl

/-! ### What the shared operations do, each said once -/

/-- `PortWrite` with a bound configuration and a transfer that completes: `next` with its status, one event, one draw,
and the latch at the last byte sent or unknown. -/
theorem State.portWrite_done {c : BusConfig} {bytes : List Byte} {applyMask : Bool} {next : Status → State → State}
    {st : Status} (hc : s.here.cfg = some c) (hst : s.statusAt 0 = some st) :
    s.portWrite bytes applyMask next =
      next st ((s.popXfer.setLatch c.dev (latchAfter (sentBytes c applyMask bytes) st)).record
        (.wr c.dev (sentBytes c applyMask bytes) st)) := by
  simp only [State.portWrite, hc, hst]

/-- `PortRead` with a bound configuration, on success. -/
theorem State.portRead_ok {c : BusConfig} {n : Nat} {next : Status → List Byte → State → State} {data : List Byte}
    (hc : s.here.cfg = some c) (hx : s.xferAt 0 = .ok data) :
    s.portRead n next = next .ok (readBytes s.env.xferNo data n)
      (s.popXfer.record (.rd c.dev n .ok (readBytes s.env.xferNo data n))) := by
  simp only [State.portRead, hc, hx]

/-- `PortRead` with a bound configuration, on failure: no bytes. -/
theorem State.portRead_fail {c : BusConfig} {n : Nat} {next : Status → List Byte → State → State}
    (hc : s.here.cfg = some c) (hx : s.xferAt 0 = .fail) :
    s.portRead n next = next .fail [] (s.popXfer.record (.rd c.dev n .fail [])) := by
  simp only [State.portRead, hc, hx]

/-- A transfer that never completes leaves the thread hung, with no event. -/
theorem State.portWrite_hang {c : BusConfig} {bytes : List Byte} {applyMask : Bool} {next : Status → State → State}
    (hc : s.here.cfg = some c) (hx : s.statusAt 0 = none) :
    s.portWrite bytes applyMask next = (s.popXfer.setLatch c.dev none).hang := by
  simp only [State.portWrite, hc, hx]

/-- `Acquire` of a free mutex takes it. -/
theorem State.acquire_free {go : State → State} (h : s.here.mutex = none) :
    s.acquire go = go (s.setHere { s.here with
      mutex := some s.turn.tid, waiters := s.here.waiters.filter (fun t => t ≠ s.turn.tid) }) := by
  simp only [State.acquire, h]

/-- `Acquire` of a held mutex changes nothing but the set of waiters. -/
theorem State.acquire_held {go : State → State} {t : Nat} (h : s.here.mutex = some t) :
    s.acquire go = s.setHere { s.here with waiters := addWaiter s.turn.tid s.here.waiters } := by
  simp only [State.acquire, h]

@[simp] theorem State.advance_zero : State.advance 0 s = s := rfl
theorem State.advance_succ (n : Nat) : State.advance (n + 1) s = State.advance n s.atomic := rfl
theorem State.advance_add (m n : Nat) : State.advance (m + n) s = State.advance n (State.advance m s) := by
  induction m generalizing s with
  | zero => simp
  | succ m ih => rw [Nat.succ_add, State.advance_succ, State.advance_succ, ih]

/-- A thread that is not in a call makes no step. -/
theorem State.atomic_idle (h : s.me.running = false) : s.atomic = s := by simp [State.atomic, h]
/-- A hung thread makes no step. -/
theorem State.atomic_hung (h : s.me.hung = true) : s.atomic = s := by simp [State.atomic, h]
/-- In a faulted process no thread makes a step. -/
theorem State.atomic_fatal (h : s.fatal.isSome = true) : s.atomic = s := by simp [State.atomic, h]
theorem State.advance_fixed {s : State} (h : s.atomic = s) (n : Nat) : State.advance n s = s := by
  induction n with
  | zero => rfl
  | succ n ih => rw [State.advance_succ, h, ih]
/-- Otherwise it performs the head of its sequence. -/
theorem State.atomic_head {a : Act} {rest : List Act} (hf : s.fatal = none) (hr : s.me.running = true)
    (hh : s.me.hung = false) (hs : s.me.seq = a :: rest) : s.atomic = s.perform a := by
  simp [State.atomic, hf, hr, hh, hs]

end Sys2Proof.Machine
end

