-- ==== Sys2Proof/Laws/Access.lean ====
section
/-! SUPPORT. What a whole access does when nothing overlaps it: the four steps of a write access, and the steps of a
read access that succeeds or aborts, as one state up to the pop that follows; how such states compose; and what they
come to when the call returns. -/

namespace Sys2Proof.Machine

variable {s : State}

/-! ### The effect of a stretch of a call -/

/-- The trace entries of some events of the running call. -/
def State.entries (s : State) (es : List EventBody) : List Event :=
  es.map fun e => { tid := s.turn.tid, inst := s.me.inst, body := e }

/-- `n` transport calls have been answered. -/
def State.popXfers (n : Nat) (s : State) : State :=
  { s with env := { s.env with xfers := s.env.xfers.drop n, xferNo := s.env.xferNo + n } }

/-- Events recorded in order. -/
def State.records (s : State) (es : List EventBody) : State := { s with trace := s.trace ++ s.entries es }

/-- `n` transport calls, some events, the latch, the instance's record and the thread's record. -/
def State.did (s : State) (c : BusConfig) (n : Nat) (es : List EventBody) (l : Option Byte) (i : Instance)
    (th : Thread) : State :=
  ((((s.popXfers n).setLatch c.dev l).records es).setHere i).setMe th

/-- The thread's record when an access ends: the batch and the overlap fields are at rest. -/
def Thread.ended (th : Thread) (a : Act) : Thread :=
  { th with seq := a :: th.seq.tail, before := blankImage, queued := [], race := false, q := [] }

theorem State.popXfers_zero : s.popXfers 0 = s := by simp [State.popXfers]
theorem State.popXfers_succ (n : Nat) : s.popXfers (n + 1) = s.popXfer.popXfers n := by
  simp [State.popXfers, State.popXfer, Nat.add_comm, Nat.add_left_comm]
theorem State.records_nil : s.records [] = s := by simp [State.records, State.entries]
theorem State.records_cons (e : EventBody) (es : List EventBody) :
    s.records (e :: es) = (s.recordAs s.turn.tid s.me.inst e).records es := by
  simp only [State.records, State.entries, State.recordAs, List.map_cons, List.append_assoc, List.cons_append,
    List.nil_append]
  rfl

variable {c : BusConfig} {n : Nat} {es : List EventBody} {l : Option Byte} {i : Instance} {th : Thread}

/-- `did`, field by field. -/
theorem State.did_eq : s.did c n es l i th = { s with
    insts := Sparse.set Instance.fresh s.insts s.me.inst i
    threads := Sparse.set Thread.idle s.threads s.turn.tid th
    latch := Sparse.set none s.latch (deviceKey c.dev) l
    trace := s.trace ++ s.entries es
    env := { s.env with xfers := s.env.xfers.drop n, xferNo := s.env.xferNo + n } } := rfl

@[simp] theorem State.me_did : (s.did c n es l i th).me = th := by simp [State.did]
@[simp] theorem State.turn_did : (s.did c n es l i th).turn = s.turn := rfl
@[simp] theorem State.fatal_did : (s.did c n es l i th).fatal = s.fatal := rfl
@[simp] theorem State.mem_did : (s.did c n es l i th).mem = s.mem := rfl
@[simp] theorem State.trace_did : (s.did c n es l i th).trace = s.trace ++ s.entries es := rfl
@[simp] theorem State.turns_did : (s.did c n es l i th).env.turns = s.env.turns := rfl
@[simp] theorem State.xferNo_did : (s.did c n es l i th).env.xferNo = s.env.xferNo + n := rfl
theorem State.inst_did (k : Nat) : (s.did c n es l i th).inst k = if k = s.me.inst then i else s.inst k :=
  State.inst_setInst ..
@[simp] theorem State.inst_did_same : (s.did c n es l i th).inst s.me.inst = i := by simp [State.inst_did]
theorem State.thread_did (t : Nat) : (s.did c n es l i th).thread t = if t = s.turn.tid then th else s.thread t :=
  State.thread_setMe ..
theorem State.latchOf_did (d : Device) :
    (s.did c n es l i th).latchOf d = if deviceKey d = deviceKey c.dev then l else s.latchOf d := Sparse.get_set ..
@[simp] theorem State.xferAt_did (j : Nat) : (s.did c n es l i th).xferAt j = s.xferAt (n + j) := by
  show Env.xferAt { s.env with xfers := s.env.xfers.drop n, xferNo := s.env.xferNo + n } j = s.env.xferAt (n + j)
  simp [Env.xferAt, Nat.add_assoc]
@[simp] theorem State.statusAt_did (j : Nat) : (s.did c n es l i th).statusAt j = s.statusAt (n + j) := by
  simp [State.statusAt]
@[simp] theorem State.byteAt_did (j : Nat) : (s.did c n es l i th).byteAt j = s.byteAt (n + j) := by
  simp [State.byteAt, State.sampleAt, Nat.add_assoc]

/-! `did` absorbs what stands before and after it. -/

@[simp] theorem State.setMe_did (v : Thread) : (s.did c n es l i th).setMe v = s.did c n es l i v := by
  simp [State.did]
@[simp] theorem State.setInst_did (v : Instance) :
    (s.did c n es l i th).setInst s.me.inst v = s.did c n es l v th := by
  simp [State.did_eq, State.setInst]
theorem State.did_setMe {v : Thread} (h : v.inst = s.me.inst) :
    (s.setMe v).did c n es l i th = s.did c n es l i th := by
  rw [State.did_eq, State.did_eq, State.entries, State.entries, State.me_setMe, h]
  simp [State.setMe, State.setThread]
theorem State.did_setInst (v : Instance) : (s.setInst s.me.inst v).did c n es l i th = s.did c n es l i th := by
  rw [State.did_eq, State.did_eq, State.entries, State.entries, State.me_setInst]
  simp [State.setInst]

/-- Two stretches of one call make one. -/
theorem State.did_did {m : Nat} {es' : List EventBody} {l' : Option Byte} {i' : Instance} {th' : Thread}
    (h : th.inst = s.me.inst) :
    (s.did c n es l i th).did c m es' l' i' th' = s.did c (n + m) (es ++ es') l' i' th' := by
  rw [State.did_eq (s := s.did c n es l i th), State.me_did, h, State.entries, State.me_did, h, State.did_eq,
    State.did_eq]
  simp [State.entries, Nat.add_assoc]

/-- A wait before a stretch belongs to it. -/
theorem State.did_record (e : EventBody) :
    (s.recordAs s.turn.tid s.me.inst e).did c n es l i th = s.did c n (e :: es) l i th := by
  rw [State.did_eq, State.did_eq, State.entries, State.entries, State.me_recordAs]
  simp [State.recordAs]

/-- A wait is one more event. -/
theorem State.record_did (e : EventBody) :
    (s.did c n es l i th).recordAs s.turn.tid s.me.inst e = s.did c n (es ++ [e]) l i th := by
  simp [State.did_eq, State.recordAs, State.entries]

/-- The running thread can make steps on a configured instance whose mutex is free where an access would take it. -/
structure State.Clear (s : State) (c : BusConfig) : Prop where
  fatal : s.fatal = none
  running : s.me.running = true
  hung : s.me.hung = false
  cfg : s.here.cfg = some c
  mutex : s.here.params.lock = .access → s.here.mutex = none
  waiters : s.turn.tid ∉ s.here.waiters

theorem filter_absent {t : Nat} {l : List Nat} (h : t ∉ l) : l.filter (fun u => !decide (u = t)) = l := by
  rw [List.filter_eq_self]
  intro u hu
  simpa using fun e : u = t => h (e ▸ hu)

/-! ### The bursts as the rules spell them -/

theorem sentBytes_eq (p : Params) (c : BusConfig) (images : List PortImage) :
    sentBytes c p.applyMask (images.map (serialize p.layout)) = sent p c images := by
  simp [sentBytes, sent]

theorem writeImages_eq (img : PortImage) (rs : Bool) (v : Byte) (width : Width) :
    writeImages img rs v width = writeBurst img.bl rs v width := by
  cases width <;> rfl

theorem writeBurst_last (bl rs : Bool) (v : Byte) (width : Width) :
    (writeBurst bl rs v width).getLast? = some (writeImage bl rs v width) := by
  cases width <;> rfl

/-- The latch after a burst mirrors its last image. -/
theorem latchAfter_sent {p : Params} {c : BusConfig} {images : List PortImage} {img : PortImage} {st : Status}
    (h : images.getLast? = some img) : latchAfter (sent p c images) st = mirror p c img st := by
  cases st <;> simp [latchAfter, sent, mirror, h]

theorem joinNib_eq (h l : Nib) : joinNib h l = h.setWidth 8 <<< 4 ||| l.setWidth 8 := rfl

/-! ### Whole accesses -/

/-- A write access, whatever its status. -/
theorem State.advance_write {c : BusConfig} {rs : Bool} {v : Byte} {width : Width} {settle : Settle} {rest : List Act}
    {st : Status} (h : s.Clear c) (hs : s.me.seq = .write .acq rs v width settle :: rest)
    (hst : s.statusAt 0 = some st) :
    s.advance 4 = (s.did c 1 (writeEvents s.params c s.img.bl rs v width settle st)
      (mirror s.params c (writeImage s.img.bl rs v width) st) { s.here with img := writeImage s.img.bl rs v width }
      (s.me.ended (.write .rel rs v width settle))).pop := by
  obtain ⟨hf, hr, hh, hc, hm, hw⟩ := h
  have hfil := filter_absent hw
  simp only [State.here_eq] at *
  cases hl : (s.inst s.me.inst).params.lock with
  | access =>
    have hmn := hm hl
    simp [State.advance, State.atomic, hf, hr, hh, hs, State.perform, State.writeStep, State.enterAccess, hl,
      State.acquire, hmn, hfil, State.beginAccess, State.goto, State.holdBl, State.sendImages, State.portWrite, hc, hst,
      State.sleep, State.leaveAccess, State.endAccess, State.release, State.did, State.popXfers_zero, State.popXfers_succ, State.records_nil, State.records_cons,
      Thread.ended, writeEvents, sentBytes_eq, writeImages_eq, writeBurst_last, latchAfter_sent (writeBurst_last ..)]
  | operation =>
    simp [State.advance, State.atomic, hf, hr, hh, hs, State.perform, State.writeStep, State.enterAccess, hl,
      State.beginAccess, State.goto, State.holdBl, State.sendImages, State.portWrite, hc, hst,
      State.sleep, State.leaveAccess, State.endAccess, State.did, State.popXfers_zero, State.popXfers_succ, State.records_nil, State.records_cons,
      Thread.ended, writeEvents, sentBytes_eq, writeImages_eq, writeBurst_last, latchAfter_sent (writeBurst_last ..)]

/-- A one-byte read returns `byteAt`. -/
theorem State.readBytes_one {i : Nat} {data : List Byte} (h : s.xferAt i = .ok data) :
    readBytes (s.env.xferNo + i) data 1 = [s.byteAt i] := by
  cases data <;> simp [readBytes, State.byteAt, State.sampleAt, h]

theorem hiNib_shl (h : Nib) : hiNib (h.setWidth 8 <<< 4) = h := by
  revert h; decide

/-- A read access in 4-bit mode that succeeds. -/
theorem State.advance_read4 {c : BusConfig} {rs : Bool} {rest : List Act} {d1 d2 : List Byte} {st : Status}
    (h : s.Clear c) (hs : s.me.seq = .read .acq rs .four :: rest) (h0 : s.statusAt 0 = some .ok) (h1 : s.xferAt 1 = .ok d1)
    (h2 : s.statusAt 2 = some .ok) (h3 : s.xferAt 3 = .ok d2) (h4 : s.statusAt 4 = some st) :
    s.advance 8 = (s.did c 5 (readEvents s.params c s.img.bl rs (s.byteAt 1) (s.byteAt 3) st .four)
      (mirror s.params c (readImage s.img.bl rs false) st) { s.here with img := readImage s.img.bl rs false } ({ s.me.ended (.read .rel rs .four) with
        st := .ok, r := readValue s.params (s.byteAt 1) (s.byteAt 3) .four })).pop := by
  obtain ⟨hf, hr, hh, hc, hm, hw⟩ := h
  have hfil := filter_absent hw
  have e1 := State.readBytes_one h1
  have e3 := State.readBytes_one h3
  simp only [State.here_eq] at *
  cases hl : (s.inst s.me.inst).params.lock with
  | access =>
    have hmn := hm hl
    cases rs <;> cases st <;> simp [State.advance, State.atomic, hf, hr, hh, hs, State.perform, State.readStep, State.enterAccess, hl,
      State.beginAccess, State.goto, State.holdBl, State.sendImages, State.portWrite, hc, State.portRead,
      h0, h1, h2, h3, h4, e1, e3, State.captured, State.setR, State.setSt, State.sleep, State.leaveAccess, State.endAccess, State.did, State.popXfers_zero, State.popXfers_succ,
      State.records_nil, State.records_cons, Thread.ended, readEvents, readValue, readImage, readSetupImages,
      sent, setupBurst, mirror, sentBytes, readSettle, latchAfter, hiNib_shl, joinNib_eq, State.acquire, hmn, hfil, State.release]
  | operation =>
    cases rs <;> cases st <;> simp [State.advance, State.atomic, hf, hr, hh, hs, State.perform, State.readStep, State.enterAccess, hl,
      State.beginAccess, State.goto, State.holdBl, State.sendImages, State.portWrite, hc, State.portRead,
      h0, h1, h2, h3, h4, e1, e3, State.captured, State.setR, State.setSt, State.sleep, State.leaveAccess, State.endAccess, State.did, State.popXfers_zero, State.popXfers_succ,
      State.records_nil, State.records_cons, Thread.ended, readEvents, readValue, readImage, readSetupImages,
      sent, setupBurst, mirror, sentBytes, readSettle, latchAfter, hiNib_shl, joinNib_eq]

/-- A read access in 8-bit mode that succeeds. -/
theorem State.advance_read8 {c : BusConfig} {rs : Bool} {rest : List Act} {d1 : List Byte} {st : Status}
    (h : s.Clear c) (hs : s.me.seq = .read .acq rs .eight :: rest) (h0 : s.statusAt 0 = some .ok) (h1 : s.xferAt 1 = .ok d1)
    (h2 : s.statusAt 2 = some st) :
    s.advance 6 = (s.did c 3 (readEvents s.params c s.img.bl rs (s.byteAt 1) 0#8 st .eight)
      (mirror s.params c (readImage s.img.bl rs false) st) { s.here with img := readImage s.img.bl rs false } ({ s.me.ended (.read .rel rs .eight) with
        st := .ok, r := readValue s.params (s.byteAt 1) 0#8 .eight })).pop := by
  obtain ⟨hf, hr, hh, hc, hm, hw⟩ := h
  have hfil := filter_absent hw
  have e1 := State.readBytes_one h1
  simp only [State.here_eq] at *
  cases hl : (s.inst s.me.inst).params.lock with
  | access =>
    have hmn := hm hl
    cases rs <;> cases st <;> simp [State.advance, State.atomic, hf, hr, hh, hs, State.perform, State.readStep, State.enterAccess, hl,
      State.beginAccess, State.goto, State.holdBl, State.sendImages, State.portWrite, hc, State.portRead, h0, h1, h2, e1,
      State.captured, State.setR, State.setSt, State.sleep, State.leaveAccess, State.endAccess, State.did, State.popXfers_zero, State.popXfers_succ,
      State.records_nil, State.records_cons, Thread.ended, readEvents, readValue, readImage, readSetupImages,
      sent, setupBurst, mirror, sentBytes, readSettle, latchAfter, joinNib_eq, State.acquire, hmn, hfil, State.release]
  | operation =>
    cases rs <;> cases st <;> simp [State.advance, State.atomic, hf, hr, hh, hs, State.perform, State.readStep, State.enterAccess, hl,
      State.beginAccess, State.goto, State.holdBl, State.sendImages, State.portWrite, hc, State.portRead, h0, h1, h2, e1,
      State.captured, State.setR, State.setSt, State.sleep, State.leaveAccess, State.endAccess, State.did, State.popXfers_zero, State.popXfers_succ,
      State.records_nil, State.records_cons, Thread.ended, readEvents, readValue, readImage, readSetupImages,
      sent, setupBurst, mirror, sentBytes, readSettle, latchAfter, joinNib_eq]

/-- A read access whose required transport call number 0 fails. -/
theorem State.advance_abort0 {c : BusConfig} {rs : Bool} {width : Width} {rest : List Act}
    (h : s.Clear c) (hs : s.me.seq = .read .acq rs width :: rest) (h0 : s.statusAt 0 = some .fail) :
    s.advance 3 = (s.did c 1 (abortEvents s.params c s.img.bl rs 0#8 0) (abortLatch s.params c s.img.bl rs 0)
      { s.here with img := readImage s.img.bl rs true } ({ s.me.ended (.read .abort rs width) with st := .fail })).pop := by
  obtain ⟨hf, hr, hh, hc, hm, hw⟩ := h
  have hfil := filter_absent hw
  simp only [State.here_eq] at *
  cases hl : (s.inst s.me.inst).params.lock with
  | access =>
    have hmn := hm hl
    cases rs <;> simp [State.advance, State.atomic, hf, hr, hh, hs, State.perform, State.readStep, State.enterAccess, hl,
      State.beginAccess, State.goto, State.holdBl, State.sendImages, State.portWrite, hc, h0,
      State.setSt, State.leaveAccess, State.endAccess, State.did, State.popXfers_zero, State.popXfers_succ,
      State.records_nil, State.records_cons, Thread.ended, abortEvents, abortLatch, readImage, readSetupImages,
      sent, setupBurst, sentBytes, latchAfter, State.acquire, hmn, hfil, State.release]
  | operation =>
    cases rs <;> simp [State.advance, State.atomic, hf, hr, hh, hs, State.perform, State.readStep, State.enterAccess, hl,
      State.beginAccess, State.goto, State.holdBl, State.sendImages, State.portWrite, hc, h0,
      State.setSt, State.leaveAccess, State.endAccess, State.did, State.popXfers_zero, State.popXfers_succ,
      State.records_nil, State.records_cons, Thread.ended, abortEvents, abortLatch, readImage, readSetupImages,
      sent, setupBurst, sentBytes, latchAfter]

/-- A read access whose required transport call number 1 fails. -/
theorem State.advance_abort1 {c : BusConfig} {rs : Bool} {width : Width} {rest : List Act}
    (h : s.Clear c) (hs : s.me.seq = .read .acq rs width :: rest) (h0 : s.statusAt 0 = some .ok)
    (h1 : s.xferAt 1 = .fail) :
    s.advance 4 = (s.did c 2 (abortEvents s.params c s.img.bl rs 0#8 1) (abortLatch s.params c s.img.bl rs 1)
      { s.here with img := readImage s.img.bl rs true } ({ s.me.ended (.read .abort rs width) with st := .fail })).pop := by
  obtain ⟨hf, hr, hh, hc, hm, hw⟩ := h
  have hfil := filter_absent hw
  simp only [State.here_eq] at *
  cases hl : (s.inst s.me.inst).params.lock with
  | access =>
    have hmn := hm hl
    cases rs <;> simp [State.advance, State.atomic, hf, hr, hh, hs, State.perform, State.readStep, State.enterAccess, hl,
      State.beginAccess, State.goto, State.holdBl, State.sendImages, State.portWrite, hc, State.portRead, h0, h1,
      State.setSt, State.leaveAccess, State.endAccess, State.did, State.popXfers_zero, State.popXfers_succ,
      State.records_nil, State.records_cons, Thread.ended, abortEvents, abortLatch, readImage, readSetupImages,
      sent, setupBurst, mirror, sentBytes, latchAfter, State.acquire, hmn, hfil, State.release]
  | operation =>
    cases rs <;> simp [State.advance, State.atomic, hf, hr, hh, hs, State.perform, State.readStep, State.enterAccess, hl,
      State.beginAccess, State.goto, State.holdBl, State.sendImages, State.portWrite, hc, State.portRead, h0, h1,
      State.setSt, State.leaveAccess, State.endAccess, State.did, State.popXfers_zero, State.popXfers_succ,
      State.records_nil, State.records_cons, Thread.ended, abortEvents, abortLatch, readImage, readSetupImages,
      sent, setupBurst, mirror, sentBytes, latchAfter]

/-- A read access whose required transport call number 2 fails. -/
theorem State.advance_abort2 {c : BusConfig} {rs : Bool} {rest : List Act} {d1 : List Byte}
    (h : s.Clear c) (hs : s.me.seq = .read .acq rs .four :: rest) (h0 : s.statusAt 0 = some .ok) (h1 : s.xferAt 1 = .ok d1)
    (h2 : s.statusAt 2 = some .fail) :
    s.advance 5 = (s.did c 3 (abortEvents s.params c s.img.bl rs (s.byteAt 1) 2) (abortLatch s.params c s.img.bl rs 2)
      { s.here with img := readImage s.img.bl rs true } ({ s.me.ended (.read .abort rs .four) with
        st := .fail, r := joinNib (dtOf s.params.layout (s.byteAt 1)) 0#4 })).pop := by
  obtain ⟨hf, hr, hh, hc, hm, hw⟩ := h
  have hfil := filter_absent hw
  have e1 := State.readBytes_one h1
  simp only [State.here_eq] at *
  cases hl : (s.inst s.me.inst).params.lock with
  | access =>
    have hmn := hm hl
    cases rs <;> simp [State.advance, State.atomic, hf, hr, hh, hs, State.perform, State.readStep, State.enterAccess, hl,
      State.beginAccess, State.goto, State.holdBl, State.sendImages, State.portWrite, hc, State.portRead, h0, h1, h2, e1,
      State.captured, State.setR, State.setSt, State.leaveAccess, State.endAccess, State.did, State.popXfers_zero, State.popXfers_succ,
      State.records_nil, State.records_cons, Thread.ended, abortEvents, abortLatch, readImage, readSetupImages,
      sent, setupBurst, sentBytes, latchAfter, State.acquire, hmn, hfil, State.release]
  | operation =>
    cases rs <;> simp [State.advance, State.atomic, hf, hr, hh, hs, State.perform, State.readStep, State.enterAccess, hl,
      State.beginAccess, State.goto, State.holdBl, State.sendImages, State.portWrite, hc, State.portRead, h0, h1, h2, e1,
      State.captured, State.setR, State.setSt, State.leaveAccess, State.endAccess, State.did, State.popXfers_zero, State.popXfers_succ,
      State.records_nil, State.records_cons, Thread.ended, abortEvents, abortLatch, readImage, readSetupImages,
      sent, setupBurst, sentBytes, latchAfter]

/-- A read access whose required transport call number 3 fails. -/
theorem State.advance_abort3 {c : BusConfig} {rs : Bool} {rest : List Act} {d1 : List Byte}
    (h : s.Clear c) (hs : s.me.seq = .read .acq rs .four :: rest) (h0 : s.statusAt 0 = some .ok) (h1 : s.xferAt 1 = .ok d1)
    (h2 : s.statusAt 2 = some .ok) (h3 : s.xferAt 3 = .fail) :
    s.advance 6 = (s.did c 4 (abortEvents s.params c s.img.bl rs (s.byteAt 1) 3) (abortLatch s.params c s.img.bl rs 3)
      { s.here with img := readImage s.img.bl rs true } ({ s.me.ended (.read .abort rs .four) with
        st := .fail, r := joinNib (dtOf s.params.layout (s.byteAt 1)) 0#4 })).pop := by
  obtain ⟨hf, hr, hh, hc, hm, hw⟩ := h
  have hfil := filter_absent hw
  have e1 := State.readBytes_one h1
  simp only [State.here_eq] at *
  cases hl : (s.inst s.me.inst).params.lock with
  | access =>
    have hmn := hm hl
    cases rs <;> simp [State.advance, State.atomic, hf, hr, hh, hs, State.perform, State.readStep, State.enterAccess, hl,
      State.beginAccess, State.goto, State.holdBl, State.sendImages, State.portWrite, hc, State.portRead, h0, h1, h2, h3, e1,
      State.captured, State.setR, State.setSt, State.leaveAccess, State.endAccess, State.did, State.popXfers_zero, State.popXfers_succ,
      State.records_nil, State.records_cons, Thread.ended, abortEvents, abortLatch, readImage, readSetupImages,
      sent, setupBurst, mirror, sentBytes, latchAfter, State.acquire, hmn, hfil, State.release]
  | operation =>
    cases rs <;> simp [State.advance, State.atomic, hf, hr, hh, hs, State.perform, State.readStep, State.enterAccess, hl,
      State.beginAccess, State.goto, State.holdBl, State.sendImages, State.portWrite, hc, State.portRead, h0, h1, h2, h3, e1,
      State.captured, State.setR, State.setSt, State.leaveAccess, State.endAccess, State.did, State.popXfers_zero, State.popXfers_succ,
      State.records_nil, State.records_cons, Thread.ended, abortEvents, abortLatch, readImage, readSetupImages,
      sent, setupBurst, mirror, sentBytes, latchAfter]

/-- A transfer that answers OK or FAIL, as the answer it is. -/
theorem State.xferAt_ok {j : Nat} (h : s.statusAt j = some .ok) : ∃ data, s.xferAt j = .ok data := by
  unfold State.statusAt at h
  cases hx : s.xferAt j <;> simp [hx, xferStatus] at h
  exact ⟨_, rfl⟩

theorem State.xferAt_fail {j : Nat} (h : s.statusAt j = some .fail) : s.xferAt j = .fail := by
  unfold State.statusAt at h
  cases hx : s.xferAt j <;> simp [hx, xferStatus] at h
  rfl

/-- The atomic steps of a read access that succeeds. -/
def readSteps : Width → Nat
  | .four => 8
  | .eight => 6

/-- A read access that succeeds, in either width. -/
theorem State.advance_read {c : BusConfig} {rs : Bool} {width : Width} {rest : List Act} {si : Status} (h : s.Clear c)
    (hs : s.me.seq = .read .acq rs width :: rest) (hr : s.reads 0 width si) :
    s.advance (readSteps width) = (s.did c (readCalls width + 1)
      (readEvents s.params c s.img.bl rs (s.byteAt 1) (s.byteAt 3) si width)
      (mirror s.params c (readImage s.img.bl rs false) si) { s.here with img := readImage s.img.bl rs false }
      { s.me.ended (.read .rel rs width) with
        st := .ok, r := readValue s.params (s.byteAt 1) (s.byteAt 3) width }).pop := by
  obtain ⟨hr, hl⟩ := hr
  simp only [Nat.zero_add] at hr hl
  cases width with
  | four =>
    obtain ⟨d1, h1⟩ := State.xferAt_ok (hr 1 (by decide))
    obtain ⟨d3, h3⟩ := State.xferAt_ok (hr 3 (by decide))
    exact State.advance_read4 h hs (hr 0 (by decide)) h1 (hr 2 (by decide)) h3 hl
  | eight =>
    obtain ⟨d1, h1⟩ := State.xferAt_ok (hr 1 (by decide))
    exact State.advance_read8 h hs (hr 0 (by decide)) h1 hl

/-- A read access that aborts, in either width. -/
theorem State.advance_abort {c : BusConfig} {rs : Bool} {width : Width} {rest : List Act} {k : Nat} (h : s.Clear c)
    (hs : s.me.seq = .read .acq rs width :: rest) (hk : s.failsAt 0 width k) :
    ∃ r, s.advance (k + 3) = (s.did c (k + 1) (abortEvents s.params c s.img.bl rs (s.byteAt 1) k)
      (abortLatch s.params c s.img.bl rs k) { s.here with img := readImage s.img.bl rs true }
      { s.me.ended (.read .abort rs width) with st := .fail, r := r }).pop := by
  obtain ⟨hlt, hr, hl⟩ := hk
  simp only [Nat.zero_add] at hr hl
  match k, hlt with
  | 0, _ => exact ⟨s.me.r, State.advance_abort0 h hs hl⟩
  | 1, _ => exact ⟨s.me.r, State.advance_abort1 h hs (hr 0 (by decide)) (State.xferAt_fail hl)⟩
  | 2, hlt =>
    cases width with
    | eight => exact absurd hlt (by decide)
    | four =>
      obtain ⟨d1, h1⟩ := State.xferAt_ok (hr 1 (by decide))
      exact ⟨_, State.advance_abort2 h hs (hr 0 (by decide)) h1 hl⟩
  | 3, hlt =>
    cases width with
    | eight => exact absurd hlt (by decide)
    | four =>
      obtain ⟨d1, h1⟩ := State.xferAt_ok (hr 1 (by decide))
      exact ⟨_, State.advance_abort3 h hs (hr 0 (by decide)) h1 (hr 2 (by decide)) (State.xferAt_fail hl)⟩
  | k + 4, hlt => cases width <;> simp [readCalls] at hlt

/-! ### From the beginning of a call to its return -/

/-- The thread's record when its call returns. -/
def Thread.finished (th : Thread) : Thread := { th.atRest with rets := th.rets ++ [retValue th.ret th.st th.r] }

theorem State.pop_last (h : s.me.seq.tail = []) : s.pop = s.setMe s.me.finished := by
  simp only [State.pop, h]; rfl

theorem State.pop_more {a : Act} {rest : List Act} (h : s.me.seq.tail = a :: rest) :
    s.pop = s.setMe { s.me with seq := a :: rest } := by
  simp only [State.pop, h]

/-- The next access of the call can begin. -/
theorem State.Clear.did {c' : BusConfig} (h : s.Clear c') (hi : th.inst = s.me.inst) (hr : th.running = true)
    (hh : th.hung = false) (hc : i.cfg = some c') (hm : i.params.lock = .access → i.mutex = none)
    (hw : i.waiters = s.here.waiters) : (s.did c n es l i th).Clear c' := by
  have he : (s.did c n es l i th).here = i := by simp [hi]
  exact ⟨by simpa using h.fatal, by simpa using hr, by simpa using hh, by rw [he, hc], by rw [he]; exact hm, by
    rw [he, hw]; exact h.waiters⟩

/-- A thread that is in no call stays as it is. -/
theorem State.advance_idle (h : s.me.running = false) (k : Nat) : s.advance k = s :=
  State.advance_fixed (State.atomic_idle s h) k

@[simp] theorem State.me_begin (acts : List Act) (ret : RetKind) :
    (s.begin acts ret).me = { s.me.atRest with running := true, seq := acts, ret := ret } := State.me_setMe ..
theorem State.seq_begin (acts : List Act) (ret : RetKind) : (s.begin acts ret).me.seq = acts := by simp
@[simp] theorem State.inst_begin (acts : List Act) (ret : RetKind) (k : Nat) : (s.begin acts ret).inst k = s.inst k := rfl
@[simp] theorem State.turn_begin (acts : List Act) (ret : RetKind) : (s.begin acts ret).turn = s.turn := rfl
@[simp] theorem State.fatal_begin (acts : List Act) (ret : RetKind) : (s.begin acts ret).fatal = s.fatal := rfl
@[simp] theorem State.xferAt_begin (acts : List Act) (ret : RetKind) (j : Nat) :
    (s.begin acts ret).xferAt j = s.xferAt j := rfl
@[simp] theorem State.statusAt_begin (acts : List Act) (ret : RetKind) (j : Nat) :
    (s.begin acts ret).statusAt j = s.statusAt j := rfl
@[simp] theorem State.byteAt_begin (acts : List Act) (ret : RetKind) (j : Nat) :
    (s.begin acts ret).byteAt j = s.byteAt j := rfl
@[simp] theorem State.did_begin (acts : List Act) (ret : RetKind) :
    (s.begin acts ret).did c n es l i th = s.did c n es l i th := State.did_setMe rfl

/-- A stretch that ends its call. -/
theorem State.pop_did_last (h : th.seq.tail = []) : (s.did c n es l i th).pop = s.did c n es l i th.finished := by
  rw [State.pop_last (by simpa using h)]; simp

/-- A stretch that does not. -/
theorem State.pop_did_more {a : Act} {rest : List Act} (h : th.seq.tail = a :: rest) :
    (s.did c n es l i th).pop = s.did c n es l i { th with seq := a :: rest } := by
  rw [State.pop_more (a := a) (rest := rest) (by simpa using h)]; simp

/-- A direct call: `begin` and nothing else. -/
theorem State.Bound.clear (h : s.Bound c) (hm : s.accessFree) (acts : List Act) (ret : RetKind) :
    (s.begin acts ret).Clear c := by
  obtain ⟨⟨hf, hh, hl, hw⟩, hc⟩ := h
  exact ⟨hf, by simp [State.begin], by simpa [State.begin] using hh, by simpa [State.begin] using hc,
    fun hl => by simpa [State.begin] using hm (by simpa [State.begin] using hl), by simpa [State.begin] using hw⟩

/-- What beginning an operation needs, whatever the lifecycle marker. -/
structure State.Starting (s : State) (c : BusConfig) : Prop where
  fatal : s.fatal = none
  hung : s.me.hung = false
  waiters : s.turn.tid ∉ s.here.waiters
  cfg : s.here.cfg = some c
  mutex : s.here.mutex = none

theorem State.Free.starting (h : s.Free c) : s.Starting c := ⟨h.fatal, h.hung, h.waiters, h.cfg, h.mutex⟩

/-- The instance of an operation in progress: under OPERATION its mutex is the thread's. -/
def State.heldHere (s : State) : Instance :=
  match s.here.params.lock with
  | .access => s.here
  | .operation => { s.here with mutex := some s.turn.tid }

@[simp] theorem State.heldHere_img : s.heldHere.img = s.img := by
  simp only [State.heldHere]; cases s.here.params.lock <;> rfl
@[simp] theorem State.heldHere_params : s.heldHere.params = s.params := by
  simp only [State.heldHere]; cases s.here.params.lock <;> rfl
@[simp] theorem State.heldHere_cfg : s.heldHere.cfg = s.here.cfg := by
  simp only [State.heldHere]; cases s.here.params.lock <;> rfl

/-- An operation past its `Acquire`. -/
def State.entered (s : State) (acts : List Act) (ret : RetKind) : State :=
  (match s.here.params.lock with
    | .access => s
    | .operation => s.setInst s.me.inst { s.here with mutex := some s.turn.tid }).setMe
    { s.me.atRest with running := true, seq := acts, ret := ret }

theorem State.advance_opAcq {a : Act} {acts : List Act} {ret : RetKind} (h : s.Starting c) :
    (s.begin (.opAcq :: a :: acts) ret).advance 1 = s.entered (a :: acts) ret := by
  obtain ⟨hf, hh, hw, hc, hm⟩ := h
  have hfil := filter_absent hw
  simp only [State.here_eq] at *
  cases hk : (s.inst s.me.inst).params.lock <;>
    simp [State.advance, State.atomic, State.begin, hf, hh, State.perform, State.pop, hk, State.acquire, hm, hfil,
      State.entered]

@[simp] theorem State.me_entered (acts : List Act) (ret : RetKind) :
    (s.entered acts ret).me = { s.me.atRest with running := true, seq := acts, ret := ret } := by
  simp [State.entered]

theorem State.seq_entered (acts : List Act) (ret : RetKind) : (s.entered acts ret).me.seq = acts := by simp

@[simp] theorem State.here_entered (acts : List Act) (ret : RetKind) :
    (s.entered acts ret).inst s.me.inst = s.heldHere := by
  simp only [State.entered, State.heldHere, State.here_eq]
  cases (s.inst s.me.inst).params.lock <;> simp

@[simp] theorem State.statusAt_entered (acts : List Act) (ret : RetKind) (j : Nat) :
    (s.entered acts ret).statusAt j = s.statusAt j := by
  simp only [State.entered, State.here_eq]
  cases (s.inst s.me.inst).params.lock <;> simp

@[simp] theorem State.xferAt_entered (acts : List Act) (ret : RetKind) (j : Nat) :
    (s.entered acts ret).xferAt j = s.xferAt j := by
  simp only [State.entered, State.here_eq]
  cases (s.inst s.me.inst).params.lock <;> simp

@[simp] theorem State.turn_entered (acts : List Act) (ret : RetKind) : (s.entered acts ret).turn = s.turn := by
  simp only [State.entered, State.here_eq]
  cases (s.inst s.me.inst).params.lock <;> simp

@[simp] theorem State.byteAt_entered (acts : List Act) (ret : RetKind) (j : Nat) :
    (s.entered acts ret).byteAt j = s.byteAt j := by
  have : (s.entered acts ret).env = s.env := by
    simp only [State.entered, State.here_eq]
    cases (s.inst s.me.inst).params.lock <;> simp
  simp [State.byteAt, State.sampleAt, this]

@[simp] theorem State.did_entered (acts : List Act) (ret : RetKind) :
    (s.entered acts ret).did c n es l i th = s.did c n es l i th := by
  simp only [State.entered, State.here_eq]
  cases (s.inst s.me.inst).params.lock with
  | access => exact State.did_setMe rfl
  | operation => exact (State.did_setMe (by rfl)).trans (State.did_setInst _)

theorem State.Starting.clear_entered (h : s.Starting c) (acts : List Act) (ret : RetKind) : (s.entered acts ret).Clear c := by
  obtain ⟨hf, hh, hw, hc, hm⟩ := h
  have he : (s.entered acts ret).here = s.heldHere := by simp
  refine ⟨?_, by simp, by simpa using hh, ?_, ?_, ?_⟩
  · simp only [State.entered, State.here_eq]
    cases (s.inst s.me.inst).params.lock <;> simpa using hf
  all_goals
    rw [he]
    simp only [State.heldHere, State.here_eq] at *
    cases hk : (s.inst s.me.inst).params.lock <;> simp [*]

/-- The last act of an operation, when its instance is as `did` left it. -/
theorem State.advance_opRel (hf : s.fatal = none) (hr : th.running = true) (hh : th.hung = false)
    (hi : th.inst = s.me.inst) (hs : th.seq = [.opRel])
    (hm : i.params.lock = .access → i.mutex = none) :
    (s.did c n es l i th).advance 1 = s.did c n es l { i with mutex := none } th.finished := by
  have he : i.params.lock = .access → i = { i with mutex := none } := by
    intro hk; rw [← hm hk]
  cases hk : i.params.lock with
  | access =>
    rw [← he hk]
    simp [State.advance, State.atomic, hf, hr, hh, hs, hi, State.perform, hk, State.pop_last]
  | operation =>
    simp [State.advance, State.atomic, hf, hr, hh, hs, hi, State.perform, hk, State.release, State.pop_last]

/-- With no overlap there is nothing to mark. -/
theorem State.markRace_none (h : s.overlapImages = []) : s.markRace = s := by
  have hm : ∀ e ∈ s.threads, ¬(e.1 ≠ s.turn.tid ∧ e.2.inAccess s.me.inst = true) := by
    intro e he hc
    have hmem : e ∈ s.threads.filter fun e => decide (e.1 ≠ s.turn.tid) && e.2.inAccess s.me.inst := by
      simp [he, hc.1, hc.2]
    simp only [State.overlapImages, List.flatMap_eq_nil_iff] at h
    simpa [Thread.overlapImages] using h e hmem
  have : s.threads.map (fun e => if e.1 ≠ s.turn.tid ∧ e.2.inAccess s.me.inst = true then
      (e.1, { e.2 with race := true }) else e) = s.threads := by
    conv_rhs => rw [← List.map_id s.threads]
    exact List.map_congr_left fun e he => by rw [if_neg (hm e he)]; rfl
  simp only [State.markRace, this]

theorem State.pop_setMe_me : (s.setMe s.me).pop = s.pop := by
  cases h : s.me.seq.tail <;> simp [State.pop, h, State.finish]

/-- A backlight write that overlaps nothing: one transfer, its status discarded. -/
theorem State.blWriteStep_done {on : Bool} {st : Status} (ho : s.noOverlap) (hc : s.here.cfg = some c)
    (hst : s.statusAt 0 = some st) :
    s.blWriteStep on = (s.did c 1 [.wr c.dev (sent s.params c [{ s.img with bl := on }]) st]
      (mirror s.params c { s.img with bl := on } st) { s.here with img := { s.img with bl := on } } s.me).pop := by
  have ho' : s.overlapImages = [] := ho
  have hb : s.blBase = s.img := by simp only [State.blBase, ho']
  simp only [State.here_eq] at *
  simp only [State.blWriteStep, hb, ho', List.isEmpty_nil, if_true, State.markRace_none ho', ite_self]
  rw [State.portWrite_done _ (c := c) (st := st) (by simpa using hc) (by simpa using hst)]
  rw [← State.pop_setMe_me]
  cases st <;>
    simp [State.did, State.popXfers_zero, State.popXfers_succ, State.records_nil, State.records_cons, sent, mirror,
      sentBytes, latchAfter]

/-- No overlap, thread by thread. -/
theorem State.noOverlap_iff :
    s.noOverlap ↔ ∀ e ∈ s.threads, e.1 ≠ s.turn.tid → e.2.inAccess s.me.inst = false := by
  simp only [State.noOverlap, State.overlapImages, List.flatMap_eq_nil_iff, List.mem_filter, Thread.overlapImages,
    List.cons_append]
  constructor
  · intro h e he hn
    have h' := h e
    simp only [reduceCtorEq, imp_false, not_and, Bool.and_eq_true, decide_eq_true_eq, Bool.not_eq_true] at h'
    exact h' he hn
  · intro h e he
    have h1 := h e he.1
    have h2 := he.2
    simp only [Bool.and_eq_true, decide_eq_true_eq] at h2
    rw [h1 h2.1] at h2
    simp at h2

theorem Sparse.mem_set_other {α : Type} [DecidableEq α] {d v : α} {m : Sparse α} {k : Nat} {e : Nat × α}
    (he : e ∈ Sparse.set d m k v) (hk : e.1 ≠ k) : e ∈ m := by
  unfold Sparse.set at he
  split at he
  · exact (List.mem_filter.1 he).1
  · rcases Sparse.mem_insert he with h | h
    · exact absurd (by simp [h]) hk
    · exact (List.mem_filter.1 h).1

/-- What a call does itself makes no overlap. -/
theorem State.noOverlap_did (h : s.noOverlap) (hi : th.inst = s.me.inst) : (s.did c n es l i th).noOverlap := by
  rw [State.noOverlap_iff] at *
  intro e he hn
  rw [State.me_did, hi]
  exact h e (Sparse.mem_set_other he hn) hn

theorem State.noOverlap_setMe {v : Thread} (h : s.noOverlap) (hi : v.inst = s.me.inst) : (s.setMe v).noOverlap := by
  rw [State.noOverlap_iff] at *
  intro e he hn
  rw [State.me_setMe, hi]
  exact h e (Sparse.mem_set_other he hn) hn

theorem deviceKey_inj {d e : Device} (h : deviceKey d = deviceKey e) : d = e := by
  obtain ⟨a, b⟩ := d
  obtain ⟨a', b'⟩ := e
  simp only [deviceKey] at h
  have h1 : b.toNat < 128 := b.isLt
  have h2 : b'.toNat < 128 := b'.isLt
  obtain rfl : a = a' := by omega
  obtain rfl : b = b' := BitVec.eq_of_toNat_eq (by omega)
  rfl

/-- What a call that returned did, in the terms the claims use. -/
theorem Did.of_did {ret : RetVal} (h : th = { s.me.atRest with rets := s.me.rets ++ [ret] }) :
    Did s (s.did c n es l i th) c i es l ret where
  inst := by simp
  trace := rfl
  latch := by simp [State.latchOf_did]
  me := by simp [h]
  insts k hk := by simp [State.inst_did, hk]
  threads j hj := by simp [State.thread_did, hj]
  latches d hd := by rw [State.latchOf_did, if_neg fun e => hd (deviceKey_inj e)]
  mem _ := rfl
  fatal := rfl
  turn := rfl
  turns := rfl

/-- A bare burst, in either lock mode. -/
theorem State.advance_burst {images : List PortImage} {img : PortImage} {st : Status} (h : s.Clear c)
    (hm : s.here.mutex = none) (hs : s.me.seq = [.burst .acq images]) (hi : images.getLast? = some img)
    (hst : s.statusAt 0 = some st) :
    s.advance 3 = s.did c 1 [.wr c.dev (sent s.params c images) st] (mirror s.params c img st)
      { s.here with img := img, mutex := none } { s.me with st := st }.finished := by
  obtain ⟨hf, hr, hh, hc, _, hw⟩ := h
  have hfil := filter_absent hw
  simp only [State.here_eq] at *
  simp [State.advance, State.atomic, hf, hr, hh, hs, State.perform, State.burstStep, State.acquire, hm, hfil,
    State.beginAccess, State.goto, State.sendImages, State.portWrite, hc, hst, State.setSt, State.endAccess,
    State.holdBl, State.release, State.pop_last, State.did, State.popXfers_zero, State.popXfers_succ,
    State.records_nil, State.records_cons, Thread.finished, Thread.atRest, sentBytes_eq, latchAfter_sent hi, hi]

/-- The byte of a text or pattern is read, and its data write follows. -/
theorem State.advance_load {src : Buffer} {k : Nat} {rest : List Act} (hf : s.fatal = none)
    (hr : s.me.running = true) (hh : s.me.hung = false) (hs : s.me.seq = .load src k :: rest) :
    s.advance 1 = (if k < src.size then s else s.popFree).setMe
      { s.me with seq := .write .acq true (s.loadByte src k) .four .short :: rest } := by
  by_cases hk : k < src.size <;>
    simp [State.advance, State.atomic, hf, hr, hh, hs, State.perform, State.goto, hk]

end Sys2Proof.Machine
end

