-- ==== Sys2Proof/Laws/Calls.lean ====
section
/-! SUPPORT. The beginning of each shape of call past its guards, and the rest of a turn after the call has returned. -/

namespace Sys2Proof.Machine

variable {s : State} {c : BusConfig}

theorem State.CanCall.race (h : s.CanCall) : s.raceGuard false = none := by
  have := h.lcBusy
  simp only [State.here_eq] at this
  simp [State.raceGuard, this]

theorem State.CanCall.race_lifecycle (h : s.CanCall) (ho : s.otherInside s.me.inst = false) :
    s.raceGuard true = none := by
  have := h.lcBusy
  simp only [State.here_eq] at this
  simp [State.raceGuard, this, ho]

theorem State.Bound.config (h : s.Bound c) : s.configGuard = none := by
  have := h.cfg
  simp only [State.here_eq] at this
  simp [State.configGuard, this]

/-- A direct call with a configuration begins. -/
theorem State.Bound.engineCall (h : s.Bound c) (ret : RetKind) (acts : List Act) :
    s.engineCall ret acts = .next ((s.begin acts ret).advance s.turn.steps) := by
  simp [State.engineCall, State.call, h.toCanCall.race, h.config]

/-- An operation begins in READY. -/
theorem State.CanCall.operation (h : s.CanCall) (hr : s.here.life = .ready) (ret : RetKind) (acts : List Act) :
    s.operation ret acts = .next ((s.begin (.opAcq :: acts ++ [.opRel]) ret).advance s.turn.steps) := by
  simp only [State.here_eq] at hr
  simp [State.operation, State.call, h.race, State.readyGuard, hr]

/-- Once the call has returned, the rest of the turn does nothing. -/
theorem State.advance_done {n k : Nat} (h : n ≤ k) (hr : (s.advance n).me.running = false) :
    s.advance k = s.advance n := by
  obtain ⟨j, rfl⟩ := Nat.exists_eq_add_of_le h
  rw [State.advance_add, State.advance_idle hr]

/-- An operation from its beginning to its return, from what its accesses do between `Acquire` and `Release`. -/
theorem State.Free.operation_done {m n : Nat} {es : List EventBody} {l : Option Byte} {i : Instance} {th : Thread}
    {a : Act} {acts : List Act} {ret : RetKind} (h : s.Free c)
    (hs : (s.entered (a :: acts ++ [.opRel]) ret).advance n = s.did c m es l i th)
    (img : PortImage) (he : i = { s.heldHere with img := img })
    (hr : th.running = true) (hh : th.hung = false) (hi : th.inst = s.me.inst) (hq : th.seq = [.opRel]) :
    (s.begin (.opAcq :: (a :: acts) ++ [.opRel]) ret).advance (1 + (n + 1)) =
      s.did c m es l { s.here with img := img } th.finished := by
  have hm := h.mutex
  simp only [State.here_eq] at hm
  subst he
  rw [State.advance_add, List.cons_append, List.cons_append, State.advance_opAcq h.starting, State.advance_add,
    ← List.cons_append, hs, State.advance_opRel h.fatal hr hh hi hq]
  · congr 1
    simp only [State.heldHere, State.here_eq]
    cases (s.inst s.me.inst).params.lock <;> simp [hm]
  · simp only [State.heldHere, State.here_eq]
    cases hk : (s.inst s.me.inst).params.lock <;> simp [hm, hk]

/-- A call in progress with these records can take its next access. -/
structure State.Going (s : State) (c : BusConfig) (i : Instance) (th : Thread) : Prop where
  fatal : s.fatal = none
  running : th.running = true
  hung : th.hung = false
  inst : th.inst = s.me.inst
  cfg : i.cfg = some c
  mutex : i.params.lock = .access → i.mutex = none
  waiters : s.turn.tid ∉ i.waiters

variable {i : Instance} {th : Thread} {n : Nat} {es : List EventBody} {l : Option Byte}

theorem State.Going.clear (h : s.Going c i th) : (s.did c n es l i th).Clear c := by
  have he : (s.did c n es l i th).here = i := by simp [h.inst]
  exact ⟨h.fatal, by simpa using h.running, by simpa using h.hung, by rw [he, h.cfg], by rw [he]; exact h.mutex,
    by rw [he]; exact h.waiters⟩

/-- The image and the thread's own fields do not matter to going on. -/
theorem State.Going.next (h : s.Going c i th) (img : PortImage) {th' : Thread} (hr : th'.running = th.running)
    (hh : th'.hung = th.hung) (hi : th'.inst = th.inst) : s.Going c { i with img := img } th' :=
  ⟨h.fatal, hr.trans h.running, hh.trans h.hung, hi.trans h.inst, h.cfg, h.mutex, h.waiters⟩

/-- One more write access of a call in progress, with more to come. -/
theorem State.did_write {rs : Bool} {v : Byte} {width : Width} {settle : Settle} {a : Act} {rest : List Act}
    {st : Status} (h : s.Going c i th) (hs : th.seq = .write .acq rs v width settle :: a :: rest)
    (hst : s.statusAt n = some st) :
    (s.did c n es l i th).advance 4 =
      s.did c (n + 1) (es ++ writeEvents i.params c i.img.bl rs v width settle st)
        (mirror i.params c (writeImage i.img.bl rs v width) st) { i with img := writeImage i.img.bl rs v width }
        { th with seq := a :: rest, before := blankImage, queued := [], race := false, q := [] } := by
  have hi := h.inst
  have := State.advance_write (h.clear (n := n) (es := es) (l := l)) (by simpa using hs) (by simpa using hst)
  rw [this, State.did_did (by simpa [Thread.ended] using hi)]
  rw [State.pop_did_more (a := a) (rest := rest) (by simp [Thread.ended, hs])]
  simp [Thread.ended, hi]

/-- One more wait. -/
theorem State.did_sleep {us : Nat} {a : Act} {rest : List Act} (h : s.Going c i th) (hs : th.seq = .sleep us :: a :: rest) :
    (s.did c n es l i th).advance 1 = s.did c n (es ++ [.sleep us]) l i { th with seq := a :: rest } := by
  have hi := h.inst
  have hf : s.fatal = none := h.fatal
  rw [State.advance_succ, State.advance_zero, State.atomic_head _ (a := .sleep us) (rest := a :: rest) (by simpa using hf)
    (by simpa using h.running) (by simpa using h.hung) (by simpa using hs)]
  simp only [State.perform, State.sleep, State.record_eq, State.me_did, hi, State.turn_did, State.record_did]
  rw [State.pop_did_more (a := a) (rest := rest) (by rw [hs]; rfl), hi]

theorem State.reads_did {m : Nat} {width : Width} {si : Status} :
    (s.did c n es l i th).reads m width si ↔ s.reads (n + m) width si := by
  simp [State.reads, Nat.add_assoc]

theorem State.failsAt_did {m k : Nat} {width : Width} :
    (s.did c n es l i th).failsAt m width k ↔ s.failsAt (n + m) width k := by
  simp [State.failsAt, Nat.add_assoc]

/-- One more read access that succeeds. -/
theorem State.did_read {rs : Bool} {width : Width} {a : Act} {rest : List Act} {si : Status} (h : s.Going c i th)
    (hs : th.seq = .read .acq rs width :: a :: rest) (hr : s.reads n width si) :
    (s.did c n es l i th).advance (readSteps width) =
      s.did c (n + (readCalls width + 1))
        (es ++ readEvents i.params c i.img.bl rs (s.byteAt (n + 1)) (s.byteAt (n + 3)) si width)
        (mirror i.params c (readImage i.img.bl rs false) si) { i with img := readImage i.img.bl rs false }
        { th with
          seq := a :: rest, before := blankImage, queued := [], race := false, q := [], st := .ok,
          r := readValue i.params (s.byteAt (n + 1)) (s.byteAt (n + 3)) width } := by
  have hi := h.inst
  have := State.advance_read (h.clear (n := n) (es := es) (l := l)) (by simpa using hs) (State.reads_did.2 hr)
  rw [this, State.did_did (by simpa [Thread.ended] using hi)]
  rw [State.pop_did_more (a := a) (rest := rest) (by simp [Thread.ended, hs])]
  simp [Thread.ended, hi]

/-- One more read access that aborts. -/
theorem State.did_abort {rs : Bool} {width : Width} {a : Act} {rest : List Act} {k : Nat} (h : s.Going c i th)
    (hs : th.seq = .read .acq rs width :: a :: rest) (hk : s.failsAt n width k) :
    ∃ r, (s.did c n es l i th).advance (k + 3) =
      s.did c (n + (k + 1)) (es ++ abortEvents i.params c i.img.bl rs (s.byteAt (n + 1)) k)
        (abortLatch i.params c i.img.bl rs k) { i with img := readImage i.img.bl rs true }
        { th with seq := a :: rest, before := blankImage, queued := [], race := false, q := [], st := .fail, r := r } := by
  have hi := h.inst
  obtain ⟨r, this⟩ := State.advance_abort (h.clear (n := n) (es := es) (l := l)) (by simpa using hs)
    (State.failsAt_did.2 hk)
  refine ⟨r, ?_⟩
  rw [this, State.did_did (by simpa [Thread.ended] using hi)]
  rw [State.pop_did_more (a := a) (rest := rest) (by simp [Thread.ended, hs])]
  simp [Thread.ended, hi]

/-- A turn cut into stretches. -/
theorem State.advance_sum (ns : List Nat) (s : State) :
    s.advance ns.sum = ns.foldl (fun s n => State.advance n s) s := by
  induction ns generalizing s with
  | nil => rfl
  | cons n ns ih => rw [List.sum_cons, State.advance_add, ih]; rfl

/-- `Release` of an operation, with more to come. -/
theorem State.did_opRel {a : Act} {rest : List Act} (h : s.Going c i th) (hs : th.seq = .opRel :: a :: rest) :
    (s.did c n es l i th).advance 1 = s.did c n es l { i with mutex := none } { th with seq := a :: rest } := by
  have hi := h.inst
  rw [State.advance_succ, State.advance_zero, State.atomic_head _ (a := .opRel) (rest := a :: rest)
    (by simpa using h.fatal) (by simpa using h.running) (by simpa using h.hung) (by simpa using hs)]
  have he : i.params.lock = .access → i = { i with mutex := none } := by
    intro hk; rw [← h.mutex hk]
  cases hk : i.params.lock with
  | access =>
    rw [← he hk]
    simp only [State.perform, State.params_eq, State.me_did, hi, State.inst_did_same, hk]
    rw [State.pop_did_more (a := a) (rest := rest) (by rw [hs]; rfl), hi]
  | operation =>
    simp only [State.perform, State.params_eq, State.me_did, hi, State.inst_did_same, hk, State.release,
      State.setHere_eq, State.here_eq, State.setInst_did]
    rw [State.pop_did_more (a := a) (rest := rest) (by rw [hs]; rfl), hi]

/-- The end of `start`. -/
theorem State.did_setReady (h : s.Going c i th) (hs : th.seq = [.setReady]) :
    (s.did c n es l i th).advance 1 = s.did c n es l { i with life := .ready, lcBusy := none } th.finished := by
  have hi := h.inst
  rw [State.advance_succ, State.advance_zero, State.atomic_head _ (a := .setReady) (rest := [])
    (by simpa using h.fatal) (by simpa using h.running) (by simpa using h.hung) (by simpa using hs)]
  simp only [State.perform, State.me_did, hi, State.inst_did_same, State.setHere_eq, State.here_eq,
    State.setInst_did]
  rw [State.pop_did_last (by rw [hs]; rfl)]

/-- The end of `stop`. -/
theorem State.did_setStop (h : s.Going c i th) (hs : th.seq = [.setStop]) :
    (s.did c n es l i th).advance 1 = s.did c n es l { i with life := .stop, lcBusy := none } th.finished := by
  have hi := h.inst
  rw [State.advance_succ, State.advance_zero, State.atomic_head _ (a := .setStop) (rest := [])
    (by simpa using h.fatal) (by simpa using h.running) (by simpa using h.hung) (by simpa using hs)]
  simp only [State.perform, State.me_did, hi, State.inst_did_same, State.setHere_eq, State.here_eq,
    State.setInst_did]
  rw [State.pop_did_last (by rw [hs]; rfl)]

/-- Every direct write access is the engine's, with the bytes 30_encoding.md draws. -/
theorem engineWrite_exec {i : Instr} {w : WriteOp} (hi : engineWrite i = some w) (s : State) :
    exec i s = s.engineCall .nothing [.write .acq w.rs w.v w.width w.settle] := by
  cases i <;> simp only [engineWrite, reduceCtorEq, Option.some.injEq] at hi <;> subst hi <;> try rfl
  all_goals
    simp only [exec, execEntryModeSetCmd, execDisplayControlCmd, execCursorDisplayShiftCmd, execFunctionSetCmd,
      State.commandCall]
    congr 3
    first
    | (rename_i a b w; revert a b; decide)
    | (rename_i a b c w; revert a b c; decide)

theorem hostWrite_exec {i : Instr} {w : WriteOp} {s : State} (hi : hostWrite s.params i = some w) :
    exec i s = s.operation .nothing [.write .acq w.rs w.v w.width w.settle] := by
  cases i <;> simp only [hostWrite, reduceCtorEq, Option.some.injEq] at hi <;> subst hi <;> rfl

theorem engineRead_exec {i : Instr} {rs : Bool} {width : Width} (hi : engineRead i = some (rs, width)) (s : State) :
    exec i s = s.engineCall .statusByte [.read .acq rs width] := by
  cases i <;> simp only [engineRead, reduceCtorEq, Option.some.injEq, Prod.mk.injEq] at hi <;>
    obtain ⟨rfl, rfl⟩ := hi <;> rfl

theorem burstOf_exec {i : Instr} {images : List PortImage} (hi : burstOf i = some images) (s : State) :
    exec i s = s.engineCall .status [.burst .acq images] := by
  cases i <;> simp only [burstOf, reduceCtorEq, Option.some.injEq] at hi <;> subst hi <;> rfl

end Sys2Proof.Machine
end

