-- ==== Sys2Proof/Laws/Frame.lean ====
section
/-! SUPPORT. What an atomic step leaves alone, said once: other instances, other threads but for the overlap mark, the
parameters, configuration and delay binding of its own instance, and the events already recorded. -/

namespace Sys2Proof.Machine

/-- Everything a stretch of the running thread's call can do outside its own records. Where `bound` holds, the stretch
does not end `init`, which alone writes the configuration and the delay binding. -/
structure Frame (bound : Prop) (s t : State) : Prop where
  turn : t.turn = s.turn
  inst : t.me.inst = s.me.inst
  calls : t.me.calls = s.me.calls
  insts : ∀ k, k ≠ s.me.inst → t.inst k = s.inst k
  threads : ∀ j, j ≠ s.turn.tid → t.thread j = { s.thread j with race := (t.thread j).race }
  params : t.here.params = s.here.params
  cfg : bound → t.here.cfg = s.here.cfg
  delays : bound → t.here.delays = s.here.delays
  trace : ∃ es, t.trace = s.trace ++ es ∧ ∀ e ∈ es, e.tid = s.turn.tid ∧ e.inst = s.me.inst
  fatal : bound → s.here.cfg.isSome = true → t.fatal = s.fatal
  turns : t.env.turns = s.env.turns ∧ t.env.turnNo = s.env.turnNo

namespace Frame

variable {bound : Prop} {s t u : State}

theorem refl (s : State) : Frame bound s s :=
  ⟨rfl, rfl, rfl, fun _ _ => rfl, fun _ _ => rfl, rfl, fun _ => rfl, fun _ => rfl, ⟨[], by simp, by simp⟩, fun _ _ => rfl, rfl,
    rfl⟩

/-- A frame under a weaker hypothesis is one under a stronger. -/
theorem mono {bound' : Prop} (h : Frame bound s t) (hb : bound' → bound) : Frame bound' s t :=
  ⟨h.turn, h.inst, h.calls, h.insts, h.threads, h.params, fun g => h.cfg (hb g), fun g => h.delays (hb g), h.trace,
    fun g => h.fatal (hb g), h.turns⟩

theorem trans (h : Frame bound s t) (g : Frame bound t u) : Frame bound s u where
  turn := g.turn.trans h.turn
  inst := g.inst.trans h.inst
  calls := g.calls.trans h.calls
  insts k hk := (g.insts k (by rw [h.inst]; exact hk)).trans (h.insts k hk)
  threads j hj := by
    rw [g.threads j (by rw [h.turn]; exact hj), h.threads j hj]
  params := g.params.trans h.params
  cfg hb := (g.cfg hb).trans (h.cfg hb)
  delays hb := (g.delays hb).trans (h.delays hb)
  trace := by
    obtain ⟨es, he, hes⟩ := h.trace
    obtain ⟨fs, hf, hfs⟩ := g.trace
    refine ⟨es ++ fs, by rw [hf, he, List.append_assoc], fun e hm => ?_⟩
    rcases List.mem_append.1 hm with hm | hm
    · exact hes e hm
    · rw [← h.turn, ← h.inst]; exact hfs e hm
  fatal hb hc := (g.fatal hb (by rw [h.cfg hb]; exact hc)).trans (h.fatal hb hc)
  turns := ⟨g.turns.1.trans h.turns.1, g.turns.2.trans h.turns.2⟩

theorem setMe (h : Frame bound s t) (v : Thread) (hi : v.inst = t.me.inst) (hc : v.calls = t.me.calls) :
    Frame bound s (t.setMe v) := by
  refine h.trans ⟨rfl, by simpa using hi, by simpa using hc, fun _ _ => rfl, fun j hj => ?_, ?_, ?_, ?_, ⟨[], by simp, by simp⟩,
    fun _ _ => rfl, rfl, rfl⟩
  · rw [State.thread_setMe, if_neg hj]
  all_goals simp [hi]

theorem setInst (h : Frame bound s t) (v : Instance) (hp : v.params = t.here.params) (hc : v.cfg = t.here.cfg)
    (hd : v.delays = t.here.delays) : Frame bound s (t.setInst t.me.inst v) := by
  simp only [State.here_eq] at hp hc hd
  refine h.trans ⟨rfl, rfl, rfl, fun k hk => ?_, fun _ _ => rfl, ?_, ?_, ?_, ⟨[], by simp, by simp⟩,
    fun _ _ => rfl, rfl, rfl⟩
  · rw [State.inst_setInst, if_neg hk]
  all_goals simp [*]

theorem recordAs (h : Frame bound s t) (e : EventBody) : Frame bound s (t.recordAs t.turn.tid t.me.inst e) :=
  h.trans ⟨rfl, rfl, rfl, fun _ _ => rfl, fun _ _ => rfl, rfl, fun _ => rfl, fun _ => rfl, ⟨[_], rfl, by simp⟩, fun _ _ => rfl,
    rfl, rfl⟩

theorem setLatch (h : Frame bound s t) (d : Device) (l : Option Byte) : Frame bound s (t.setLatch d l) :=
  h.trans ⟨rfl, rfl, rfl, fun _ _ => rfl, fun _ _ => rfl, rfl, fun _ => rfl, fun _ => rfl, ⟨[], by simp, by simp⟩, fun _ _ => rfl,
    rfl, rfl⟩

theorem writeMem (h : Frame bound s t) (a : Nat) (b : Byte) : Frame bound s (t.writeMem a b) :=
  h.trans ⟨rfl, rfl, rfl, fun _ _ => rfl, fun _ _ => rfl, rfl, fun _ => rfl, fun _ => rfl, ⟨[], by simp, by simp⟩, fun _ _ => rfl,
    rfl, rfl⟩

theorem writeMemBytes (h : Frame bound s t) (a : Nat) (bs : List Byte) : Frame bound s (t.writeMemBytes a bs) := by
  induction bs generalizing t a with
  | nil => exact h
  | cons b bs ih => exact ih (h.writeMem a b) (a + 1)

theorem popXfer (h : Frame bound s t) : Frame bound s t.popXfer :=
  h.trans ⟨rfl, rfl, rfl, fun _ _ => rfl, fun _ _ => rfl, rfl, fun _ => rfl, fun _ => rfl, ⟨[], by simp, by simp⟩, fun _ _ => rfl,
    rfl, rfl⟩

theorem popChoice (h : Frame bound s t) : Frame bound s t.popChoice :=
  h.trans ⟨rfl, rfl, rfl, fun _ _ => rfl, fun _ _ => rfl, rfl, fun _ => rfl, fun _ => rfl, ⟨[], by simp, by simp⟩, fun _ _ => rfl,
    rfl, rfl⟩

theorem popFree (h : Frame bound s t) : Frame bound s t.popFree :=
  h.trans ⟨rfl, rfl, rfl, fun _ _ => rfl, fun _ _ => rfl, rfl, fun _ => rfl, fun _ => rfl, ⟨[], by simp, by simp⟩, fun _ _ => rfl,
    rfl, rfl⟩

theorem ite {p : Prop} [Decidable p] (h : Frame bound s t) (g : Frame bound s u) : Frame bound s (if p then t else u) := by
  split <;> assumption

theorem get_map {α : Type} (d : α) (f : Nat × α → Nat × α) (hf : ∀ e, (f e).1 = e.1) (m : Sparse α) (j : Nat) :
    Sparse.get d (m.map f) j = d ∧ Sparse.get d m j = d ∨
      ∃ e ∈ m, e.1 = j ∧ Sparse.get d m j = e.2 ∧ Sparse.get d (m.map f) j = (f e).2 := by
  induction m with
  | nil => exact .inl ⟨rfl, rfl⟩
  | cons e m ih =>
    obtain ⟨i, v⟩ := e
    have h1 := hf (i, v)
    rcases hfe : f (i, v) with ⟨i', v'⟩
    simp only [hfe] at h1
    subst h1
    by_cases hj : i' = j
    · exact .inr ⟨(i', v), by simp, hj, by simp [Sparse.get, hj],
        by rw [List.map_cons, hfe]; simp [Sparse.get, hj]⟩
    · rcases ih with ⟨h2, h3⟩ | ⟨e, he, h2, h3, h4⟩
      · exact .inl ⟨by simp [Sparse.get, hj, hfe, h2], by simp [Sparse.get, hj, h3]⟩
      · exact .inr ⟨e, by simp [he], h2, by simp [Sparse.get, hj, h3], by simp [Sparse.get, hj, hfe, h4]⟩

end Frame

/-- Marking an overlap changes the mark of the threads inside an access on the instance, and nothing else. -/
theorem State.thread_markRace (s : State) (j : Nat) :
    s.markRace.thread j = if j ≠ s.turn.tid ∧ (s.thread j).inAccess s.me.inst = true then
      { s.thread j with race := true } else s.thread j := by
  rcases Frame.get_map Thread.idle (fun e => if e.1 ≠ s.turn.tid ∧ e.2.inAccess s.me.inst = true then
    (e.1, { e.2 with race := true }) else e) (fun e => by dsimp only; split <;> rfl) s.threads j with
    ⟨h1, h2⟩ | ⟨e, he, h1, h2, h3⟩
  · have hi : (s.thread j).inAccess s.me.inst = false := by
      rw [State.thread, h2]; rfl
    rw [if_neg (by simp [hi])]
    exact h1.trans h2.symm
  · have : s.markRace.thread j = _ := h3
    rw [this, State.thread, h2]
    by_cases hc : e.1 ≠ s.turn.tid ∧ e.2.inAccess s.me.inst = true
    · rw [if_pos hc, if_pos (h1 ▸ hc)]
    · rw [if_neg hc, if_neg (h1 ▸ hc)]

@[simp] theorem State.me_markRace (s : State) : s.markRace.me = s.me := by
  have := State.thread_markRace s s.turn.tid
  rw [if_neg (by simp)] at this
  exact this

namespace Frame

variable {bound : Prop} {s t : State}

theorem markRace (h : Frame bound s t) : Frame bound s t.markRace := by
  refine h.trans ⟨rfl, by simp, by simp, fun _ _ => rfl, fun j hj => ?_, ?_, fun _ => ?_, fun _ => ?_,
    ⟨[], (List.append_nil _).symm, by simp⟩, fun _ _ => rfl, rfl, rfl⟩
  · rw [State.thread_markRace]; split <;> rfl
  all_goals
    simp only [State.here_eq, State.me_markRace]
    rfl

theorem raiseFatal (h : Frame bound s t) (reason : FatalReason) (hc : t.here.cfg = none) : Frame bound s (t.raiseFatal reason) := by
  refine (h.recordAs (.fatal reason)).trans ⟨rfl, rfl, rfl, fun _ _ => rfl, fun _ _ => rfl, rfl, fun _ => rfl,
    fun _ => rfl, ⟨[], (List.append_nil _).symm, by simp⟩, fun _ g => ?_, rfl, rfl⟩
  have : (t.recordAs t.turn.tid t.me.inst (.fatal reason)).here.cfg = t.here.cfg := rfl
  rw [this, hc] at g
  cases g

theorem portWrite (h : Frame bound s t) (bytes : List Byte) (m : Bool) {next : Status → State → State}
    (hn : ∀ st u, Frame bound s u → Frame bound s (next st u)) : Frame bound s (t.portWrite bytes m next) := by
  unfold State.portWrite
  split
  · rename_i hc; exact h.raiseFatal _ hc
  · split
    · exact hn _ _ ((h.popXfer.setLatch _ _).recordAs _)
    · exact (h.popXfer.setLatch _ _).setMe _ rfl rfl

theorem portRead (h : Frame bound s t) (n : Nat) {next : Status → List Byte → State → State}
    (hn : ∀ st cs u, Frame bound s u → Frame bound s (next st cs u)) : Frame bound s (t.portRead n next) := by
  unfold State.portRead
  split
  · rename_i hc; exact h.raiseFatal _ hc
  · split
    · exact hn _ _ _ (h.popXfer.recordAs _)
    · exact hn _ _ _ (h.popXfer.recordAs _)
    · exact h.popXfer.setMe _ rfl rfl

theorem acquire (h : Frame bound s t) {go : State → State} (hg : ∀ u, Frame bound s u → Frame bound s (go u)) : Frame bound s (t.acquire go) := by
  unfold State.acquire
  split
  · exact hg _ (h.setInst _ rfl rfl rfl)
  · exact h.setInst _ rfl rfl rfl

theorem release (h : Frame bound s t) : Frame bound s t.release := h.setInst _ rfl rfl rfl
theorem finish (h : Frame bound s t) : Frame bound s t.finish := h.setMe _ rfl rfl
theorem goto (h : Frame bound s t) (a : Act) : Frame bound s (t.goto a) := h.setMe _ rfl rfl
theorem pop (h : Frame bound s t) : Frame bound s t.pop := by
  unfold State.pop
  split
  · exact h.finish
  · exact h.setMe _ rfl rfl
theorem setImg (h : Frame bound s t) (img : PortImage) : Frame bound s (t.setImg img) := h.setInst _ rfl rfl rfl
theorem holdBl (h : Frame bound s t) : Frame bound s t.holdBl := by
  unfold State.holdBl
  split
  · exact (h.setImg _).popChoice
  · exact h
theorem beginAccess (h : Frame bound s t) : Frame bound s t.beginAccess := h.setMe _ rfl rfl
theorem endAccess (h : Frame bound s t) : Frame bound s t.endAccess := h.holdBl.setMe _ rfl rfl
theorem enterAccess (h : Frame bound s t) (a : Act) : Frame bound s (t.enterAccess a) := by
  unfold State.enterAccess
  split
  · exact h.acquire fun u hu => hu.beginAccess.goto a
  · exact h.beginAccess.goto a
theorem leaveAccess (h : Frame bound s t) : Frame bound s t.leaveAccess := by
  unfold State.leaveAccess
  split
  · exact h.endAccess.release.pop
  · exact h.endAccess.pop
theorem sendImages (h : Frame bound s t) (images : List PortImage) {next : Status → State → State}
    (hn : ∀ st u, Frame bound s u → Frame bound s (next st u)) : Frame bound s (t.sendImages images next) :=
  Frame.portWrite (Frame.setMe (h.setImg (images.getLastD t.img)) { (t.setImg (images.getLastD t.img)).me with
    q := images.map (serialize t.params.layout),
    queued := (t.setImg (images.getLastD t.img)).me.queued ++ images } rfl rfl) _ _ hn
theorem sleep (h : Frame bound s t) (us : Nat) : Frame bound s (t.sleep us) := h.recordAs _
theorem setSt (h : Frame bound s t) (st : Status) : Frame bound s (t.setSt st) := h.setMe _ rfl rfl
theorem setR (h : Frame bound s t) (r : Byte) : Frame bound s (t.setR r) := h.setMe _ rfl rfl

theorem blWriteStep (h : Frame bound s t) (on : Bool) : Frame bound s (t.blWriteStep on) := by
  unfold State.blWriteStep
  refine Frame.portWrite (Frame.setImg ?_ _) _ _ fun _ _ hu => hu.pop
  have h1 : Frame bound s (if t.overlapImages.isEmpty then t else t.popChoice) := by
    split
    · exact h
    · exact h.popChoice
  split
  · exact h1
  · exact h1.markRace

theorem writeStep (h : Frame bound s t) (pos : WPos) (rs : Bool) (v : Byte) (width : Width) (settle : Settle) :
    Frame bound s (t.writeStep pos rs v width settle) := by
  cases pos with
  | acq => exact h.enterAccess _
  | send => exact h.holdBl.sendImages _ fun _ _ hu => hu.goto _
  | settle => exact (h.sleep _).goto _
  | rel => exact h.leaveAccess

theorem readStep (h : Frame bound s t) (pos : RPos) (rs : Bool) (width : Width) : Frame bound s (t.readStep pos rs width) := by
  cases pos <;> simp only [State.readStep]
  case acq => exact h.enterAccess _
  case setupHi => exact h.holdBl.sendImages _ fun st _ hu => by cases st <;> exact hu.goto _
  case capHi =>
    refine h.portRead _ fun st _ _ hu => ?_
    cases st
    · exact (hu.setR _).goto _
    · exact hu.goto _
  case setupLo => exact h.holdBl.sendImages _ fun st _ hu => by cases st <;> exact hu.goto _
  case capLo =>
    refine h.portRead _ fun st _ _ hu => ?_
    cases st
    · exact (hu.setR _).goto _
    · exact hu.goto _
  case idle => exact h.holdBl.sendImages _ fun _ _ hu => hu.goto _
  case settle => exact (h.ite (h.sleep _)).goto _
  case rel => exact (h.setSt _).leaveAccess
  case abort => exact (h.setSt _).leaveAccess

theorem burstStep (h : Frame bound s t) (pos : BPos) (images : List PortImage) : Frame bound s (t.burstStep pos images) := by
  cases pos with
  | acq => exact h.acquire fun _ hu => hu.beginAccess.goto _
  | send => exact h.sendImages _ fun _ _ hu => (hu.setSt _).goto _
  | rel => exact h.endAccess.release.pop

theorem perform (h : Frame bound s t) (a : Act) (ha : bound → a ≠ .initialise) : Frame bound s (t.perform a) := by
  cases a with
  | initialise =>
    have hn : ¬bound := fun hb => ha hb rfl
    refine (h.trans (u := t.setHere t.here.initialised) ⟨rfl, rfl, rfl, fun k hk => ?_, fun _ _ => rfl, by simp [Instance.initialised],
      fun g => (hn g).elim, fun g => (hn g).elim, ⟨[], by simp, by simp⟩, fun g => (hn g).elim, rfl, rfl⟩).pop
    rw [State.setHere_eq, State.inst_setInst, if_neg hk]
  | write pos rs v width settle => exact h.writeStep ..
  | load src i => exact (h.ite h.popFree).goto _
  | read pos rs width => exact h.readStep ..
  | burst pos images => exact h.burstStep ..
  | sleep us => exact (h.sleep us).pop
  | opAcq =>
    simp only [State.perform]
    split
    · exact h.pop
    · exact h.acquire fun _ hu => hu.pop
  | opRel =>
    simp only [State.perform]
    split
    · exact h.pop
    · exact h.release.pop
  | blSet on => exact h.blWriteStep on
  | blRead =>
    simp only [State.perform]
    exact Frame.pop (Frame.setMe h _ rfl rfl)
  | blWrite => exact h.blWriteStep _
  | setReady =>
    simp only [State.perform, State.setHere]
    exact Frame.pop (Frame.setInst h _ rfl rfl rfl)
  | setStop =>
    simp only [State.perform, State.setHere]
    exact Frame.pop (Frame.setInst h _ rfl rfl rfl)
  | xwrite values len m => exact h.portWrite _ _ fun _ _ hu => (hu.setSt _).pop
  | xwriteByte value m => exact h.portWrite _ _ fun _ _ hu => (hu.setSt _).pop
  | xread buffer len =>
    simp only [State.perform, State.xreadStep]
    exact Frame.portRead h _ fun _ _ _ hu => ((hu.writeMemBytes _ _).setSt _).pop
  | xreadByte =>
    simp only [State.perform, State.xreadByteStep]
    exact Frame.portRead h _ fun _ _ _ hu => ((hu.setR _).setSt _).pop

end Frame

/-- An atomic step. -/
theorem State.atomic_frame (s : State) : Frame (∀ rest, s.me.seq ≠ .initialise :: rest) s s.atomic := by
  unfold State.atomic
  split
  · exact Frame.refl s
  · split
    · exact (Frame.refl s).finish
    · rename_i a rest hs
      exact (Frame.refl s).perform a fun hb ha => hb rest (by rw [hs, ha])

end Sys2Proof.Machine
end

