-- ==== Sys2Proof/Laws/Sequence.lean ====
section
/-! SUPPORT. What an atomic step does to the mutex of its instance and to the sequence of its thread, said once. -/

namespace Sys2Proof.Machine

/-- Whether an element stands at an acquiring position, or is a wait for the thread's own access to begin. -/
def Act.begins : Act → Bool
  | .write pos _ _ _ _ => decide (pos = .acq)
  | .read pos _ _ => decide (pos = .acq)
  | .burst pos _ => decide (pos = .acq)
  | _ => false

/-- Whether an element is an access or a bare burst, at whatever position. -/
def Act.isAccess : Act → Bool
  | .write _ _ _ _ _ => true
  | .read _ _ _ => true
  | .burst _ _ => true
  | _ => false

/-- Where an access takes the mutex itself. -/
def Act.locks (lock : Lock) (a : Act) : Bool := decide (lock = .access) || a.isBurst

/-- The step from mutex `m` and sequence `σ` to mutex, whether the thread is still in its call, and sequence. -/
inductive Moves (lock : Lock) (self : Nat) : Option Nat → List Act → Option Nat → Bool → List Act → Prop
  /-- A wait, a hang, a Fatal. -/
  | stay (m : Option Nat) (σ : List Act) : Moves lock self m σ m true σ
  | inside (m : Option Nat) (a b : Act) (rest : List Act) (ha : a.inAccess = true) (hb : b.inAccess = true)
      (hk : b.isBurst = a.isBurst) : Moves lock self m (a :: rest) m true (b :: rest)
  | load (m : Option Nat) (src : Buffer) (i : Nat) (v : Byte) (rest : List Act) :
      Moves lock self m (.load src i :: rest) m true (.write .acq true v .four .short :: rest)
  | take (a b : Act) (rest : List Act) (ha : a.begins = true) (hb : b.inAccess = true) (hk : b.isBurst = a.isBurst)
      (hl : a.locks lock = true) : Moves lock self none (a :: rest) (some self) true (b :: rest)
  | enter (m : Option Nat) (a b : Act) (rest : List Act) (ha : a.begins = true) (hb : b.inAccess = true)
      (hk : b.isBurst = a.isBurst) (hl : a.locks lock = false) : Moves lock self m (a :: rest) m true (b :: rest)
  | give (m : Option Nat) (a : Act) (rest : List Act) (ha : a.inAccess = true) (hl : a.locks lock = true) :
      Moves lock self m (a :: rest) none (!rest.isEmpty) rest
  | leave (m : Option Nat) (a : Act) (rest : List Act) (ha : a.inAccess = true) (hl : a.locks lock = false) :
      Moves lock self m (a :: rest) m (!rest.isEmpty) rest
  | opTake (rest : List Act) (hl : lock = .operation) :
      Moves lock self none (.opAcq :: rest) (some self) (!rest.isEmpty) rest
  | opGive (m : Option Nat) (rest : List Act) (hl : lock = .operation) :
      Moves lock self m (.opRel :: rest) none (!rest.isEmpty) rest
  | init (m : Option Nat) (rest : List Act) :
      Moves lock self m (.initialise :: rest) none (!rest.isEmpty) rest
  | drop (m : Option Nat) (a : Act) (rest : List Act) (ha : a.isAccess = false)
      (hi : a ≠ .initialise) (ho : a = .opAcq ∨ a = .opRel → lock = .access) : Moves lock self m (a :: rest) m (!rest.isEmpty) rest
  | done (m : Option Nat) : Moves lock self m [] m false []

/-- The two states agree on what `Moves` is about. -/
structure Alike (s t : State) : Prop where
  seq : t.me.seq = s.me.seq
  running : t.me.running = s.me.running
  inst : t.me.inst = s.me.inst
  mutex : (t.inst s.me.inst).mutex = (s.inst s.me.inst).mutex
  lock : (t.inst s.me.inst).params.lock = (s.inst s.me.inst).params.lock
  turn : t.turn = s.turn

/-- The step from `s` to `t` is one of `Moves`. -/
def Moved (s t : State) : Prop :=
  Moves s.here.params.lock s.turn.tid s.here.mutex s.me.seq (t.inst s.me.inst).mutex t.me.running t.me.seq

namespace Alike

variable {s t : State}

theorem refl (s : State) : Alike s s := ⟨rfl, rfl, rfl, rfl, rfl, rfl⟩
theorem setMe (h : Alike s t) (v : Thread) (hs : v.seq = t.me.seq) (hr : v.running = t.me.running)
    (hi : v.inst = t.me.inst) : Alike s (t.setMe v) :=
  ⟨by simpa using hs.trans h.seq, by simpa using hr.trans h.running, by simpa using hi.trans h.inst, by simpa using h.mutex,
    by simpa using h.lock, h.turn⟩
theorem setInst (h : Alike s t) (k : Nat) (v : Instance) (hk : k = t.me.inst) (hm : v.mutex = (t.inst t.me.inst).mutex)
    (hl : v.params = (t.inst t.me.inst).params) : Alike s (t.setInst k v) := by
  subst hk
  have hi := h.inst
  refine ⟨h.seq, h.running, h.inst, ?_, ?_, h.turn⟩
  · rw [State.inst_setInst, if_pos hi.symm, hm, hi, h.mutex]
  · rw [State.inst_setInst, if_pos hi.symm, hl, hi, h.lock]
theorem recordAs (h : Alike s t) (a b : Nat) (e : EventBody) : Alike s (t.recordAs a b e) :=
  ⟨h.seq, h.running, h.inst, h.mutex, h.lock, h.turn⟩
theorem setLatch (h : Alike s t) (d : Device) (l : Option Byte) : Alike s (t.setLatch d l) :=
  ⟨h.seq, h.running, h.inst, h.mutex, h.lock, h.turn⟩
theorem writeMem (h : Alike s t) (a : Nat) (b : Byte) : Alike s (t.writeMem a b) :=
  ⟨h.seq, h.running, h.inst, h.mutex, h.lock, h.turn⟩
theorem writeMemBytes (h : Alike s t) (a : Nat) (bs : List Byte) : Alike s (t.writeMemBytes a bs) := by
  induction bs generalizing t a with
  | nil => exact h
  | cons b bs ih => exact ih (h.writeMem a b) (a + 1)
theorem popXfer (h : Alike s t) : Alike s t.popXfer := ⟨h.seq, h.running, h.inst, h.mutex, h.lock, h.turn⟩
theorem popChoice (h : Alike s t) : Alike s t.popChoice := ⟨h.seq, h.running, h.inst, h.mutex, h.lock, h.turn⟩
theorem popFree (h : Alike s t) : Alike s t.popFree := ⟨h.seq, h.running, h.inst, h.mutex, h.lock, h.turn⟩
theorem markRace (h : Alike s t) : Alike s t.markRace := by
  have hm := State.me_markRace t
  exact ⟨by rw [hm, h.seq], by rw [hm, h.running], by rw [hm, h.inst], h.mutex, h.lock, h.turn⟩
theorem setImg (h : Alike s t) (img : PortImage) : Alike s (t.setImg img) := h.setInst _ _ rfl rfl rfl
theorem holdBl (h : Alike s t) : Alike s t.holdBl := by
  unfold State.holdBl
  split
  · exact (h.setImg _).popChoice
  · exact h
theorem sleep (h : Alike s t) (us : Nat) : Alike s (t.sleep us) := h.recordAs ..
theorem setSt (h : Alike s t) (st : Status) : Alike s (t.setSt st) := h.setMe _ rfl rfl rfl
theorem setR (h : Alike s t) (r : Byte) : Alike s (t.setR r) := h.setMe _ rfl rfl rfl
theorem beginAccess (h : Alike s t) : Alike s t.beginAccess := h.setMe _ rfl rfl rfl
theorem endAccess (h : Alike s t) : Alike s t.endAccess := h.holdBl.setMe _ rfl rfl rfl
theorem raiseFatal (h : Alike s t) (r : FatalReason) : Alike s (t.raiseFatal r) :=
  ⟨h.seq, h.running, h.inst, h.mutex, h.lock, h.turn⟩
theorem hang (h : Alike s t) : Alike s t.hang := h.setMe _ rfl rfl rfl
theorem ite {p : Prop} [Decidable p] {u : State} (h : Alike s t) (g : Alike s u) : Alike s (if p then t else u) := by
  split <;> assumption

/-- Nothing moved. -/
theorem stay (h : Alike s t) (hr : s.me.running = true) : Moved s t := by
  unfold Moved
  rw [h.mutex, h.running, h.seq, hr]
  exact .stay ..

theorem portWrite (h : Alike s t) (hr : s.me.running = true) (bytes : List Byte) (m : Bool)
    {next : Status → State → State} (hn : ∀ st u, Alike s u → Moved s (next st u)) :
    Moved s (t.portWrite bytes m next) := by
  unfold State.portWrite
  split
  · exact (h.raiseFatal _).stay hr
  · split
    · exact hn _ _ ((h.popXfer.setLatch _ _).recordAs ..)
    · exact ((h.popXfer.setLatch _ _).hang).stay hr

theorem portRead (h : Alike s t) (hr : s.me.running = true) (n : Nat) {next : Status → List Byte → State → State}
    (hn : ∀ st cs u, Alike s u → Moved s (next st cs u)) : Moved s (t.portRead n next) := by
  unfold State.portRead
  split
  · exact (h.raiseFatal _).stay hr
  · split
    · exact hn _ _ _ (h.popXfer.recordAs ..)
    · exact hn _ _ _ (h.popXfer.recordAs ..)
    · exact h.popXfer.hang.stay hr

theorem sendImages (h : Alike s t) (hr : s.me.running = true) (images : List PortImage) {next : Status → State → State}
    (hn : ∀ st u, Alike s u → Moved s (next st u)) : Moved s (t.sendImages images next) :=
  portWrite ((h.setImg (images.getLastD t.img)).setMe { (t.setImg (images.getLastD t.img)).me with
    q := images.map (serialize t.params.layout),
    queued := (t.setImg (images.getLastD t.img)).me.queued ++ images } rfl rfl rfl) hr _ _ hn

/-- The head is replaced, the mutex as it is. -/
theorem goto (h : Alike s t) (b : Act) (hm : Moves s.here.params.lock s.turn.tid s.here.mutex s.me.seq
    s.here.mutex s.me.running (b :: s.me.seq.tail)) : Moved s (t.goto b) := by
  unfold Moved
  simpa [State.goto, h.mutex, h.running, h.seq] using hm

/-- The head is dropped, the mutex as it is. -/
theorem pop (h : Alike s t) (hr : s.me.running = true) (hm : Moves s.here.params.lock s.turn.tid s.here.mutex s.me.seq
    s.here.mutex (!s.me.seq.tail.isEmpty) s.me.seq.tail) : Moved s t.pop := by
  unfold Moved State.pop
  have hseq := h.seq
  have hmu := h.mutex
  have hru := h.running
  cases ht : s.me.seq.tail with
  | nil => simpa [State.finish, Thread.atRest, hseq, ht, hmu] using hm
  | cons a rest => simpa [hseq, ht, hmu, hru, hr] using hm

/-- The head is dropped and the mutex given back. -/
theorem releasePop (h : Alike s t) (hr : s.me.running = true) (hm : Moves s.here.params.lock s.turn.tid s.here.mutex
    s.me.seq none (!s.me.seq.tail.isEmpty) s.me.seq.tail) : Moved s t.release.pop := by
  unfold Moved State.pop
  have hseq := h.seq
  have hi := h.inst
  have hru := h.running
  cases ht : s.me.seq.tail with
  | nil => simpa [State.release, State.finish, Thread.atRest, hseq, ht, hi] using hm
  | cons a rest => simpa [State.release, hseq, ht, hi, hru, hr] using hm

/-- The mutex is taken and the head replaced, or the thread waits. -/
theorem acquireGoto (h : Alike s t) (hr : s.me.running = true) {go : State → State} (b : Act)
    (hg : ∀ u, (go u) = (u.beginAccess).goto b)
    (hm : s.here.mutex = none → Moves s.here.params.lock s.turn.tid none s.me.seq (some s.turn.tid) true
      (b :: s.me.seq.tail)) : Moved s (t.acquire go) := by
  have hseq := h.seq
  have hi := h.inst
  have hru := h.running
  have hmu := h.mutex
  have htu := h.turn
  unfold State.acquire
  cases hc : t.here.mutex with
  | none =>
    rw [State.here_eq, hi] at hc
    have hs : s.here.mutex = none := by rw [State.here_eq, ← hmu]; exact hc
    simp only [hg]
    unfold Moved
    rw [hs]
    simpa [State.goto, State.beginAccess, hseq, hi, hru, hr, htu] using hm hs
  | some o => exact Alike.stay (Alike.setInst h _ _ rfl rfl rfl) hr

end Alike

/-- An atomic step of a thread inside a call. -/
theorem State.perform_moved (s : State) (a : Act) (rest : List Act) (hr : s.me.running = true)
    (hs : s.me.seq = a :: rest) : Moved s (s.perform a) := by
  have h := Alike.refl s
  have hin : ∀ b : Act, a.inAccess = true → b.inAccess = true → b.isBurst = a.isBurst → Moves s.here.params.lock s.turn.tid
      s.here.mutex s.me.seq s.here.mutex s.me.running (b :: s.me.seq.tail) := by
    intro b h1 h2 h3
    rw [hs, hr]
    exact .inside _ _ _ _ h1 h2 h3
  have hdrop : a.isAccess = false → a ≠ .initialise → (a = .opAcq ∨ a = .opRel → s.here.params.lock = .access) →
      Moves s.here.params.lock s.turn.tid s.here.mutex s.me.seq s.here.mutex (!s.me.seq.tail.isEmpty) s.me.seq.tail := by
    intro h1 h2 h3
    rw [hs]
    exact .drop _ _ _ h1 h2 h3
  have henter : ∀ b : Act, a.begins = true → a.isBurst = false → b.inAccess = true → b.isBurst = false →
      Moved s (s.enterAccess b) := by
    intro b h1 h2 h3 h4
    unfold State.enterAccess
    cases hl : s.params.lock with
    | access =>
      refine h.acquireGoto hr b (fun _ => rfl) fun hm => ?_
      rw [hs]
      exact .take _ _ _ h1 h3 (h4.trans h2.symm) (by show Act.locks s.params.lock _ = true; rw [hl]; rfl)
    | operation =>
      refine (h.beginAccess).goto b ?_
      rw [hs, hr]
      refine .enter _ _ _ _ h1 h3 (h4.trans h2.symm) ?_
      show Act.locks s.params.lock _ = false
      rw [hl, Act.locks, h2]
      rfl
  have hleave : ∀ t, Alike s t → t.params.lock = s.params.lock → a.inAccess = true → a.isBurst = false →
      Moved s t.leaveAccess := by
    intro t ht hlk h1 h2
    unfold State.leaveAccess
    rw [hlk]
    cases hl : s.params.lock with
    | access =>
      refine (ht.endAccess).releasePop hr ?_
      rw [hs]
      exact .give _ _ _ h1 (by show Act.locks s.params.lock _ = true; rw [hl]; rfl)
    | operation =>
      refine (ht.endAccess).pop hr ?_
      rw [hs]
      refine .leave _ _ _ h1 ?_
      show Act.locks s.params.lock _ = false
      rw [hl, Act.locks, h2]
      rfl
  have hbl : ∀ on, a.isAccess = false → a ≠ .initialise → a ≠ .opAcq → a ≠ .opRel → Moved s (s.blWriteStep on) := by
    intro on h1 hi h2 h3
    unfold State.blWriteStep
    refine Alike.portWrite (Alike.setImg ?_ _) hr _ _ fun _ _ hu => hu.pop hr (hdrop h1 hi (by simp [h2, h3]))
    have h4 : Alike s (if s.overlapImages.isEmpty then s else s.popChoice) := by
      split
      · exact h
      · exact h.popChoice
    split
    · exact h4
    · exact h4.markRace
  cases a with
  | write pos rs v width settle =>
    cases pos with
    | acq => exact henter _ rfl rfl rfl rfl
    | send => exact Alike.sendImages h.holdBl hr _ fun _ _ hu => hu.goto _ (hin _ rfl rfl rfl)
    | settle => exact (h.sleep _).goto _ (hin _ rfl rfl rfl)
    | rel => exact hleave s h rfl rfl rfl
  | load src i =>
    refine (h.ite h.popFree).goto _ ?_
    rw [hs, hr]
    exact .load ..
  | read pos rs width =>
    have hl : ∀ st, (s.setSt st).params.lock = s.params.lock := by
      intro st; simp [State.setSt]
    cases pos with
    | acq => exact henter _ rfl rfl rfl rfl
    | setupHi =>
      exact Alike.sendImages h.holdBl hr _ fun st _ hu => by cases st <;> exact hu.goto _ (hin _ rfl rfl rfl)
    | capHi =>
      exact Alike.portRead h hr _ fun st _ _ hu => by
        cases st with
        | ok => cases width <;> exact (hu.setR _).goto _ (hin _ rfl rfl rfl)
        | fail => exact hu.goto _ (hin _ rfl rfl rfl)
    | setupLo =>
      exact Alike.sendImages h.holdBl hr _ fun st _ hu => by cases st <;> exact hu.goto _ (hin _ rfl rfl rfl)
    | capLo =>
      exact Alike.portRead h hr _ fun st _ _ hu => by
        cases st with
        | ok => exact (hu.setR _).goto _ (hin _ rfl rfl rfl)
        | fail => exact hu.goto _ (hin _ rfl rfl rfl)
    | idle => exact Alike.sendImages h.holdBl hr _ fun _ _ hu => hu.goto _ (hin _ rfl rfl rfl)
    | settle => exact (h.ite (h.sleep _)).goto _ (hin _ rfl rfl rfl)
    | rel => exact hleave _ (h.setSt _) (hl _) rfl rfl
    | abort => exact hleave _ (h.setSt _) (hl _) rfl rfl
  | burst pos images =>
    cases pos with
    | acq =>
      refine h.acquireGoto hr (.burst .send images) (fun _ => rfl) fun hm => ?_
      rw [hs]
      exact .take _ _ _ rfl rfl rfl (by simp [Act.locks, Act.isBurst])
    | send => exact Alike.sendImages h hr _ fun _ _ hu => (hu.setSt _).goto _ (hin _ rfl rfl rfl)
    | rel =>
      refine (h.endAccess).releasePop hr ?_
      rw [hs]
      exact .give _ _ _ rfl (by simp [Act.locks, Act.isBurst])
  | sleep us => exact (h.sleep us).pop hr (hdrop rfl (by simp) (by simp))
  | opAcq =>
    simp only [State.perform]
    cases hl : s.params.lock with
    | access => exact h.pop hr (hdrop rfl (by simp) fun _ => hl)
    | operation =>
      simp only [State.acquire]
      cases hc : s.here.mutex with
      | none =>
        unfold Moved State.pop
        have hm := Moves.opTake (lock := s.here.params.lock) (self := s.turn.tid) rest hl
        rw [hs, hc]
        cases rest with
        | nil => simpa [State.finish, Thread.atRest, hs] using hm
        | cons b rest => simpa [hs, hr] using hm
      | some o => exact Alike.stay (Alike.setInst h _ _ rfl hc.symm rfl) hr
  | opRel =>
    simp only [State.perform]
    cases hl : s.params.lock with
    | access => exact h.pop hr (hdrop rfl (by simp) fun _ => hl)
    | operation =>
      refine h.releasePop hr ?_
      rw [hs]
      exact .opGive _ _ hl
  | initialise =>
    have hm := Moves.init (lock := s.here.params.lock) (self := s.turn.tid) s.here.mutex rest
    unfold Moved
    rw [hs]
    simp only [State.perform, State.setHere_eq, State.here_eq]
    unfold State.pop
    cases rest with
    | nil => simpa [State.finish, Thread.atRest, hs, Instance.initialised] using hm
    | cons b rest => simpa [hs, hr, Instance.initialised] using hm
  | blSet on => exact hbl on rfl (by simp) (by simp) (by simp)
  | blRead =>
    simp only [State.perform]
    exact Alike.pop (Alike.setMe h _ rfl rfl rfl) hr (hdrop rfl (by simp) (by simp))
  | blWrite => exact hbl _ rfl (by simp) (by simp) (by simp)
  | setReady =>
    simp only [State.perform, State.setHere]
    exact Alike.pop (Alike.setInst h _ _ rfl rfl rfl) hr (hdrop rfl (by simp) (by simp))
  | setStop =>
    simp only [State.perform, State.setHere]
    exact Alike.pop (Alike.setInst h _ _ rfl rfl rfl) hr (hdrop rfl (by simp) (by simp))
  | xwrite values len m =>
    simp only [State.perform, State.xwriteStep]
    exact Alike.portWrite h hr _ _ fun _ _ hu => (hu.setSt _).pop hr (hdrop rfl (by simp) (by simp))
  | xwriteByte value m =>
    simp only [State.perform, State.xwriteStep]
    exact Alike.portWrite h hr _ _ fun _ _ hu => (hu.setSt _).pop hr (hdrop rfl (by simp) (by simp))
  | xread buffer len =>
    simp only [State.perform, State.xreadStep]
    exact Alike.portRead h hr _ fun _ _ _ hu => ((hu.writeMemBytes _ _).setSt _).pop hr (hdrop rfl (by simp) (by simp))
  | xreadByte =>
    simp only [State.perform, State.xreadByteStep]
    exact Alike.portRead h hr _ fun _ _ _ hu => ((hu.setR _).setSt _).pop hr (hdrop rfl (by simp) (by simp))

/-- An atomic step of any thread: nothing, or one of `Moves`. -/
theorem State.atomic_moved (s : State) :
    s.atomic = s ∨ (s.fatal = none ∧ s.me.running = true ∧ s.me.hung = false ∧ Moved s s.atomic) := by
  by_cases hg : s.fatal = none ∧ s.me.running = true ∧ s.me.hung = false
  · obtain ⟨hf, hr, hh⟩ := hg
    refine .inr ⟨hf, hr, hh, ?_⟩
    cases hs : s.me.seq with
    | nil =>
      have he : s.atomic = s.finish := by simp [State.atomic, hf, hr, hh, hs]
      rw [he]
      unfold Moved
      rw [hs]
      simpa [State.finish, Thread.atRest] using Moves.done _
    | cons a rest =>
      rw [State.atomic_head s hf hr hh hs]
      exact s.perform_moved a rest hr hs
  · refine .inl ?_
    simp only [State.atomic]
    rw [if_pos]
    cases hf : s.fatal <;> cases hr : s.me.running <;> cases hh : s.me.hung <;> simp_all

theorem Act.isAccess_of_inAccess {a : Act} (h : a.inAccess = true) : a.isAccess = true := by
  cases a <;> first | rfl | cases h

/-- What stands in a sequence after a step and is no access stood there before. -/
theorem Moves.mem {lock : Lock} {self : Nat} {m m' : Option Nat} {r : Bool} {σ σ' : List Act}
    (h : Moves lock self m σ m' r σ') {a : Act} (ha : a ∈ σ') (hn : a.isAccess = false) : a ∈ σ := by
  have hc : ∀ b : Act, ∀ rest, b.inAccess = true → a ∈ b :: rest → a ∈ rest := by
    intro b rest hb hm
    rcases List.mem_cons.1 hm with rfl | hm
    · rw [Act.isAccess_of_inAccess hb] at hn; cases hn
    · exact hm
  cases h with
  | stay => exact ha
  | inside _ _ b rest _ hb => exact List.mem_cons_of_mem _ (hc b rest hb ha)
  | load =>
    rcases List.mem_cons.1 ha with rfl | hm
    · cases hn
    · exact List.mem_cons_of_mem _ hm
  | take _ b rest _ hb => exact List.mem_cons_of_mem _ (hc b rest hb ha)
  | enter _ _ b rest _ hb => exact List.mem_cons_of_mem _ (hc b rest hb ha)
  | give | leave | opTake | opGive | init | drop => exact List.mem_cons_of_mem _ ha
  | done => exact ha

theorem State.mem_seq_atomic {s : State} {a : Act} (ha : a ∈ s.atomic.me.seq) (hn : a.isAccess = false) :
    a ∈ s.me.seq := by
  rcases s.atomic_moved with he | ⟨_, _, _, hm⟩
  · rw [he] at ha; exact ha
  · exact Moves.mem hm ha hn

/-- Any number of atomic steps. -/
theorem State.advance_frame (n : Nat) (s : State) : Frame (Act.initialise ∉ s.me.seq) s (s.advance n) := by
  induction n generalizing s with
  | zero => exact Frame.refl s
  | succ n ih =>
    exact (s.atomic_frame.mono fun h rest he => h (by rw [he]; simp)).trans
      ((ih s.atomic).mono fun h hm => h (State.mem_seq_atomic hm rfl))

end Sys2Proof.Machine
end

