-- ==== Sys2Proof/Laws/Exec.lean ====
section
/-! SUPPORT. How a call begins past its guards: the state it begins in, and what its sequence is like. -/

namespace Sys2Proof.Machine

/-- The state a call begins in: the lifecycle calls set their marker first. -/
def State.setup (s : State) (i : Instr) : State :=
  match i with
  | .init _ => s.claim s.here.cfg
  | .start c => s.claim (some c)
  | .stop => s.claim s.here.cfg
  | _ => s

/-- What is true of the sequence of a call. -/
structure CallShape (i : Instr) (acts : List Act) : Prop where
  shape : seqShape acts = true
  owns : ∀ lock, ownsMutex lock acts = false
  ready : Act.setReady ∈ acts → ∃ c, i = .start c
  stop : Act.setStop ∈ acts → i = .stop
  init : Act.initialise ∈ acts → (∃ p, i = .init p) ∧ acts = [.opAcq, .initialise]
  reads : ∀ b l, Act.xread b l ∈ acts → i = .getPort b l

theorem CallShape.single {i : Instr} {a : Act} (ho : ∀ lock, ownsMutex lock [a] = false)
    (hr : a = .setReady → ∃ c, i = .start c) (hs : a = .setStop → i = .stop)
    (hx : ∀ b l, a = .xread b l → i = .getPort b l) (hi : a ≠ .initialise) : CallShape i [a] where
  shape := by cases a <;> rfl
  owns := ho
  ready h := hr (List.mem_singleton.1 h).symm
  stop h := hs (List.mem_singleton.1 h).symm
  init h := (hi (List.mem_singleton.1 h).symm).elim
  reads b l h := hx b l (List.mem_singleton.1 h).symm

/-- What an operation's accesses are: writes and reads to begin, and text bytes to load. -/
def Act.plain : Act → Bool
  | .write pos _ _ _ _ => decide (pos = .acq)
  | .load _ _ => true
  | .read pos _ _ => decide (pos = .acq)
  | _ => false

theorem CallShape.operation {i : Instr} {acts : List Act} (h : acts.all Act.plain = true) :
    CallShape i (.opAcq :: acts ++ [.opRel]) := by
  have hne : ∀ a ∈ acts, a ≠ .opRel ∧ a ≠ .setReady ∧ a ≠ .setStop ∧ (∀ b l, a ≠ .xread b l) ∧ a.initial = true := by
    intro a ha
    have := List.all_eq_true.1 h a ha
    cases a <;> simp_all [Act.plain, Act.initial]
  have hni : Act.initialise ∉ acts := fun hm => by simpa [Act.plain] using List.all_eq_true.1 h _ hm
  refine ⟨?_, ?_, ?_, ?_, ?_, ?_⟩
  · have hc : acts.countP Act.releases = 0 := List.countP_eq_zero.2 fun a hm => by
      have := List.all_eq_true.1 h a hm
      cases a <;> simp_all [Act.plain, Act.releases]
    have hi : (acts ++ [Act.opRel]).all Act.initial = true := by
      simp only [List.all_append, List.all_cons, Act.initial, List.all_nil, Bool.and_true]
      exact List.all_eq_true.2 fun a ha => (hne a ha).2.2.2.2
    unfold seqShape
    simp only [List.cons_append, List.tail_cons, hi, List.countP_cons, List.countP_append, hc]
    cases acts <;> simp [Act.isBurst, Act.releases]
  · intro lock
    cases lock <;> simp [ownsMutex, Act.inAccess, Act.isBurst]
  · intro hm
    simp only [List.cons_append, List.mem_cons, reduceCtorEq, List.mem_append, List.not_mem_nil, or_false,
      false_or] at hm
    exact ((hne _ hm).2.1 rfl).elim
  · intro hm
    simp only [List.cons_append, List.mem_cons, reduceCtorEq, List.mem_append, List.not_mem_nil, or_false,
      false_or] at hm
    exact ((hne _ hm).2.2.1 rfl).elim
  · intro hm
    simp only [List.cons_append, List.mem_cons, reduceCtorEq, List.mem_append, List.not_mem_nil, or_false,
      false_or] at hm
    exact (hni hm).elim
  · intro b l hm
    simp only [List.cons_append, List.mem_cons, reduceCtorEq, List.mem_append, List.not_mem_nil, or_false,
      false_or] at hm
    exact ((hne _ hm).2.2.2.1 b l rfl).elim

theorem State.guards_race {s : State} {i : Instr} (h : s.firstFailing i = none) : s.raceGuard (isLifecycle i) = none := by
  unfold State.firstFailing at h
  split at h
  · cases h
  · rename_i hn
    unfold State.raceGuard
    rw [if_neg]
    simpa [not_or] using hn

theorem State.guards_life {s : State} {i : Instr} (h : s.firstFailing i = none) : lifeGuard s.here.life i = none := by
  unfold State.firstFailing at h
  split at h
  · cases h
  · split at h
    · cases h
    · assumption

theorem State.guards_cfg {s : State} {i : Instr} (h : s.firstFailing i = none) (hn : needsConfig i = true) :
    s.configGuard = none := by
  unfold State.firstFailing at h
  unfold State.configGuard
  split at h
  · cases h
  · split at h
    · cases h
    · cases hc : s.here.cfg <;> simp_all

theorem State.operation_shape {s : State} {i : Instr} (h : s.firstFailing i = none) (hl : isLifecycle i = false)
    (ho : isOperation i = true) (hi : s.setup i = s) {ret : RetKind} {acts : List Act} (hp : acts.all Act.plain = true) :
    ∃ ret' acts', CallShape i acts' ∧
      s.operation ret acts = .next (((s.setup i).begin acts' ret').advance s.turn.steps) := by
  refine ⟨ret, _, CallShape.operation hp, ?_⟩
  have h1 := State.guards_race h
  have h2 : s.readyGuard = none := by
    have := State.guards_life h
    unfold State.readyGuard
    cases i <;> simp_all [lifeGuard, isOperation]
  rw [hl] at h1
  simp [State.operation, State.call, h1, h2, hi]

theorem State.engineCall_shape {s : State} {i : Instr} (h : s.firstFailing i = none) (hl : isLifecycle i = false)
    (hn : needsConfig i = true) (hi : s.setup i = s) {ret : RetKind} {acts : List Act} (hc : CallShape i acts) :
    ∃ ret' acts', CallShape i acts' ∧
      s.engineCall ret acts = .next (((s.setup i).begin acts' ret').advance s.turn.steps) := by
  refine ⟨ret, acts, hc, ?_⟩
  have h1 := State.guards_race h
  rw [hl] at h1
  simp [State.engineCall, State.call, h1, State.guards_cfg h hn, hi]

theorem State.expanderCall_shape {s : State} {i : Instr} (h : s.firstFailing i = none) (hl : isLifecycle i = false)
    (hn : needsConfig i = true) (hi : s.setup i = s) {ret : RetKind} {a : Act} {ok : Bool} (hk : ok = true)
    (hc : CallShape i [a]) :
    ∃ ret' acts', CallShape i acts' ∧
      s.expanderCall ok ret a = .next (((s.setup i).begin acts' ret').advance s.turn.steps) := by
  refine ⟨ret, [a], hc, ?_⟩
  have h1 := State.guards_race h
  rw [hl] at h1
  simp [State.expanderCall, State.call, h1, State.guards_cfg h hn, hi, hk]

theorem Buffer.admits_of {b : Buffer} {len : Nat} (h : ¬(len = 0 ∨ b.size < len)) : Buffer.admits b len = true := by
  simp only [not_or] at h
  simp [Buffer.admits]
  omega

/-- `init` past its guards. -/
theorem exec_init {s : State} {provider : Nat} (h : s.firstFailing (.init provider) = none) :
    exec (.init provider) s = .next (((s.setup (.init provider)).begin [.opAcq, .initialise] .nothing).advance s.turn.steps) := by
  have h1 := State.guards_race h
  have h2 : s.freshGuard = none := State.guards_life h
  simp only [isLifecycle] at h1
  simp [exec, execInit, State.call, h1, h2, State.setup]

/-- A call with a length the spec admits begins, past its guards, and goes on for its turn. -/
theorem exec_shape {s : State} {i : Instr} (h : s.firstFailing i = none) (hb : ¬badLength i) :
    ∃ ret acts, CallShape i acts ∧ exec i s = .next (((s.setup i).begin acts ret).advance s.turn.steps) := by
  have hop : ∀ {ret : RetKind} {acts : List Act}, isLifecycle i = false → isOperation i = true → s.setup i = s →
      acts.all Act.plain = true → exec i s = s.operation ret acts →
      ∃ ret acts, CallShape i acts ∧ exec i s = .next (((s.setup i).begin acts ret).advance s.turn.steps) := by
    intro ret acts h1 h2 h3 h4 h5
    rw [h5]
    exact State.operation_shape h h1 h2 h3 h4
  have hen : ∀ {ret : RetKind} {acts : List Act}, isLifecycle i = false → needsConfig i = true → s.setup i = s →
      CallShape i acts → exec i s = s.engineCall ret acts →
      ∃ ret acts, CallShape i acts ∧ exec i s = .next (((s.setup i).begin acts ret).advance s.turn.steps) := by
    intro ret acts h1 h2 h3 h4 h5
    rw [h5]
    exact State.engineCall_shape h h1 h2 h3 h4
  have h1w : ∀ (rs : Bool) (v : Byte) (w : Width) (st : Settle), CallShape i [.write .acq rs v w st] := fun _ _ _ _ =>
    .single (fun lock => by cases lock <;> rfl) (by simp) (by simp) (by simp) (by simp)
  have h1r : ∀ (rs : Bool) (w : Width), CallShape i [.read .acq rs w] := fun _ _ =>
    .single (fun lock => by cases lock <;> rfl) (by simp) (by simp) (by simp) (by simp)
  have h1b : ∀ images, CallShape i [.burst .acq images] := fun _ =>
    .single (fun lock => by cases lock <;> rfl) (by simp) (by simp) (by simp) (by simp)
  have h1s : ∀ on, CallShape i [.blSet on] := fun _ =>
    .single (fun lock => by cases lock <;> rfl) (by simp) (by simp) (by simp) (by simp)
  have h2t : CallShape i [.blRead, .blWrite] :=
    ⟨by decide, fun lock => by cases lock <;> rfl, by simp, by simp, by simp, by simp⟩
  have hload : ∀ (b : Buffer) (v : Byte) (n : Nat),
      (instrAct v .short :: (List.range n).map (Act.load b)).all Act.plain = true := by
    intro b v n
    simp [instrAct, Act.plain]
  cases i
  case init p =>
    refine ⟨.nothing, [.opAcq, .initialise], ⟨by decide, fun lock => by cases lock <;> rfl, by simp, by simp,
      fun _ => ⟨⟨p, rfl⟩, rfl⟩, by simp⟩, exec_init h⟩
  case start c =>
    refine ⟨.nothing, bringUp s.params, ⟨?_, fun lock => by cases lock <;> rfl, fun _ => ⟨c, rfl⟩, ?_, ?_, ?_⟩, ?_⟩
    · simp [seqShape, bringUp, Act.initial, Act.isBurst, Act.releases]
      decide
    · simp [bringUp]
    · simp [bringUp]
    · simp [bringUp]
    · have h1 := State.guards_race h
      have h2 : s.initGuard = none := State.guards_life h
      simp only [isLifecycle] at h1
      simp [exec, execStart, State.call, h1, h2, State.setup]
  case stop =>
    refine ⟨.nothing, [.opAcq, .write .acq false (cmdDisplay s.params.cmd false false false) .four .short, .opRel,
      .blSet false, .setStop], ⟨?_, fun lock => by cases lock <;> rfl, by simp, fun _ => rfl, by simp, by simp⟩, ?_⟩
    · simp [seqShape, Act.initial, Act.isBurst, Act.releases]
      decide
    · have h1 := State.guards_race h
      have h2 : s.initGuard = none := State.guards_life h
      simp only [isLifecycle] at h1
      simp [exec, execStop, State.call, h1, h2, State.guards_cfg h rfl, State.setup]
  case updatePattern slot pattern => exact hop rfl rfl rfl (hload _ _ 8) rfl
  case drawText row col text len => exact hop rfl rfl rfl (hload _ _ _) rfl
  case readData ddram offset =>
    refine hop (ret := .statusByte) (acts := [positionAct s.params ddram offset, .read .acq true .four]) rfl rfl rfl ?_ rfl
    cases ddram <;> rfl
  case setPort values len m =>
    exact State.expanderCall_shape h rfl rfl rfl (Buffer.admits_of hb)
      (.single (fun lock => by cases lock <;> rfl) (by simp) (by simp) (by simp) (by simp))
  case setPortByte value m =>
    exact State.expanderCall_shape h rfl rfl rfl rfl
      (.single (fun lock => by cases lock <;> rfl) (by simp) (by simp) (by simp) (by simp))
  case getPort buffer len =>
    exact State.expanderCall_shape h rfl rfl rfl (Buffer.admits_of hb)
      (.single (fun lock => by cases lock <;> rfl) (by simp) (by simp) (by rintro _ _ ⟨⟩; rfl) (by simp))
  case getPortByte =>
    exact State.expanderCall_shape h rfl rfl rfl rfl
      (.single (fun lock => by cases lock <;> rfl) (by simp) (by simp) (by simp) (by simp))
  all_goals first
    | exact hop rfl rfl rfl rfl rfl
    | exact hen rfl rfl rfl (h1w _ _ _ _) rfl
    | exact hen rfl rfl rfl (h1r _ _) rfl
    | exact hen rfl rfl rfl (h1b _) rfl
    | exact hen rfl rfl rfl (h1s _) rfl
    | exact hen rfl rfl rfl h2t rfl

end Sys2Proof.Machine
end

