-- ==== Sys2Proof/Laws/Memory.lean ====
section
/-! SUPPORT. Host memory: every operation that writes it keeps its canonical form, reset has it, and what a byte reads as
after a write of bytes. -/

namespace Sys2Proof.Machine

theorem State.writeMem_wf (s : State) (a : Nat) (b : Byte) (h : Memory.wf s.mem) : Memory.wf (s.writeMem a b).mem :=
  Sparse.wf_set _ _ _ h

theorem State.writeMemBytes_wf (bs : List Byte) (s : State) (a : Nat) (h : Memory.wf s.mem) :
    Memory.wf (s.writeMemBytes a bs).mem := by
  induction bs generalizing s a with
  | nil => exact h
  | cons b bs ih => exact ih _ _ (s.writeMem_wf a b h)

theorem State.reset_mem_wf : Memory.wf State.reset.mem := by decide

/-- The bytes written read back; every other byte reads as before. -/
theorem State.readMem_writeMemBytes (bs : List Byte) (s : State) (a c : Nat) :
    (s.writeMemBytes a bs).readMem c =
      if h : a ≤ c ∧ c - a < bs.length then bs[c - a]'h.2 else s.readMem c := by
  induction bs generalizing s a with
  | nil => simp [State.writeMemBytes]
  | cons b bs ih =>
    rw [State.writeMemBytes, ih]
    have hr : (s.writeMem a b).readMem c = if c = a then b else s.readMem c := Sparse.get_set ..
    by_cases hc : c = a
    · subst hc
      simp [hr]
    · by_cases h1 : a + 1 ≤ c ∧ c - (a + 1) < bs.length
      · have h2 : a ≤ c ∧ c - a < (b :: bs).length := ⟨by omega, by simp; omega⟩
        have h3 : c - a = c - (a + 1) + 1 := by omega
        rw [dif_pos h1, dif_pos h2]
        simp [h3]
      · rw [dif_neg h1, dif_neg (by simp only [List.length_cons]; omega), hr, if_neg hc]

end Sys2Proof.Machine
end

