-- ==== Sys2Proof/Laws/PerInstr.lean ====
section
/-! SUPPORT. For every call: its bytes, with anything after them, decode to it (its statement and one lemma a
constructor). -/

namespace Sys2Proof.Laws.RoundTrip

/-- Decoding the bytes of a well-formed call gives it back, whatever follows. -/
def Statement (i : Instr) : Prop := i.wf = true → ∀ rest, decode (encode i ++ rest) = .ok (i, rest)

/-! ### Operand fields -/

theorem takeNat32_nat32Bytes {n : Nat} (h : fits32 n = true) (bs : List Byte) :
    takeNat32 (nat32Bytes n ++ bs) = .ok (n, bs) := by
  simp only [fits32, decide_eq_true_eq] at h
  simp only [nat32Bytes, takeNat32, List.cons_append, List.nil_append, BitVec.toNat_ofNat]
  congr 2
  omega

theorem takeBuffer_bufferBytes {b : Buffer} (h : b.wf = true) (bs : List Byte) :
    takeBuffer (bufferBytes b ++ bs) = .ok (b, bs) := by
  simp only [Buffer.wf, Bool.and_eq_true] at h
  simp [takeBuffer, bufferBytes, takeNat32_nat32Bytes, h, bind, Except.bind]

theorem takeConfig_configBytes {c : BusConfig} (h : c.wf = true) (bs : List Byte) :
    takeConfig (configBytes c ++ bs) = .ok (c, bs) := by
  simp only [BusConfig.wf, Bool.and_eq_true] at h
  have h7 : getBit (c.dev.addr.setWidth 8) 7 = false := by simp [getBit]
  have h8 : (c.dev.addr.setWidth 8).setWidth 7 = c.dev.addr := by ext; simp
  simp [takeConfig, configBytes, takeNat32_nat32Bytes, h, bind, Except.bind, takeAddr7, takeByte, h7, h8]

theorem takeBool_boolByte (b : Bool) (bs : List Byte) : takeBool (boolByte b :: bs) = .ok (b, bs) := by
  cases b <;> rfl

/-! ### Port bytes and commands -/

theorem unpackPort_packPort (img : PortImage) : unpackPort (packPort img) = img := by
  obtain ⟨rs, rw, en, bl, dt⟩ := img
  revert rs rw en bl dt
  decide

theorem port_fields (img : PortImage) : getBit (packPort img) 0 = img.rs ∧ getBit (packPort img) 1 = img.rw ∧
    getBit (packPort img) 3 = img.bl ∧ hiNib (packPort img) = img.dt := by
  have h := unpackPort_packPort img
  exact ⟨congrArg PortImage.rs h, congrArg PortImage.rw h, congrArg PortImage.bl h, congrArg PortImage.dt h⟩

theorem joinNib_split (v : Byte) : joinNib (hiNib v) (loNib v) = v := by
  revert v
  decide

theorem decode_triple (rs rw bl : Bool) (n : Nib) (rest : List Byte) :
    decode (encode (.nibbleTriple rs rw bl n) ++ rest) = .ok (.nibbleTriple rs rw bl n, rest) := by
  have hf := port_fields { rs, rw, en := false, bl, dt := n }
  simp only at hf
  simp [decode, encode, decodePort, tripleBytes, tripleImages, checked, hf]

theorem decode_burst8 (rs bl : Bool) (h : Nib) (rest : List Byte) :
    decode (encode (.writeBurst8 rs bl h) ++ rest) = .ok (.writeBurst8 rs bl h, rest) := by
  have hf := port_fields { rs, rw := false, en := false, bl, dt := h }
  simp only at hf
  simp [decode, encode, decodePort, burst8Bytes, tripleBytes, tripleImages, checked, hf]

theorem decode_burst4 (rs bl : Bool) (v : Byte) (rest : List Byte) :
    decode (encode (.writeBurst4 rs bl v) ++ rest) = .ok (.writeBurst4 rs bl v, rest) := by
  have hf := port_fields { rs, rw := false, en := false, bl, dt := hiNib v }
  have hg := port_fields { rs, rw := false, en := false, bl, dt := loNib v }
  simp only at hf hg
  simp [decode, encode, decodePort, burst4Bytes, writeImages, tripleImages, checked, hf, hg, joinNib_split]

theorem decode_cgram (a : CgramAddr) (width : Width) :
    decodeCommand (cmdSetCgram .hd44780 a) width = .ok (.setCgramAddrCmd a width) := by
  have h : ∀ a : CgramAddr, getBit (cmdSetCgram .hd44780 a) 7 = false ∧ getBit (cmdSetCgram .hd44780 a) 6 = true ∧
      (cmdSetCgram .hd44780 a).setWidth 6 = a := by decide
  simp [decodeCommand, h a]

theorem decode_ddram (a : DdramAddr) (width : Width) :
    decodeCommand (cmdSetDdram .hd44780 a) width = .ok (.setDdramAddrCmd a width) := by
  have h : ∀ a : DdramAddr, getBit (cmdSetDdram .hd44780 a) 7 = true ∧ (cmdSetDdram .hd44780 a).setWidth 7 = a := by
    decide
  simp [decodeCommand, h a]

/-! ### One lemma a call -/

theorem init (provider : Nat) : Statement (.init provider) := by
  intro h rest
  simp only [Instr.wf] at h
  simp [decode, encode, decodeHost, takeNat32_nat32Bytes, h, bind, Except.bind]

theorem start (config : BusConfig) : Statement (.start config) := by
  intro h rest
  simp only [Instr.wf] at h
  simp [decode, encode, decodeHost, takeConfig_configBytes, h, bind, Except.bind]

theorem stop : Statement .stop := by
  intro _ rest
  rfl

theorem setDisplay (d c b : Bool) : Statement (.setDisplay d c b) := by
  intro _ rest
  cases d <;> cases c <;> cases b <;> rfl

theorem clear : Statement .clear := by
  intro _ rest
  rfl

theorem returnHome : Statement .returnHome := by
  intro _ rest
  rfl

theorem shift (display right : Bool) : Statement (.shift display right) := by
  intro _ rest
  cases display <;> cases right <;> rfl

theorem updatePattern (slot : Nat) (pattern : Buffer) : Statement (.updatePattern slot pattern) := by
  intro h rest
  simp only [Instr.wf, Bool.and_eq_true] at h
  simp [decode, encode, decodeHost, takeNat32_nat32Bytes, takeBuffer_bufferBytes, h, bind, Except.bind]

theorem writeChar (ch : Byte) : Statement (.writeChar ch) := by
  intro _ rest
  rfl

theorem moveTo (row col : Nat) : Statement (.moveTo row col) := by
  intro h rest
  simp only [Instr.wf, Bool.and_eq_true] at h
  simp [decode, encode, decodeHost, takeNat32_nat32Bytes, h, bind, Except.bind]

theorem drawText (row col : Nat) (text : Buffer) (len : Nat) : Statement (.drawText row col text len) := by
  intro h rest
  simp only [Instr.wf, Bool.and_eq_true] at h
  simp [decode, encode, decodeHost, takeNat32_nat32Bytes, takeBuffer_bufferBytes, h, bind, Except.bind]

theorem readData (ddram : Bool) (offset : Nat) : Statement (.readData ddram offset) := by
  intro h rest
  simp only [Instr.wf] at h
  simp [decode, encode, decodeHost, takeNat32_nat32Bytes, takeBool_boolByte, h, bind, Except.bind]

theorem getStatus : Statement .getStatus := by
  intro _ rest
  rfl

theorem getBusy : Statement .getBusy := by
  intro _ rest
  rfl

theorem getAddress : Statement .getAddress := by
  intro _ rest
  rfl

theorem setBacklight (on : Nat) : Statement (.setBacklight on) := by
  intro h rest
  simp only [Instr.wf] at h
  simp [decode, encode, decodeHost, takeNat32_nat32Bytes, h, bind, Except.bind]

theorem toggleBacklight : Statement .toggleBacklight := by
  intro _ rest
  rfl

theorem writeInstr (v : Byte) (width : Width) (settle : Settle) : Statement (.writeInstr v width settle) := by
  intro _ rest
  cases width <;> cases settle <;> rfl

theorem writeData (v : Byte) : Statement (.writeData v) := by
  intro _ rest
  rfl

theorem readStatusReg : Statement .readStatusReg := by
  intro _ rest
  rfl

theorem readDataReg : Statement .readDataReg := by
  intro _ rest
  rfl

theorem blSet (on : Bool) : Statement (.blSet on) := by
  intro _ rest
  cases on <;> rfl

theorem blToggle : Statement .blToggle := by
  intro _ rest
  rfl

theorem setPort (values : Buffer) (len : Nat) (applyMask : Bool) : Statement (.setPort values len applyMask) := by
  intro h rest
  simp only [Instr.wf, Bool.and_eq_true] at h
  simp [decode, encode, decodeEngine, takeNat32_nat32Bytes, takeBuffer_bufferBytes, takeBool_boolByte, h, bind, Except.bind]

theorem setPortByte (value : Byte) (applyMask : Bool) : Statement (.setPortByte value applyMask) := by
  intro _ rest
  cases applyMask <;> rfl

theorem getPort (buffer : Buffer) (len : Nat) : Statement (.getPort buffer len) := by
  intro h rest
  simp only [Instr.wf, Bool.and_eq_true] at h
  simp [decode, encode, decodeEngine, takeNat32_nat32Bytes, takeBuffer_bufferBytes, h, bind, Except.bind]

theorem getPortByte : Statement .getPortByte := by
  intro _ rest
  rfl

theorem clearDisplayCmd (width : Width) : Statement (.clearDisplayCmd width) := by
  intro _ rest
  cases width <;> rfl

theorem returnHomeCmd (width : Width) : Statement (.returnHomeCmd width) := by
  intro _ rest
  cases width <;> rfl

theorem entryModeSetCmd (i s : Bool) (width : Width) : Statement (.entryModeSetCmd i s width) := by
  intro _ rest
  cases width <;> cases i <;> cases s <;> rfl

theorem displayControlCmd (d c b : Bool) (width : Width) : Statement (.displayControlCmd d c b width) := by
  intro _ rest
  cases width <;> cases d <;> cases c <;> cases b <;> rfl

theorem cursorDisplayShiftCmd (p r : Bool) (width : Width) : Statement (.cursorDisplayShiftCmd p r width) := by
  intro _ rest
  cases width <;> cases p <;> cases r <;> rfl

theorem functionSetCmd (l n f : Bool) (width : Width) : Statement (.functionSetCmd l n f width) := by
  intro _ rest
  cases width <;> cases l <;> cases n <;> cases f <;> rfl

theorem setCgramAddrCmd (a : CgramAddr) (width : Width) : Statement (.setCgramAddrCmd a width) := by
  intro _ rest
  cases width <;> simp [decode, encode, takeByte, takeWidth, widthByte, decode_cgram, bind, Except.bind]

theorem setDdramAddrCmd (a : DdramAddr) (width : Width) : Statement (.setDdramAddrCmd a width) := by
  intro _ rest
  cases width <;> simp [decode, encode, takeByte, takeWidth, widthByte, decode_ddram, bind, Except.bind]

theorem busWriteInstr (v : Byte) (width : Width) (settle : Settle) : Statement (.busWriteInstr v width settle) := by
  intro _ rest
  cases width <;> cases settle <;> rfl

theorem busWriteData (v : Byte) (width : Width) : Statement (.busWriteData v width) := by
  intro _ rest
  cases width <;> rfl

theorem busReadStatus (width : Width) : Statement (.busReadStatus width) := by
  intro _ rest
  cases width <;> rfl

theorem busReadData (width : Width) : Statement (.busReadData width) := by
  intro _ rest
  cases width <;> rfl

theorem portByte (img : PortImage) : Statement (.portByte img) := by
  intro _ rest
  simp [decode, encode, decodePort, unpackPort_packPort]

theorem nibbleTriple (rs rw bl : Bool) (n : Nib) : Statement (.nibbleTriple rs rw bl n) := by
  intro _ rest
  exact decode_triple rs rw bl n rest

theorem writeBurst4 (rs bl : Bool) (v : Byte) : Statement (.writeBurst4 rs bl v) := by
  intro _ rest
  exact decode_burst4 rs bl v rest

theorem writeBurst8 (rs bl : Bool) (h : Nib) : Statement (.writeBurst8 rs bl h) := by
  intro _ rest
  exact decode_burst8 rs bl h rest

theorem readSetup (rs bl : Bool) : Statement (.readSetup rs bl) := by
  intro _ rest
  cases rs <;> cases bl <;> rfl

theorem readIdle (rs bl : Bool) : Statement (.readIdle rs bl) := by
  intro _ rest
  cases rs <;> cases bl <;> rfl

theorem backlightWrite (bl : Bool) : Statement (.backlightWrite bl) := by
  intro _ rest
  cases bl <;> rfl

end Sys2Proof.Laws.RoundTrip
end

