-- ==== Sys2Proof/Laws/Stable.lean ====
section
/-! SUPPORT. One induction over the operations of an atomic step: a property of states that every operation keeps is kept
by every atomic step, the four elements that write lifecycle or host memory apart. -/

namespace Sys2Proof.Machine

/-- A property every operation of an atomic step keeps. -/
structure Stable (R : State → Prop) : Prop where
  setMe : ∀ t v, R t → v.inst = t.me.inst → v.calls = t.me.calls → R (t.setMe v)
  setInst : ∀ t v, R t → v.params = t.here.params → v.cfg = t.here.cfg → v.delays = t.here.delays →
    v.life = t.here.life → v.lcBusy = t.here.lcBusy → R (t.setInst t.me.inst v)
  recordAs : ∀ t e, R t → R (t.recordAs t.turn.tid t.me.inst e)
  setLatch : ∀ t d l, R t → R (t.setLatch d l)
  popXfer : ∀ t, R t → R t.popXfer
  popChoice : ∀ t, R t → R t.popChoice
  popFree : ∀ t, R t → R t.popFree
  markRace : ∀ t, R t → R t.markRace
  raiseFatal : ∀ t r, R t → R (t.raiseFatal r)

namespace Stable

variable {R : State → Prop} {s t : State}

theorem portWrite (h : Stable R) (ht : R t) (bytes : List Byte) (m : Bool) {next : Status → State → State}
    (hn : ∀ st u, R u → R (next st u)) : R (t.portWrite bytes m next) := by
  unfold State.portWrite
  split
  · exact h.raiseFatal _ _ ht
  · split
    · exact hn _ _ (h.recordAs _ _ (h.setLatch _ _ _ (h.popXfer _ ht)))
    · exact h.setMe _ _ (h.setLatch _ _ _ (h.popXfer _ ht)) rfl rfl

theorem portRead (h : Stable R) (ht : R t) (n : Nat) {next : Status → List Byte → State → State}
    (hn : ∀ st cs u, R u → R (next st cs u)) : R (t.portRead n next) := by
  unfold State.portRead
  split
  · exact h.raiseFatal _ _ ht
  · split
    · exact hn _ _ _ (h.recordAs _ _ (h.popXfer _ ht))
    · exact hn _ _ _ (h.recordAs _ _ (h.popXfer _ ht))
    · exact h.setMe _ _ (h.popXfer _ ht) rfl rfl

theorem acquire (h : Stable R) (ht : R t) {go : State → State} (hg : ∀ u, R u → R (go u)) : R (t.acquire go) := by
  unfold State.acquire
  split
  · exact hg _ (h.setInst _ _ ht rfl rfl rfl rfl rfl)
  · exact h.setInst _ _ ht rfl rfl rfl rfl rfl

theorem release (h : Stable R) (ht : R t) : R t.release := h.setInst _ _ ht rfl rfl rfl rfl rfl
theorem finish (h : Stable R) (ht : R t) : R t.finish := h.setMe _ _ ht rfl rfl
theorem goto (h : Stable R) (ht : R t) (a : Act) : R (t.goto a) := h.setMe _ _ ht rfl rfl
theorem pop (h : Stable R) (ht : R t) : R t.pop := by
  unfold State.pop
  split
  · exact h.finish ht
  · exact h.setMe _ _ ht rfl rfl
theorem setImg (h : Stable R) (ht : R t) (img : PortImage) : R (t.setImg img) :=
  h.setInst _ _ ht rfl rfl rfl rfl rfl
theorem holdBl (h : Stable R) (ht : R t) : R t.holdBl := by
  unfold State.holdBl
  split
  · exact h.popChoice _ (h.setImg ht _)
  · exact ht
theorem beginAccess (h : Stable R) (ht : R t) : R t.beginAccess := h.setMe _ _ ht rfl rfl
theorem endAccess (h : Stable R) (ht : R t) : R t.endAccess := h.setMe _ _ (h.holdBl ht) rfl rfl
theorem enterAccess (h : Stable R) (ht : R t) (a : Act) : R (t.enterAccess a) := by
  unfold State.enterAccess
  split
  · exact h.acquire ht fun u hu => h.goto (h.beginAccess hu) a
  · exact h.goto (h.beginAccess ht) a
theorem leaveAccess (h : Stable R) (ht : R t) : R t.leaveAccess := by
  unfold State.leaveAccess
  split
  · exact h.pop (h.release (h.endAccess ht))
  · exact h.pop (h.endAccess ht)
theorem sendImages (h : Stable R) (ht : R t) (images : List PortImage) {next : Status → State → State}
    (hn : ∀ st u, R u → R (next st u)) : R (t.sendImages images next) :=
  h.portWrite (h.setMe _ { (t.setImg (images.getLastD t.img)).me with
    q := images.map (serialize t.params.layout), queued := (t.setImg (images.getLastD t.img)).me.queued ++ images }
    (h.setImg ht (images.getLastD t.img)) rfl rfl) _ _ hn
theorem sleep (h : Stable R) (ht : R t) (us : Nat) : R (t.sleep us) := h.recordAs _ _ ht
theorem setSt (h : Stable R) (ht : R t) (st : Status) : R (t.setSt st) := h.setMe _ _ ht rfl rfl
theorem setR (h : Stable R) (ht : R t) (r : Byte) : R (t.setR r) := h.setMe _ _ ht rfl rfl

theorem blWriteStep (h : Stable R) (ht : R t) (on : Bool) : R (t.blWriteStep on) := by
  unfold State.blWriteStep
  refine h.portWrite (h.setImg ?_ _) _ _ fun _ _ hu => h.pop hu
  have h1 : R (if t.overlapImages.isEmpty then t else t.popChoice) := by
    split
    · exact ht
    · exact h.popChoice _ ht
  split
  · exact h1
  · exact h.markRace _ h1

/-- An element performed, given the four that write lifecycle or host memory. -/
theorem perform (h : Stable R) (hs : R s) (a : Act) (h1 : a = .setReady → R (s.perform .setReady))
    (h2 : a = .setStop → R (s.perform .setStop)) (h3 : ∀ b l, a = .xread b l → R (s.perform (.xread b l)))
    (h4 : a = .initialise → R (s.perform .initialise)) :
    R (s.perform a) := by
  cases a with
  | write pos rs v width settle =>
    cases pos with
    | acq => exact h.enterAccess hs _
    | send => exact h.sendImages (h.holdBl hs) _ fun _ _ hu => h.goto hu _
    | settle => exact h.goto (h.sleep hs _) _
    | rel => exact h.leaveAccess hs
  | load src i =>
    refine h.goto ?_ _
    split
    · exact hs
    · exact h.popFree _ hs
  | read pos rs width =>
    cases pos <;> simp only [State.perform, State.readStep]
    case acq => exact h.enterAccess hs _
    case setupHi => exact h.sendImages (h.holdBl hs) _ fun st _ hu => by cases st <;> exact h.goto hu _
    case capHi =>
      exact h.portRead hs _ fun st _ _ hu => by
        cases st
        · exact h.goto (h.setR hu _) _
        · exact h.goto hu _
    case setupLo => exact h.sendImages (h.holdBl hs) _ fun st _ hu => by cases st <;> exact h.goto hu _
    case capLo =>
      exact h.portRead hs _ fun st _ _ hu => by
        cases st
        · exact h.goto (h.setR hu _) _
        · exact h.goto hu _
    case idle => exact h.sendImages (h.holdBl hs) _ fun _ _ hu => h.goto hu _
    case settle =>
      refine h.goto ?_ _
      split
      · exact hs
      · exact h.sleep hs _
    case rel => exact h.leaveAccess (h.setSt hs _)
    case abort => exact h.leaveAccess (h.setSt hs _)
  | burst pos images =>
    cases pos with
    | acq => exact h.acquire hs fun _ hu => h.goto (h.beginAccess hu) _
    | send => exact h.sendImages hs _ fun _ _ hu => h.goto (h.setSt hu _) _
    | rel => exact h.pop (h.release (h.endAccess hs))
  | sleep us => exact h.pop (h.sleep hs _)
  | opAcq =>
    simp only [State.perform]
    split
    · exact h.pop hs
    · exact h.acquire hs fun _ hu => h.pop hu
  | opRel =>
    simp only [State.perform]
    split
    · exact h.pop hs
    · exact h.pop (h.release hs)
  | blSet on => exact h.blWriteStep hs on
  | blRead =>
    simp only [State.perform]
    exact h.pop (h.setMe _ _ hs rfl rfl)
  | blWrite => exact h.blWriteStep hs _
  | setReady => exact h1 rfl
  | setStop => exact h2 rfl
  | initialise => exact h4 rfl
  | xwrite values len m =>
    simp only [State.perform, State.xwriteStep]
    exact h.portWrite hs _ _ fun _ _ hu => h.pop (h.setSt hu _)
  | xwriteByte value m =>
    simp only [State.perform, State.xwriteStep]
    exact h.portWrite hs _ _ fun _ _ hu => h.pop (h.setSt hu _)
  | xread buffer len => exact h3 _ _ rfl
  | xreadByte =>
    simp only [State.perform, State.xreadByteStep]
    exact h.portRead hs _ fun _ _ _ hu => h.pop (h.setSt (h.setR hu _) _)

/-- An atomic step, given those four at the head of the sequence. -/
theorem atomic (h : Stable R) (hs : R s) (h1 : ∀ rest, s.me.seq = .setReady :: rest → R (s.perform .setReady))
    (h2 : ∀ rest, s.me.seq = .setStop :: rest → R (s.perform .setStop))
    (h3 : ∀ b l rest, s.me.seq = .xread b l :: rest → R (s.perform (.xread b l)))
    (h4 : ∀ rest, s.me.seq = .initialise :: rest → R (s.perform .initialise)) : R s.atomic := by
  unfold State.atomic
  split
  · exact hs
  · split
    · exact h.finish hs
    · rename_i a rest hq
      exact h.perform hs a (fun ha => h1 rest (by rw [hq, ha])) (fun ha => h2 rest (by rw [hq, ha]))
        (fun b l ha => h3 b l rest (by rw [hq, ha])) fun ha => h4 rest (by rw [hq, ha])

end Stable

end Sys2Proof.Machine
end

