-- ==== Sys2Proof/Tests/Slice0.lean ====
section
/-! SUPPORT. Tests on fixed values, from the worked vectors of 95_test_vectors.md and the tables of 30_encoding.md, one step
each; and for each statement a concrete state that meets its hypotheses. -/

namespace Sys2Proof.Tests

set_option Elab.async false

open Sys2Proof.Machine

/-! ### Helpers -/

def cfg0 : BusConfig := { dev := { bus := 0, addr := 0x27#7 }, outMask := 0#8, transport := 0 }

def image (rs bl : Bool) (dt : Nib) : PortImage := { rs, rw := false, en := false, bl, dt }

/-- The state the vectors call READY0: image 0xC8. -/
def ready0 : Instance :=
  { Instance.fresh with img := image false true 0xC#4, life := .ready, cfg := some cfg0, delays := true }

/-- One instance, thread 0 about to run for `n` atomic steps, and the answers of the transport to come. -/
def atSteps (n : Nat) (i : Instance) (xs : List Xfer) : State :=
  { State.reset with
    insts := [(0, i)], turn := { tid := 0, steps := n }, env := { Env.fresh with xfers := xs } }

/-- The same with steps enough for most calls. -/
abbrev at0 (i : Instance) (xs : List Xfer) : State := atSteps 64 i xs

def ok : Xfer := .ok []

/-- What one call did: the new events, the values returned, the image's byte. -/
def did (i : Instr) (s : State) : Option (List EventBody × List RetVal × Byte) :=
  match exec i s with
  | .next t => some (t.trace.map Event.body, t.me.rets, packPort (t.inst 0).img)
  | .fault _ => none
  | .refused _ => none

def wr (bytes : List Byte) : EventBody := .wr cfg0.dev bytes .ok
def rd1 (b : Byte) : EventBody := .rd cfg0.dev 1 .ok [b]

/-! ### WellFormed: an ill-formed term for each check -/

def tooBig : Nat := 2 ^ 32

theorem test_wf_init : Instr.wf (.init tooBig) = false := by decide
theorem test_wf_start_bus : Instr.wf (.start { cfg0 with dev := { cfg0.dev with bus := tooBig } }) = false := by decide
theorem test_wf_start_transport : Instr.wf (.start { cfg0 with transport := tooBig }) = false := by decide
theorem test_wf_updatePattern_slot : Instr.wf (.updatePattern tooBig ⟨0, 8⟩) = false := by decide
theorem test_wf_updatePattern_base : Instr.wf (.updatePattern 0 ⟨tooBig, 8⟩) = false := by decide
theorem test_wf_updatePattern_size : Instr.wf (.updatePattern 0 ⟨0, tooBig⟩) = false := by decide
theorem test_wf_moveTo_row : Instr.wf (.moveTo tooBig 0) = false := by decide
theorem test_wf_moveTo_col : Instr.wf (.moveTo 0 tooBig) = false := by decide
theorem test_wf_drawText_row : Instr.wf (.drawText tooBig 0 ⟨0, 1⟩ 1) = false := by decide
theorem test_wf_drawText_col : Instr.wf (.drawText 0 tooBig ⟨0, 1⟩ 1) = false := by decide
theorem test_wf_drawText_text : Instr.wf (.drawText 0 0 ⟨0, tooBig⟩ 1) = false := by decide
theorem test_wf_drawText_len : Instr.wf (.drawText 0 0 ⟨0, 1⟩ tooBig) = false := by decide
theorem test_wf_readData : Instr.wf (.readData true tooBig) = false := by decide
theorem test_wf_setBacklight : Instr.wf (.setBacklight tooBig) = false := by decide
theorem test_wf_setPort_values : Instr.wf (.setPort ⟨tooBig, 1⟩ 1 true) = false := by decide
theorem test_wf_setPort_len : Instr.wf (.setPort ⟨0, 1⟩ tooBig true) = false := by decide
theorem test_wf_getPort_buffer : Instr.wf (.getPort ⟨0, tooBig⟩ 1) = false := by decide
theorem test_wf_getPort_len : Instr.wf (.getPort ⟨0, 1⟩ tooBig) = false := by decide
theorem test_wf_largest : Instr.wf (.moveTo (tooBig - 1) (tooBig - 1)) = true := by decide
theorem test_wf_layout_overlap : Layout.wf { Layout.d1 with bl := 4 } = false := by decide
theorem test_wf_layout_dt : Layout.wf { Layout.d1 with dt := 5 } = false := by decide
theorem test_wf_layout_double : Layout.wf { Layout.d1 with rs := 1 } = false := by decide
theorem test_wf_params_clear : Params.wf { Params.default with tClear := 1519 } = false := by decide
theorem test_wf_params_power : Params.wf { Params.default with tPower := 39999 } = false := by decide
theorem test_wf_params_default : Params.default.wf = true := by decide
theorem test_wf_mem_order : ¬ Memory.wf [(5, 1#8), (4, 1#8)] := by decide
theorem test_wf_mem_blank : ¬ Memory.wf [(5, 0#8)] := by decide

/-! ### Decoding: words written out from the tables -/

-- Format C rows (R107), as opcode-table words
theorem test_decode_clear_display : decodeTableWord 8 0b00000001 = some (.clearDisplayCmd .four) := by decide +kernel
theorem test_decode_return_home : decodeTableWord 8 0b00000010 = some (.returnHomeCmd .four) := by decide +kernel
theorem test_decode_entry : decodeTableWord 8 0b00000110 = some (.entryModeSetCmd true false .four) := by
  decide +kernel
theorem test_decode_display : decodeTableWord 8 0b00001001 = some (.displayControlCmd false false true .four) := by
  decide +kernel
theorem test_decode_shift : decodeTableWord 8 0b00010100 = some (.cursorDisplayShiftCmd false true .four) := by
  decide +kernel
theorem test_decode_function : decodeTableWord 8 0b00110100 = some (.functionSetCmd true false true .four) := by
  decide +kernel
theorem test_decode_cgram : decodeTableWord 8 0b01101010 = some (.setCgramAddrCmd 0b101010#6 .four) := by decide +kernel
theorem test_decode_ddram : decodeTableWord 8 0b11010101 = some (.setDdramAddrCmd 0b1010101#7 .four) := by decide +kernel
-- don't-care bits set (R120): call bytes, where the whole byte is the command
theorem test_decode_dont_care : decodeCall [0x40, 0b00111011, 1] = .ok (.functionSetCmd true true false .eight) := by
  decide +kernel
theorem test_decode_no_command : decodeCall [0x40, 0, 0] = .error .noCommand := by decide +kernel
-- Format B rows (R108): RW and RS select the row
theorem test_decode_bus_write_instr :
    decodeCall [0x50, 0b11111100, 0x28, 1, 2] = .ok (.busWriteInstr 0x28 .eight .home) := by decide +kernel
theorem test_decode_bus_write_data : decodeCall [0x50, 0b00001101, 0x41, 0] = .ok (.busWriteData 0x41 .four) := by
  decide +kernel
theorem test_decode_bus_read_status : decodeCall [0x50, 0b11111110, 1] = .ok (.busReadStatus .eight) := by decide +kernel
theorem test_decode_bus_read_data : decodeCall [0x50, 0b00000011, 0] = .ok (.busReadData .four) := by decide +kernel
-- Formats P, T, W4, W8, RS2, RI, BLW (R100 to R106)
theorem test_decode_port_byte :
    decodeCall [0x60, 0b10100101] = .ok (.portByte { dt := 0b1010, bl := false, en := true, rw := false, rs := true }) := by
  decide +kernel
theorem test_decode_triple : decodeCall [0x61, 0b01011010, 0b01011110, 0b01011010] =
    .ok (.nibbleTriple false true true 0b0101) := by decide +kernel
theorem test_decode_triple_broken : decodeCall [0x61, 0x5A, 0x5A, 0x5A] = .error .badBurst := by decide +kernel
theorem test_decode_burst4 : decodeTableWord 48 0x494D49191D19 = some (.writeBurst4 true true 0x41) := by decide +kernel
theorem test_decode_burst8 : decodeTableWord 24 0x313531 = some (.writeBurst8 true false 0x3) := by decide +kernel
theorem test_decode_read_setup : decodeTableWord 16 0xF3F7 = some (.readSetup true false) := by decide +kernel
theorem test_decode_read_idle : decodeTableWord 8 0xFA = some (.readIdle false true) := by decide +kernel
theorem test_decode_backlight_write : decodeCall [0x66, 0b00001000] = .ok (.backlightWrite true) := by decide +kernel
-- Formats H and X and the engine accesses: call bytes of the model's own (log 1, log 2), operands of R116 to R118
theorem test_decode_lifecycle : decodeCall [0x01, 7, 0, 0, 0] = .ok (.init 7) ∧
    decodeCall [0x02, 1, 0, 0, 0, 0x27, 0xF0, 2, 0, 0, 0] =
      .ok (.start { dev := { bus := 1, addr := 0x27 }, outMask := 0xF0, transport := 2 }) ∧
    decodeCall [0x03] = .ok .stop := by decide +kernel
theorem test_decode_display_calls : decodeCall [0x04, 1, 0, 1] = .ok (.setDisplay true false true) ∧
    decodeCall [0x05] = .ok .clear ∧ decodeCall [0x06] = .ok .returnHome ∧
    decodeCall [0x07, 0, 1] = .ok (.shift false true) := by decide +kernel
theorem test_decode_content_calls :
    decodeCall [0x08, 2, 0, 0, 0, 0x10, 0, 0, 0, 8, 0, 0, 0] = .ok (.updatePattern 2 ⟨0x10, 8⟩) ∧
    decodeCall [0x09, 0x48] = .ok (.writeChar 0x48) ∧ decodeCall [0x0A, 1, 0, 0, 0, 5, 0, 0, 0] = .ok (.moveTo 1 5) ∧
    decodeCall [0x0B, 1, 0, 0, 0, 2, 0, 0, 0, 0, 1, 0, 0, 4, 0, 0, 0, 3, 0, 0, 0] =
      .ok (.drawText 1 2 ⟨0x100, 4⟩ 3) := by decide +kernel
theorem test_decode_query_calls : decodeCall [0x0C, 1, 0x45, 0, 0, 0] = .ok (.readData true 0x45) ∧
    decodeCall [0x0D] = .ok .getStatus ∧ decodeCall [0x0E] = .ok .getBusy ∧ decodeCall [0x0F] = .ok .getAddress ∧
    decodeCall [0x10, 5, 0, 0, 0] = .ok (.setBacklight 5) ∧ decodeCall [0x11] = .ok .toggleBacklight := by decide +kernel
theorem test_decode_engine_calls : decodeCall [0x20, 0x28, 1, 1] = .ok (.writeInstr 0x28 .eight .clear) ∧
    decodeCall [0x21, 0x41] = .ok (.writeData 0x41) ∧ decodeCall [0x22] = .ok .readStatusReg ∧
    decodeCall [0x23] = .ok .readDataReg ∧ decodeCall [0x24, 1] = .ok (.blSet true) ∧
    decodeCall [0x25] = .ok .blToggle := by decide +kernel
theorem test_decode_expander_calls :
    decodeCall [0x30, 4, 0, 0, 0, 3, 0, 0, 0, 2, 0, 0, 0, 1] = .ok (.setPort ⟨4, 3⟩ 2 true) ∧
    decodeCall [0x31, 0x80, 0] = .ok (.setPortByte 0x80 false) ∧
    decodeCall [0x32, 4, 0, 0, 0, 3, 0, 0, 0, 2, 0, 0, 0] = .ok (.getPort ⟨4, 3⟩ 2) ∧
    decodeCall [0x33] = .ok .getPortByte := by decide +kernel
theorem test_decode_rejects : decodeCall [0x12] = .error (.unknownCall 0x12) ∧ decodeCall [] = .error .truncated ∧
    decodeCall [0x03, 0] = .error .trailing ∧ decodeCall [0x24, 2] = .error (.badOperand 2) := by decide +kernel

/-! ### Host calls (vectors G, C, A, P1) -/

/-- The 29 events of P1, its transfers having status `st` until the poll. -/
def p1Events (poll : List EventBody) (w : List Byte → EventBody) : List EventBody :=
  [.sleep 40000, w [0x38, 0x3C, 0x38], .sleep 37, .sleep 4100, w [0x38, 0x3C, 0x38], .sleep 37, .sleep 100,
   w [0x38, 0x3C, 0x38], .sleep 37, w [0x28, 0x2C, 0x28], .sleep 37, w [0x28, 0x2C, 0x28, 0x88, 0x8C, 0x88], .sleep 37,
   w [0x08, 0x0C, 0x08, 0x88, 0x8C, 0x88], .sleep 37, w [0x08, 0x0C, 0x08, 0x18, 0x1C, 0x18], .sleep 2000,
   w [0x08, 0x0C, 0x08, 0x68, 0x6C, 0x68], .sleep 37, w [0x08, 0x0C, 0x08, 0x28, 0x2C, 0x28], .sleep 2000] ++ poll ++
  [w [0x08, 0x0C, 0x08, 0xC8, 0xCC, 0xC8], .sleep 37]

/-- The state `init` leaves. -/
def initialised : Instance := Instance.fresh.initialised

theorem test_init_g1 : did (.init 0) (at0 .fresh []) = some ([], [.nothing], 0x08) := by decide +kernel
/-- R232: under OPERATION `init` holds the mutex and the marker after its first step. -/
theorem test_init_operation :
    (match exec (.init 0) (atSteps 1 { Instance.fresh with params := { Params.default with lock := .operation } } []) with
      | .next t => some (t.here.mutex, t.here.lcBusy, t.here.life, t.me.running)
      | .fault _ => none
      | .refused _ => none) = some (some 0, some 0, .uninit, true) := by decide +kernel
theorem test_init_g6 : did (.init 0) (at0 initialised []) = some ([.fatal .alreadyInit], [], 0x08) := by decide +kernel
theorem test_start_p1 :
    did (.start cfg0) (at0 initialised (List.replicate 10 ok ++ [.ok [0x8A], ok, .ok [0x3F], ok, ok])) =
      some (p1Events [wr [0xFA, 0xFE], rd1 0x8A, wr [0xFA, 0xFE], rd1 0x3F, wr [0xFA], .sleep 37] wr, [.nothing],
        0xC8) := by decide +kernel
theorem test_start_g18 : did (.start cfg0) (at0 initialised (List.replicate 11 .fail)) =
    some (p1Events [.wr cfg0.dev [0xFA, 0xFE] .fail] fun b => .wr cfg0.dev b .fail, [.nothing], 0xC8) := by
  decide +kernel
theorem test_stop_g13 : did .stop (at0 ready0 [ok, ok]) =
    some ([wr [0x08, 0x0C, 0x08, 0x88, 0x8C, 0x88], .sleep 37, wr [0x80]], [.nothing], 0x80) := by decide +kernel
theorem test_stop_g3 : did .stop (at0 .fresh []) = some ([.fatal .uninit], [], 0x00) := by decide +kernel
theorem test_setDisplay_c3 : did (.setDisplay true true false) (at0 ready0 [ok]) =
    some ([wr [0x08, 0x0C, 0x08, 0xE8, 0xEC, 0xE8], .sleep 37], [.nothing], 0xE8) := by decide +kernel
theorem test_setDisplay_g4 : did (.setDisplay true false false) (at0 .fresh []) = some ([.fatal .notReady], [], 0x00) := by
  decide +kernel
theorem test_clear_c4 : did .clear (at0 ready0 [ok]) =
    some ([wr [0x08, 0x0C, 0x08, 0x18, 0x1C, 0x18], .sleep 2000], [.nothing], 0x18) := by decide +kernel
theorem test_clear_g7 : did .clear (at0 initialised []) = some ([.fatal .notReady], [], 0x08) := by decide +kernel
theorem test_returnHome_c5 : did .returnHome (at0 ready0 [ok]) =
    some ([wr [0x08, 0x0C, 0x08, 0x28, 0x2C, 0x28], .sleep 2000], [.nothing], 0x28) := by decide +kernel
theorem test_shift_c7 : did (.shift false true) (at0 ready0 [ok]) =
    some ([wr [0x18, 0x1C, 0x18, 0x48, 0x4C, 0x48], .sleep 37], [.nothing], 0x48) := by decide +kernel
theorem test_shift_c8 : did (.shift true false) (at0 ready0 [ok]) =
    some ([wr [0x18, 0x1C, 0x18, 0x88, 0x8C, 0x88], .sleep 37], [.nothing], 0x88) := by decide +kernel
/-- C11 and C12: slot 9 is slot 1; the pattern's first two bytes are 0x1F and 0x11. -/
theorem test_updatePattern_c11 :
    (did (.updatePattern 9 ⟨16, 8⟩) { at0 ready0 (List.replicate 9 ok) with mem := [(16, 0x1F), (17, 0x11)] }).map
      (fun d => (d.1.take 6, d.1.length)) =
    some ([wr [0x48, 0x4C, 0x48, 0x88, 0x8C, 0x88], .sleep 37, wr [0x19, 0x1D, 0x19, 0xF9, 0xFD, 0xF9], .sleep 37,
      wr [0x19, 0x1D, 0x19, 0x19, 0x1D, 0x19], .sleep 37], 18) := by decide +kernel
theorem test_writeChar_c14 : did (.writeChar 0x48) (at0 ready0 [ok]) =
    some ([wr [0x49, 0x4D, 0x49, 0x89, 0x8D, 0x89], .sleep 37], [.nothing], 0x89) := by decide +kernel
theorem test_moveTo_a6 : did (.moveTo 0 200) (at0 ready0 [ok]) =
    some ([wr [0xC8, 0xCC, 0xC8, 0x88, 0x8C, 0x88], .sleep 37], [.nothing], 0x88) := by decide +kernel
theorem test_moveTo_a5 : did (.moveTo 2 0) (at0 ready0 [ok]) =
    some ([wr [0x88, 0x8C, 0x88, 0x08, 0x0C, 0x08], .sleep 37], [.nothing], 0x08) := by decide +kernel
theorem test_drawText_c18 :
    did (.drawText 0 0 ⟨8, 3⟩ 3) { at0 ready0 (List.replicate 4 ok) with mem := [(8, 0x41), (10, 0x42)] } =
      some ([wr [0x88, 0x8C, 0x88, 0x08, 0x0C, 0x08], .sleep 37, wr [0x49, 0x4D, 0x49, 0x19, 0x1D, 0x19], .sleep 37,
        wr [0x09, 0x0D, 0x09, 0x09, 0x0D, 0x09], .sleep 37, wr [0x49, 0x4D, 0x49, 0x29, 0x2D, 0x29], .sleep 37],
        [.count 3], 0x29) := by decide +kernel
/-- C17: twenty bytes are cut to sixteen. -/
theorem test_drawText_c17 :
    (did (.drawText 1 0 ⟨0, 20⟩ 20)
      { at0 ready0 (List.replicate 17 ok) with turn := { tid := 0, steps := 128 } }).map (fun d => (d.1.length, d.2.1)) =
      some (34, [.count 16]) := by decide +kernel
theorem test_readData_c19 : did (.readData true 0x45) (at0 ready0 [ok, ok, .ok [0x4B], ok, .ok [0x1B], ok]) =
    some ([wr [0xC8, 0xCC, 0xC8, 0x58, 0x5C, 0x58], .sleep 37, wr [0xFB, 0xFF], rd1 0x4B, wr [0xFB, 0xFF], rd1 0x1B,
      wr [0xFB]], [.statusByte .ok (some 0x41)], 0xFB) := by decide +kernel
theorem test_readData_a11 : (did (.readData false 0x40) (at0 ready0 [ok, ok, .fail])).map (fun d => (d.1, d.2.1)) =
    some ([wr [0x48, 0x4C, 0x48, 0x08, 0x0C, 0x08], .sleep 37, wr [0xFB, 0xFF], .rd cfg0.dev 1 .fail []],
      [.statusByte .fail none]) := by decide +kernel
theorem test_getStatus_c22 : did .getStatus (at0 ready0 [ok, .ok [0x8A], ok, .ok [0x3F], ok]) =
    some ([wr [0xFA, 0xFE], rd1 0x8A, wr [0xFA, 0xFE], rd1 0x3F, wr [0xFA], .sleep 37],
      [.busyAddr .ok (some (true, 0x03))], 0xFA) := by decide +kernel
theorem test_getStatus_c25 : did .getStatus (at0 ready0 [ok, .fail]) =
    some ([wr [0xFA, 0xFE], .rd cfg0.dev 1 .fail []], [.busyAddr .fail none], 0xFE) := by decide +kernel
theorem test_getBusy_c26 : (did .getBusy (at0 ready0 [ok, .ok [0x8A], ok, .ok [0x3F], ok])).map (·.2.1) =
    some [.busy .ok (some true)] := by decide +kernel
theorem test_getAddress_c28 : (did .getAddress (at0 ready0 [ok, .ok [0xFF], ok, .ok [0xFF], ok])).map (·.2.1) =
    some [.byte 0x7F] := by decide +kernel
theorem test_getAddress_c29 : (did .getAddress (at0 ready0 [ok, .fail])).map (·.2.1) = some [.byte 0xFF] := by
  decide +kernel
theorem test_setBacklight_c31 : did (.setBacklight 5) (at0 ready0 [ok]) = some ([wr [0xC8]], [.nothing], 0xC8) := by
  decide +kernel
theorem test_setBacklight_g8 : did (.setBacklight 1) (at0 initialised []) = some ([.fatal .noConfig], [], 0x08) := by
  decide +kernel
theorem test_toggleBacklight_c32 : did .toggleBacklight (at0 ready0 [ok]) = some ([wr [0xC0]], [.nothing], 0xC0) := by
  decide +kernel

/-! ### Engine accesses (vectors W, R, B) -/

/-- The instance right after `init` and a configuration: image 0x08. -/
def bound0 : Instance := { initialised with cfg := some cfg0 }

theorem test_writeInstr_w10 : did (.writeInstr 0x28 .four .short) (at0 bound0 [.fail]) =
    some ([.wr cfg0.dev [0x28, 0x2C, 0x28, 0x88, 0x8C, 0x88] .fail, .sleep 37], [.nothing], 0x88) := by decide +kernel
theorem test_writeInstr_w13 : did (.writeInstr 0x3F .eight .short) (at0 bound0 [ok]) =
    some ([wr [0x38, 0x3C, 0x38], .sleep 37], [.nothing], 0x38) := by decide +kernel
/-- W9: after a read the first byte already has RW = 0. -/
theorem test_writeData_w9 :
    did (.writeData 0x20) (at0 { bound0 with img := { image false true 0xF with rw := true } } [ok]) =
      some ([wr [0x29, 0x2D, 0x29, 0x09, 0x0D, 0x09], .sleep 37], [.nothing], 0x09) := by decide +kernel
/-- W11: the mask reaches the wire, not the image. -/
theorem test_writeData_mask :
    did (.writeInstr 0x0C .four .short)
      (at0 { bound0 with img := image false false 0, cfg := some { cfg0 with outMask := 0x08 } } [ok]) =
      some ([wr [0x08, 0x0C, 0x08, 0xC8, 0xCC, 0xC8], .sleep 37], [.nothing], 0xC0) := by decide +kernel
theorem test_readStatusReg_r9 : did .readStatusReg (at0 ready0 [ok, .ok [0x8F], ok, .ok [0x30], ok]) =
    some ([wr [0xFA, 0xFE], rd1 0x8F, wr [0xFA, 0xFE], rd1 0x30, wr [0xFA], .sleep 37],
      [.statusByte .ok (some 0x83)], 0xFA) := by decide +kernel
theorem test_readStatusReg_r6 : did .readStatusReg (at0 ready0 [ok, .ok [0x8A], .fail]) =
    some ([wr [0xFA, 0xFE], rd1 0x8A, .wr cfg0.dev [0xFA, 0xFE] .fail], [.statusByte .fail none], 0xFE) := by
  decide +kernel
theorem test_readDataReg_r2 : did .readDataReg (at0 ready0 [ok, .ok [0x4B], ok, .ok [0x1B], ok]) =
    some ([wr [0xFB, 0xFF], rd1 0x4B, wr [0xFB, 0xFF], rd1 0x1B, wr [0xFB]], [.statusByte .ok (some 0x41)], 0xFB) := by
  decide +kernel
theorem test_readDataReg_r7 : did .readDataReg (at0 ready0 [ok, .ok [0x8A], ok, .fail]) =
    some ([wr [0xFB, 0xFF], rd1 0x8A, wr [0xFB, 0xFF], .rd cfg0.dev 1 .fail []], [.statusByte .fail none], 0xFF) := by
  decide +kernel
/-- B3: after a read the other bits are those of the read. -/
theorem test_blSet_b3 : did (.blSet false) (at0 { bound0 with img := { image false true 0xF with rw := true } } [ok]) =
    some ([wr [0xF2]], [.nothing], 0xF2) := by decide +kernel
theorem test_blToggle_b2 : did .blToggle (at0 { bound0 with img := image false false 0x8 } [ok]) =
    some ([wr [0x88]], [.nothing], 0x88) := by decide +kernel

/-- Thread 1 stands before W_SEND of `writeAccess(0, 0x28, 4, SHORT)`, holding the mutex (B7). -/
def insideWrite : Thread :=
  { Thread.idle with running := true, seq := [.write .send false 0x28 .four .short], before := image false true 0 }

/-- B7: the choice picks one of the images of 0x08, 0x28, 0x2C, 0x28, 0x88, 0x8C, 0x88, here the third, with BL clear;
the overlapped access is marked. -/
theorem test_blSet_b7 :
    (match exec (.blSet false)
        { at0 { bound0 with mutex := some 1 } [ok] with
          threads := [(1, insideWrite)], env := { Env.fresh with xfers := [ok], choices := [2] } } with
      | .next t => some (t.trace.map Event.body, (t.thread 1).race, t.me.rets)
      | .fault _ => none
      | .refused _ => none) = some ([wr [0x24]], true, [.nothing]) := by decide +kernel

/-- Under OPERATION another access may have changed the image to 0x49 inside it: R178's byte of the image as it stands,
BL clear, is admitted after R181's seven (log 16). -/
theorem test_blSet_operation :
    (match exec (.blSet false)
        { at0 { bound0 with params := { bound0.params with lock := .operation }, img := image true true 4 } [ok] with
          threads := [(1, insideWrite)], env := { Env.fresh with xfers := [ok], choices := [7] } } with
      | .next t => some (t.trace.map Event.body)
      | .fault _ => none
      | .refused _ => none) = some [wr [0x41]] := by decide +kernel

/-- Thread 1 at a position of `getStatus`, which holds the mutex under OPERATION; its first setup has been queued. The
image is as a direct `writeData` of low nibble 4 left it, and `threads` are the other threads. -/
def insideStatus (pos : RPos) (threads : List (Nat × Thread)) : State :=
  { at0 { bound0 with params := { bound0.params with lock := .operation }, img := image true true 4,
                      mutex := some 1 } [ok] with
    threads := (1, { Thread.idle with running := true, seq := [.read pos false .four, .opRel],
                                      before := image false true 0, queued := setupBurst true false }) :: threads
    env := { Env.fresh with xfers := [ok], choices := [4] } }

/-- At R_SETUP_LO the read queues 0x49 and 0x4D (R166): the choice takes the latter, and BL is cleared. -/
theorem test_blToggle_operation :
    (match exec .blToggle (insideStatus .setupLo []) with
      | .next t => some (t.trace.map Event.body)
      | .fault _ => none
      | .refused _ => none) = some [wr [0x45]] := by decide +kernel

/-- The bytes a backlight step draws from (R181 item 1), and last the image as it stands (R178): at R_SETTLE with no batch
to come; at R_CAP_LO with a direct `writeData(0x35)` of thread 2 still to come, which puts DT = 5 in place. -/
theorem test_overlap_images :
    let bytes (s : State) := s.overlapImages.map (serialize .d1)
    bytes (insideStatus .settle []) = [0x08, 0xFA, 0xFE, 0x49] ∧
    bytes (insideStatus .capLo []) = [0x08, 0xFA, 0xFE, 0x49, 0x49] ∧
    bytes (insideStatus .capLo [(2, { Thread.idle with calls := [⟨0, encode (.writeData 0x35)⟩] })]) =
      [0x08, 0xFA, 0xFE, 0x49, 0x51, 0x49] := by decide +kernel

/-! ### Expander calls (vectors E) -/

def masked01 : Instance := { bound0 with cfg := some { cfg0 with outMask := 0x01 } }

theorem test_setPort_e2 :
    did (.setPort ⟨4, 3⟩ 3 true) { at0 masked01 [ok] with mem := [(4, 0x38), (5, 0x3C), (6, 0x38)] } =
      some ([wr [0x39, 0x3D, 0x39]], [.status .ok], 0x08) := by decide +kernel
theorem test_setPort_e12 : exec (.setPort ⟨4, 3⟩ 0 true) (at0 bound0 [ok]) = .refused .badLength := rfl
theorem test_setPortByte_e5 : did (.setPortByte 0x80 true) (at0 bound0 [.fail]) =
    some ([.wr cfg0.dev [0x80] .fail], [.status .fail], 0x08) := by decide +kernel
theorem test_setPortByte_e13 : did (.setPortByte 0 true) (at0 initialised []) = some ([.fatal .noConfig], [], 0x08) := by
  decide +kernel
theorem test_getPort_e7 :
    (match exec (.getPort ⟨4, 2⟩ 2) (at0 bound0 [.ok [0x12, 0x34]]) with
      | .next t => some (t.mem, t.trace.map Event.body, t.me.rets)
      | .fault _ => none
      | .refused _ => none) =
      some ([(4, 0x12), (5, 0x34)], [.rd cfg0.dev 2 .ok [0x12, 0x34]], [.status .ok]) := by decide +kernel
theorem test_getPort_e8 :
    (match exec (.getPort ⟨4, 1⟩ 1) { at0 bound0 [.fail] with mem := [(4, 0xAA)] } with
      | .next t => some (t.mem, t.me.rets)
      | .fault _ => none
      | .refused _ => none) = some ([(4, 0xAA)], [.status .fail]) := by decide +kernel
theorem test_getPortByte_e11 :
    did .getPortByte (at0 { bound0 with cfg := some { cfg0 with outMask := 0xFF } } [.ok [0x00]]) =
      some ([rd1 0x00], [.statusByte .ok (some 0x00)], 0x08) := by decide +kernel
theorem test_getPortByte_e10 : did .getPortByte (at0 bound0 [.fail]) =
    some ([.rd cfg0.dev 1 .fail []], [.statusByte .fail none], 0x08) := by decide +kernel

/-! ### Command bytes, bus cycles, port bytes and bursts -/

theorem test_clearDisplay_w3 : did (.clearDisplayCmd .four) (at0 bound0 [ok]) =
    some ([wr [0x08, 0x0C, 0x08, 0x18, 0x1C, 0x18], .sleep 2000], [.nothing], 0x18) := by decide +kernel
theorem test_returnHome_w4 : did (.returnHomeCmd .four) (at0 bound0 [ok]) =
    some ([wr [0x08, 0x0C, 0x08, 0x28, 0x2C, 0x28], .sleep 2000], [.nothing], 0x28) := by decide +kernel
theorem test_entryMode_p1 : did (.entryModeSetCmd true false .four) (at0 bound0 [ok]) =
    some ([wr [0x08, 0x0C, 0x08, 0x68, 0x6C, 0x68], .sleep 37], [.nothing], 0x68) := by decide +kernel
theorem test_displayControl_w8 :
    did (.displayControlCmd true false false .four) (at0 { bound0 with img := image false false 0 } [ok]) =
      some ([wr [0x00, 0x04, 0x00, 0xC0, 0xC4, 0xC0], .sleep 37], [.nothing], 0xC0) := by decide +kernel
theorem test_cursorShift_c7 : did (.cursorDisplayShiftCmd false true .four) (at0 bound0 [ok]) =
    some ([wr [0x18, 0x1C, 0x18, 0x48, 0x4C, 0x48], .sleep 37], [.nothing], 0x48) := by decide +kernel
theorem test_functionSet_w5 : did (.functionSetCmd true false false .eight) (at0 bound0 [ok]) =
    some ([wr [0x38, 0x3C, 0x38], .sleep 37], [.nothing], 0x38) := by decide +kernel
theorem test_functionSet_w1 : did (.functionSetCmd false true false .four) (at0 bound0 [ok]) =
    some ([wr [0x28, 0x2C, 0x28, 0x88, 0x8C, 0x88], .sleep 37], [.nothing], 0x88) := by decide +kernel
theorem test_setCgramAddr_c10 : did (.setCgramAddrCmd 0x10 .four) (at0 bound0 [ok]) =
    some ([wr [0x58, 0x5C, 0x58, 0x08, 0x0C, 0x08], .sleep 37], [.nothing], 0x08) := by decide +kernel
theorem test_setDdramAddr_a3 : did (.setDdramAddrCmd 0x4F .four) (at0 bound0 [ok]) =
    some ([wr [0xC8, 0xCC, 0xC8, 0xF8, 0xFC, 0xF8], .sleep 37], [.nothing], 0xF8) := by decide +kernel
theorem test_busWriteInstr_w7 : did (.busWriteInstr 0xFF .four .short) (at0 bound0 [ok]) =
    some ([wr [0xF8, 0xFC, 0xF8, 0xF8, 0xFC, 0xF8], .sleep 37], [.nothing], 0xF8) := by decide +kernel
theorem test_busWriteData_w2 : did (.busWriteData 0x41 .four) (at0 bound0 [ok]) =
    some ([wr [0x49, 0x4D, 0x49, 0x19, 0x1D, 0x19], .sleep 37], [.nothing], 0x19) := by decide +kernel
theorem test_busReadStatus_r3 : did (.busReadStatus .eight) (at0 ready0 [ok, .ok [0x5F], ok]) =
    some ([wr [0xFA, 0xFE], rd1 0x5F, wr [0xFA], .sleep 37], [.statusByte .ok (some 0x50)], 0xFA) := by decide +kernel
theorem test_busReadData_r2 : did (.busReadData .four) (at0 ready0 [ok, .ok [0x4B], ok, .ok [0x1B], ok]) =
    some ([wr [0xFB, 0xFF], rd1 0x4B, wr [0xFB, 0xFF], rd1 0x1B, wr [0xFB]], [.statusByte .ok (some 0x41)], 0xFB) := by
  decide +kernel
theorem test_portByte_r100 :
    did (.portByte { dt := 0xA, bl := false, en := true, rw := false, rs := true }) (at0 bound0 [ok]) =
      some ([wr [0xA5]], [.status .ok], 0xA5) := by decide +kernel
theorem test_nibbleTriple_r101 : did (.nibbleTriple true false true 0x4) (at0 bound0 [ok]) =
    some ([wr [0x49, 0x4D, 0x49]], [.status .ok], 0x49) := by decide +kernel
theorem test_writeBurst4_w2 : did (.writeBurst4 true true 0x41) (at0 bound0 [.fail]) =
    some ([.wr cfg0.dev [0x49, 0x4D, 0x49, 0x19, 0x1D, 0x19] .fail], [.status .fail], 0x19) := by decide +kernel
theorem test_writeBurst8_w5 : did (.writeBurst8 false true 0x3) (at0 bound0 [ok]) =
    some ([wr [0x38, 0x3C, 0x38]], [.status .ok], 0x38) := by decide +kernel
theorem test_readSetup_r10 : did (.readSetup false false) (at0 bound0 [ok]) =
    some ([wr [0xF2, 0xF6]], [.status .ok], 0xF6) := by decide +kernel
theorem test_readIdle_r2 : did (.readIdle true true) (at0 bound0 [ok]) =
    some ([wr [0xFB]], [.status .ok], 0xFB) := by decide +kernel
theorem test_backlightWrite_b1 : did (.backlightWrite false) (at0 { bound0 with img := image false true 0x8 } [ok]) =
    some ([wr [0x80]], [.nothing], 0x80) := by decide +kernel

/-! ### Threads, Fatal, hang -/

/-- G11: a call while `start` is in progress. -/
theorem test_race_g11 : did .getStatus (at0 { bound0 with lcBusy := some 1 } []) =
    some ([.fatal .lifecycleRace], [], 0x08) := by decide +kernel
/-- G12: a lifecycle call while another call is in progress. -/
theorem test_race_g12 : did .stop { at0 ready0 [] with threads := [(1, insideWrite)] } =
    some ([.fatal .lifecycleRace], [], 0xC8) := by decide +kernel
/-- R253: nothing runs in a faulted process. -/
theorem test_faulted : step { at0 ready0 [] with fatal := some .noConfig } = .fault (.processEnded .noConfig) := rfl
/-- R149: a transfer that hangs leaves the mutex held. -/
theorem test_hang :
    (match exec (.writeData 0x41) (at0 ready0 [.hang]) with
      | .next t => some ((t.inst 0).mutex, t.me.running, t.me.hung, t.trace)
      | .fault _ => none
      | .refused _ => none) = some (some 0, true, true, []) := by decide +kernel
/-- The first step after reset with a word placed runs it: READ_SETUP on an instance that is not configured. -/
theorem test_placed_word :
    (match step (State.reset.withFetchWord 16 0xFAFE) with
      | .next t => some (t.trace, t.fatal)
      | .fault _ => none
      | .refused _ => none) = some ([{ tid := 0, inst := 0, body := .fatal .noConfig }], some .noConfig) := by
  decide +kernel

/-! ### Witnesses: for every statement with hypotheses, a state and operands that meet them -/

theorem canCall_atSteps (n : Nat) (i : Instance) (xs : List Xfer) (hb : i.lcBusy = none) (hw : i.waiters = []) :
    (atSteps n i xs).CanCall :=
  ⟨rfl, rfl, hb, by show 0 ∉ i.waiters; simp [hw]⟩

theorem bound_atSteps (n : Nat) (i : Instance) (xs : List Xfer) (c : BusConfig) (hb : i.lcBusy = none)
    (hw : i.waiters = []) (hc : i.cfg = some c) : (atSteps n i xs).Bound c :=
  { canCall_atSteps n i xs hb hw with cfg := hc }

theorem free_atSteps (n : Nat) (i : Instance) (xs : List Xfer) (c : BusConfig) (hb : i.lcBusy = none)
    (hw : i.waiters = []) (hc : i.cfg = some c) (hm : i.mutex = none) : (atSteps n i xs).Free c :=
  { bound_atSteps n i xs c hb hw hc with mutex := hm }

/-- Whether an outcome is a next state. -/
def isNext : Host.Outcome State Fault Refusal → Bool
  | .next _ => true
  | .fault _ => false
  | .refused _ => false

theorem exists_next {o : Host.Outcome State Fault Refusal} (h : isNext o = true) : ∃ t, o = .next t := by
  cases o with
  | next t => exact ⟨t, rfl⟩
  | fault f => cases h
  | refused r => cases h

/-- The answers of a bring-up that succeeds. -/
def p1Xfers : List Xfer := List.replicate 10 ok ++ [.ok [0x8A], ok, .ok [0x3F], ok, ok]

/-- A legal layout other than D1's, DT at the bottom. -/
def layoutUp : Layout := { rs := 7, rw := 6, en := 5, bl := 4, dt := 0 }

theorem witness_DecodeOfEncodeIsTheCall : Instr.wf (.drawText (tooBig - 1) 0 ⟨tooBig - 1, 0⟩ (tooBig - 1)) = true := by
  decide
theorem witness_DecodedCallIsWellFormed : decode [0x66, 0x08, 0xAA] = .ok (.backlightWrite true, [0xAA]) := by
  decide +kernel
theorem witness_PortByteOfImage : layoutUp.wf = true ∧ Layout.d1.wf = true ∧
    serialize layoutUp (image true true 0xF) = serialize layoutUp (image true true 0xF) := by decide +kernel
theorem witness_BurstBytes : Params.default.layout = .d1 := rfl
theorem witness_EnablePulse : layoutUp.wf = true ∧ Layout.d1.wf = true := by decide +kernel
theorem witness_FreshAndInitialisedValues : (at0 .fresh []).firstFailing (.init 0) = none ∧ (at0 .fresh []).fatal = none ∧
    (at0 .fresh []).me.hung = false ∧ (at0 .fresh []).here.mutex = none ∧ 2 ≤ (at0 .fresh []).turn.steps := by
  decide +kernel
theorem witness_InitCompletes_uninit : (at0 .fresh []).CanCall ∧
    (at0 .fresh []).otherInside (at0 .fresh []).me.inst = false ∧ (at0 .fresh []).here.life = .uninit ∧
    (at0 .fresh []).here.mutex = none ∧ 2 ≤ (at0 .fresh []).turn.steps :=
  ⟨canCall_atSteps _ _ _ rfl rfl, by decide +kernel⟩
theorem witness_InitCompletes_again : (at0 ready0 []).CanCall ∧
    (at0 ready0 []).otherInside (at0 ready0 []).me.inst = false ∧ (at0 ready0 []).here.life ≠ .uninit :=
  ⟨canCall_atSteps _ _ _ rfl rfl, by decide +kernel⟩
theorem witness_StartPerformsTheBringUp_poll :
    let s := atSteps 54 initialised p1Xfers
    s.CanCall ∧ (s.otherInside s.me.inst = false ∧ s.here.life ≠ .uninit ∧ s.here.mutex = none ∧ 54 ≤ s.turn.steps ∧
      ∀ j, j < 9 → s.statusAt j = some .ok) ∧ s.reads 9 .four .ok ∧ s.statusAt 14 = some .ok :=
  ⟨canCall_atSteps _ _ _ rfl rfl, by decide +kernel, by unfold State.reads; decide +kernel, by decide +kernel⟩
theorem witness_StartPerformsTheBringUp_abort :
    let s := atSteps 54 initialised (List.replicate 12 ok ++ [.fail, .fail])
    let u := atSteps 54 initialised (List.replicate 11 .fail)
    s.CanCall ∧ u.CanCall ∧ (∀ j, j < 9 → s.statusAt j = some .ok ∧ u.statusAt j = some .fail) ∧
      s.failsAt 9 .four 3 ∧ u.failsAt 9 .four 0 ∧ s.statusAt 13 = some .fail ∧ u.statusAt 10 = some .fail :=
  ⟨canCall_atSteps _ _ _ rfl rfl, canCall_atSteps _ _ _ rfl rfl, by decide +kernel,
    by unfold State.failsAt; decide +kernel, by unfold State.failsAt; decide +kernel, by decide +kernel⟩
theorem witness_StartEndsReady :
    let s := atSteps 54 initialised p1Xfers
    s.CanCall ∧ s.otherInside s.me.inst = false ∧ s.here.life ≠ .uninit ∧ s.here.mutex = none ∧ 54 ≤ s.turn.steps ∧
      ∀ j, j < 15 → s.statusAt j ≠ none :=
  ⟨canCall_atSteps _ _ _ rfl rfl, by decide +kernel⟩
theorem witness_StopCompletes :
    let s := atSteps 8 ready0 [ok, .fail]
    s.Free cfg0 ∧ s.otherInside s.me.inst = false ∧ s.here.life ≠ .uninit ∧ 8 ≤ s.turn.steps ∧
      s.statusAt 0 = some .ok ∧ s.statusAt 1 = some .fail :=
  ⟨free_atSteps _ _ _ _ rfl rfl rfl rfl, by decide +kernel⟩
theorem witness_OneWriteOperationsComplete_stop : (at0 initialised []).CanCall ∧
    (at0 initialised []).here.life ≠ .ready ∧ (hostWrite Params.default .clear).isSome = true :=
  ⟨canCall_atSteps _ _ _ rfl rfl, by decide +kernel⟩
theorem witness_OneWriteOperationsComplete_ready :
    let s := atSteps 6 ready0 [.fail]
    s.Free cfg0 ∧ s.here.life = .ready ∧ 6 ≤ s.turn.steps ∧ s.statusAt 0 = some .fail ∧
      ∀ i ∈ [.setDisplay true false true, .clear, .returnHome, .shift true false, .writeChar 0xFF, .moveTo 1 200],
        (hostWrite s.params i).isSome = true :=
  ⟨free_atSteps _ _ _ _ rfl rfl rfl rfl, by decide +kernel⟩
theorem witness_UpdatePatternCompletes :
    let s := atSteps 46 ready0 (List.replicate 9 ok)
    s.here.life = .ready ∧ s.Free cfg0 ∧ 46 ≤ s.turn.steps ∧ ∀ j, j < 9 → s.statusAt j = some .ok :=
  ⟨rfl, free_atSteps _ _ _ _ rfl rfl rfl rfl, by decide +kernel⟩
theorem witness_DrawTextCompletes_empty :
    let s := atSteps 6 ready0 [ok]
    s.here.life = .ready ∧ s.Free cfg0 ∧ 6 + 5 * min s.params.maxLine 0 ≤ s.turn.steps ∧
      ∀ j, j < min s.params.maxLine 0 + 1 → s.statusAt j = some .ok :=
  ⟨rfl, free_atSteps _ _ _ _ rfl rfl rfl rfl, by decide +kernel⟩
theorem witness_DrawTextCompletes_cut :
    let s := atSteps 86 ready0 (List.replicate 17 .fail)
    s.here.life = .ready ∧ s.Free cfg0 ∧ 6 + 5 * min s.params.maxLine 20 ≤ s.turn.steps ∧
      ∀ j, j < min s.params.maxLine 20 + 1 → s.statusAt j = some .fail :=
  ⟨rfl, free_atSteps _ _ _ _ rfl rfl rfl rfl, by decide +kernel⟩
theorem witness_ReadDataCompletes :
    let s := atSteps 14 ready0 [.fail, ok, ok, ok, ok, .fail]
    let u := atSteps 14 ready0 [ok, ok, ok, ok, .fail]
    s.Free cfg0 ∧ u.Free cfg0 ∧ (s.here.life = .ready ∧ u.here.life = .ready ∧ s.statusAt 0 = some .fail ∧
      u.statusAt 0 = some .ok ∧ 14 ≤ s.turn.steps) ∧ s.reads 1 .four .fail ∧ u.failsAt 1 .four 3 :=
  ⟨free_atSteps _ _ _ _ rfl rfl rfl rfl, free_atSteps _ _ _ _ rfl rfl rfl rfl, by decide +kernel,
    by unfold State.reads; decide +kernel, by unfold State.failsAt; decide +kernel⟩
theorem witness_StatusQueriesComplete :
    let s := atSteps 10 ready0 [ok, ok, ok, ok, .fail]
    let u := atSteps 10 ready0 [ok, ok, ok, .fail]
    s.Free cfg0 ∧ u.Free cfg0 ∧ s.reads 0 .four .fail ∧ u.failsAt 0 .four 3 ∧ 10 ≤ s.turn.steps ∧
      ∀ i ∈ [Instr.getStatus, .getBusy, .getAddress],
        (queryReturn i (some 0x83)).isSome = true ∧ (queryReturn i none).isSome = true :=
  ⟨free_atSteps _ _ _ _ rfl rfl rfl rfl, free_atSteps _ _ _ _ rfl rfl rfl rfl, by unfold State.reads; decide +kernel,
    by unfold State.failsAt; decide +kernel, by decide +kernel⟩
theorem witness_WriteAccessesComplete :
    let s := atSteps 4 bound0 [.fail]
    s.Bound cfg0 ∧ s.accessFree ∧ 4 ≤ s.turn.steps ∧ s.statusAt 0 = some .fail ∧
      ∀ i ∈ [.writeInstr 0xFF .eight .home, .writeData 0, .busWriteInstr 1 .four .clear, .busWriteData 2 .eight,
        .clearDisplayCmd .four, .returnHomeCmd .eight, .entryModeSetCmd true true .four,
        .displayControlCmd true true true .four, .cursorDisplayShiftCmd true true .four,
        .functionSetCmd true true true .eight, .setCgramAddrCmd 0x3F .four, .setDdramAddrCmd 0x7F .eight],
        (engineWrite i).isSome = true :=
  ⟨bound_atSteps _ _ _ _ rfl rfl rfl, by unfold State.accessFree; decide +kernel, by decide +kernel⟩
theorem witness_ReadAccessesComplete :
    let s := atSteps 8 bound0 [ok, ok, ok, ok, .fail]
    let u := atSteps 8 bound0 [ok, ok, .fail]
    s.Bound cfg0 ∧ u.Bound cfg0 ∧ s.accessFree ∧ u.accessFree ∧ s.reads 0 .four .fail ∧ u.reads 0 .eight .fail ∧
      8 ≤ s.turn.steps ∧ engineRead .readDataReg = some (true, .four) ∧
      engineRead (.busReadStatus .eight) = some (false, .eight) :=
  ⟨bound_atSteps _ _ _ _ rfl rfl rfl, bound_atSteps _ _ _ _ rfl rfl rfl, by unfold State.accessFree; decide +kernel,
    by unfold State.accessFree; decide +kernel, by unfold State.reads; decide +kernel,
    by unfold State.reads; decide +kernel, by decide +kernel⟩
theorem witness_ReadAccessesAbort :
    let s := atSteps 6 bound0 [ok, ok, ok, .fail]
    let u := atSteps 6 bound0 [.fail]
    s.Bound cfg0 ∧ u.Bound cfg0 ∧ s.accessFree ∧ u.accessFree ∧ s.failsAt 0 .four 3 ∧ u.failsAt 0 .eight 0 ∧
      6 ≤ s.turn.steps ∧ engineRead .readStatusReg = some (false, .four) ∧
      engineRead (.busReadData .eight) = some (true, .eight) :=
  ⟨bound_atSteps _ _ _ _ rfl rfl rfl, bound_atSteps _ _ _ _ rfl rfl rfl, by unfold State.accessFree; decide +kernel,
    by unfold State.accessFree; decide +kernel, by unfold State.failsAt; decide +kernel,
    by unfold State.failsAt; decide +kernel, by decide +kernel⟩
theorem witness_BacklightCallsComplete :
    let s := atSteps 2 { bound0 with mutex := some 1 } [.fail]
    s.Bound cfg0 ∧ s.noOverlap ∧ 2 ≤ s.turn.steps ∧ s.statusAt 0 = some .fail ∧
      backlightLevel s.img.bl (.setBacklight 5) = some true ∧ backlightLevel s.img.bl .toggleBacklight = some false ∧
      backlightLevel s.img.bl (.blSet true) = some true ∧ backlightLevel s.img.bl .blToggle = some false ∧
      backlightLevel s.img.bl (.backlightWrite false) = some false :=
  ⟨bound_atSteps _ _ _ _ rfl rfl rfl, by unfold State.noOverlap; decide +kernel, by decide +kernel⟩

/-- Thread 1 inside a write access on the instance thread 0 calls. -/
def overlapped : State :=
  { atSteps 2 { bound0 with mutex := some 1 } [ok] with threads := [(1, insideWrite)] }

theorem witness_OverlappingBacklightByte : overlapped.Bound cfg0 ∧ ¬ overlapped.noOverlap ∧ 2 ≤ overlapped.turn.steps ∧
    overlapped.statusAt 0 = some .ok ∧ backlightLevel overlapped.img.bl (.blSet false) = some false :=
  ⟨⟨⟨rfl, rfl, rfl, by decide +kernel⟩, rfl⟩, by unfold State.noOverlap; decide +kernel, by decide +kernel⟩

/-- Thread 0 at a position of a call. -/
def midCall (race : Bool) (seq : List Act) (i : Instance) (xs : List Xfer) : State :=
  { atSteps 4 i xs with
    threads := [(0, { Thread.idle with running := true, seq, before := image false true 0, race })] }

theorem witness_NibbleOrder :
    let s := midCall false [.read .capHi true .eight] bound0 [.ok [0x4B]]
    let u := midCall false [.read .capLo false .four] bound0 [.ok []]
    s.fatal = none ∧ s.me.running = true ∧ s.me.hung = false ∧ s.here.cfg = some cfg0 ∧ s.xferAt 0 = .ok [0x4B] ∧
      s.me.seq = [.read .capHi true .eight] ∧ u.fatal = none ∧ u.me.running = true ∧ u.me.hung = false ∧
      u.here.cfg = some cfg0 ∧ u.xferAt 0 = .ok [] ∧ u.me.seq = [.read .capLo false .four] := by decide +kernel
theorem witness_StatusReadSettles :
    let s := midCall false [.read .idle false .four] bound0 [.fail]
    let u := midCall false [.read .settle true .eight] bound0 []
    s.fatal = none ∧ s.me.running = true ∧ s.me.hung = false ∧ s.me.seq = [.read .idle false .four] ∧
      s.here.cfg = some cfg0 ∧ s.statusAt 0 = some .fail ∧ u.fatal = none ∧ u.me.running = true ∧ u.me.hung = false ∧
      u.me.seq = [.read .settle true .eight] := by decide +kernel
theorem witness_OverlappedAccessDrawsBacklight : ∀ race ∈ [false, true],
    ∀ a ∈ [Act.write .send true 0x41 .four .short, .read .setupHi false .four, .read .setupLo true .four,
      .read .idle true .eight, .write .rel true 0x41 .four .short, .read .rel true .four, .read .abort false .eight,
      .burst .rel []],
    let s := midCall race [a] { bound0 with mutex := some 0 } [ok]
    s.fatal = none ∧ s.me.running = true ∧ s.me.hung = false ∧ s.here.cfg = some cfg0 ∧ s.statusAt 0 = some .ok ∧
      s.me.seq = [a] ∧ s.me.race = race ∧ (a.batch s.img s.img.bl).isSome = !a.ends := by decide +kernel
theorem witness_BareBurstsComplete :
    let s := atSteps 3 bound0 [.fail]
    s.Free cfg0 ∧ 1 ≤ s.turn.steps ∧ 3 ≤ s.turn.steps ∧ s.statusAt 0 = some .fail ∧
      ∀ i ∈ [.portByte (image true true 5), .nibbleTriple true true false 5, .writeBurst4 true false 0x5A,
        .writeBurst8 false true 3, .readSetup true false, .readIdle false true],
        (burstOf i).any (fun images => images.getLast?.isSome) = true :=
  ⟨free_atSteps _ _ _ _ rfl rfl rfl rfl, by decide +kernel⟩
theorem witness_SetPortCompletes :
    let s := atSteps 1 bound0 [.fail]
    s.CanCall ∧ (at0 initialised []).CanCall ∧ (at0 initialised []).here.cfg = none ∧ s.here.cfg = some cfg0 ∧
      1 ≤ s.turn.steps ∧ s.statusAt 0 = some .fail ∧ 0 < 1 ∧ 1 ≤ (⟨4, 1⟩ : Buffer).size ∧ (⟨4, 1⟩ : Buffer).size < 2 :=
  ⟨canCall_atSteps _ _ _ rfl rfl, canCall_atSteps _ _ _ rfl rfl, by decide +kernel⟩
theorem witness_GetPortCompletes :
    let s := atSteps 1 bound0 [.ok [1, 2]]
    let u := atSteps 1 bound0 [.fail]
    s.CanCall ∧ u.CanCall ∧ (at0 initialised []).CanCall ∧ (at0 initialised []).here.cfg = none ∧
      s.here.cfg = some cfg0 ∧ u.here.cfg = some cfg0 ∧ 1 ≤ s.turn.steps ∧ s.statusAt 0 = some .ok ∧
      u.statusAt 0 = some .fail ∧ 0 < 2 ∧ 2 ≤ (⟨4, 2⟩ : Buffer).size ∧ (⟨4, 2⟩ : Buffer).size < 3 :=
  ⟨canCall_atSteps _ _ _ rfl rfl, canCall_atSteps _ _ _ rfl rfl, canCall_atSteps _ _ _ rfl rfl, by decide +kernel⟩
theorem witness_FirstFailingGuardRaisesFatal :
    (at0 { initialised with lcBusy := some 1 } []).firstFailing .stop = some .lifecycleRace ∧
    (at0 .fresh []).firstFailing .stop = some .uninit ∧ (at0 initialised []).firstFailing .stop = some .noConfig ∧
    (at0 initialised []).firstFailing (.init 0) = some .alreadyInit ∧
    (at0 initialised []).firstFailing .clear = some .notReady ∧
    (at0 initialised []).firstFailing .getPortByte = some .noConfig := by decide +kernel
theorem witness_RefusedExactlyOnBadLength : (at0 bound0 []).firstFailing (.getPort ⟨0, 4⟩ 5) = none ∧
    (at0 bound0 []).firstFailing (.getPort ⟨0, 4⟩ 4) = none := by decide +kernel
theorem witness_FaultedProcessTakesNoStep : ({ at0 ready0 [] with fatal := some .uninit } : State).fatal = some .uninit :=
  rfl
theorem witness_HungTransferHoldsTheMutex :
    let s := midCall false [.read .capLo true .four] { bound0 with mutex := some 0 } [.hang]
    s.fatal = none ∧ s.me.running = true ∧ s.me.hung = false ∧ s.here.cfg = some cfg0 ∧
      s.me.seq = [.read .capLo true .four] ∧ Act.isTransfer (.read .capLo true .four) = true ∧ s.statusAt 0 = none := by
  decide +kernel
theorem witness_HungTransferHoldsTheMutex_hung :
    ({ atSteps 2 bound0 [] with threads := [(0, { insideWrite with hung := true })] } : State).me.hung = true := by
  decide +kernel
theorem witness_HungTransferHoldsTheMutex_turn :
    let s := { atSteps 2 bound0 [] with
      threads := [(0, { insideWrite with hung := true })], env := { Env.fresh with turns := [{ tid := 0, steps := 3 }] } }
    s.fatal = none ∧ s.takeTurn.me.running = true ∧ s.takeTurn.me.hung = true := by decide +kernel
theorem witness_HeldMutexMakesTheCallerWait :
    let s := atSteps 2 { ready0 with mutex := some 1 } []
    s.Bound cfg0 ∧ s.params.lock = .access ∧ s.here.mutex = some 1 ∧ 2 ≤ s.turn.steps ∧
      (engineWrite (.writeData 0)).isSome = true ∧ (engineRead .readDataReg).isSome = true ∧
      (burstOf (.readIdle true true)).isSome = true ∧ isOperation .clear = true ∧ s.here.life = .ready :=
  ⟨bound_atSteps _ _ _ _ rfl rfl rfl, by decide +kernel⟩
theorem witness_HeldMutexMakesTheCallerWait_operation :
    let s := atSteps 2 { ready0 with mutex := some 1, params := { Params.default with lock := .operation } } []
    s.Bound cfg0 ∧ s.here.mutex = some 1 ∧ isOperation .clear = true ∧ s.here.life = .ready :=
  ⟨bound_atSteps _ _ _ _ rfl rfl rfl, by decide +kernel⟩
theorem witness_AccessHoldsTheMutexThroughout :
    let s := atSteps 1 bound0 []
    s.Bound cfg0 ∧ s.params.lock = .access ∧ s.here.mutex = none ∧ 1 ≤ s.turn.steps ∧
      (engineWrite (.writeData 0)).isSome = true ∧ (engineRead .readDataReg).isSome = true :=
  ⟨bound_atSteps _ _ _ _ rfl rfl rfl, by decide +kernel⟩
/-- An instance locked by the operation. -/
def byOperation (i : Instance) : Instance := { i with params := { Params.default with lock := .operation } }
theorem witness_OperationHoldsTheMutexThroughout :
    let s := atSteps 1 (byOperation ready0) []
    s.CanCall ∧ s.params.lock = .operation ∧ s.here.mutex = none ∧ 1 ≤ s.turn.steps ∧ isOperation .clear = true ∧
      s.here.life = .ready ∧ s.here.life ≠ .uninit ∧ s.here.cfg = some cfg0 ∧ s.otherInside s.me.inst = false :=
  ⟨canCall_atSteps _ _ _ rfl rfl, by decide +kernel⟩
theorem witness_OperationHoldsTheMutexThroughout_init :
    let s := atSteps 1 (byOperation .fresh) []
    s.CanCall ∧ s.params.lock = .operation ∧ s.here.mutex = none ∧ 1 ≤ s.turn.steps ∧ s.here.life = .uninit ∧
      s.otherInside s.me.inst = false :=
  ⟨canCall_atSteps _ _ _ rfl rfl, by decide +kernel⟩
theorem witness_LifecycleCallsAreMarkedThroughout : (at0 .fresh []).firstFailing (.init 0) = none ∧
    (at0 initialised []).firstFailing (.start cfg0) = none ∧ (at0 ready0 []).firstFailing .stop = none ∧
    isLifecycle (.init 0) = true ∧ isLifecycle (.start cfg0) = true ∧ isLifecycle .stop = true := by decide +kernel

/-- The next turn is thread 0's, and its next call has these bytes. -/
def called (code : List Byte) : State :=
  { atSteps 0 ready0 [ok] with
    threads := [(0, { Thread.idle with calls := [{ inst := 0, code }] })]
    env := { Env.fresh with turns := [{ tid := 0, steps := 4 }], xfers := [ok] } }

theorem witness_StepRunsTheDecodedCall : (called [0x09, 0x48]).fatal = none ∧
    (called [0x09, 0x48]).takeTurn.me.running = false ∧
    (called [0x09, 0x48]).takeTurn.me.calls = [{ inst := 0, code := [0x09, 0x48] }] ∧
    decodeCall [0x09, 0x48] = .ok (.writeChar 0x48) := by decide +kernel
theorem witness_StepContinuesACall :
    let s := { called [] with threads := [(0, insideWrite)] }
    let u := { called [] with threads := [] }
    s.fatal = none ∧ s.takeTurn.me.running = true ∧ u.fatal = none ∧ u.takeTurn.me.running = false ∧
      u.takeTurn.me.calls = [] ∧ (called [0x12]).takeTurn.me.running = false ∧
      (called [0x12]).takeTurn.me.calls = [{ inst := 0, code := [0x12] }] ∧
      decodeCall [0x12] = .error (.unknownCall 0x12) := by decide +kernel
theorem witness_PlacedWordRunsNext : (at0 ready0 []).fatal = none ∧ ((at0 ready0 []).thread 0).running = false ∧
    decodeTableWord 16 0xFAFE = some (.readSetup false true) := by decide +kernel
/-- For every statement over `step s = .next t`. -/
theorem witness_step_answers : ∃ t, step (called [0x09, 0x48]) = .next t := exists_next (by decide +kernel)
theorem witness_OnlyGetPortWritesMemory :
    (match exec (.getPort ⟨4, 1⟩ 1) (at0 bound0 [.ok [7]]) with
      | .next t => decide (t.readMem 4 ≠ (at0 bound0 [.ok [7]]).readMem 4)
      | .fault _ => false
      | .refused _ => false) = true := by decide +kernel
theorem witness_LifecycleTransitions :
    ∃ t, exec .stop (at0 ready0 [ok, ok]) = .next t := exists_next (by decide +kernel)

/-! The invariants -/

theorem thread_midCall {race : Bool} {seq : List Act} {i : Instance} {xs : List Xfer} {t : Nat}
    (h : ((midCall race seq i xs).thread t).running = true) : t = 0 := by
  rcases Nat.eq_zero_or_pos t with rfl | hk
  · rfl
  · have : (midCall race seq i xs).thread t = Thread.idle := by
      simp [State.thread, midCall, Sparse.get]; omega
    rw [this] at h
    cases h

theorem inst_midCall {race : Bool} {seq : List Act} {i : Instance} {xs : List Xfer} {k : Nat} (h : k ≠ 0) :
    (midCall race seq i xs).inst k = Instance.fresh := by
  simp [State.inst, midCall, atSteps, Sparse.get]; omega

theorem alone_midCall (race : Bool) (seq : List Act) (i : Instance) (xs : List Xfer) (hl : i.lcBusy = none)
    (hn : Act.initialise ∉ seq) : LifecycleAlone (midCall race seq i xs) := by
  refine ⟨fun k t h => ?_, fun t ht hm => ?_⟩
  · rcases Nat.eq_zero_or_pos k with rfl | hk
    · have : ((midCall race seq i xs).inst 0).lcBusy = none := hl
      rw [this] at h; cases h
    · rw [inst_midCall (by omega)] at h; cases h
  · cases thread_midCall ht
    exact (hn hm).elim

theorem lifeInv_midCall (seq : List Act) (xs : List Xfer) (hn : Act.initialise ∉ seq) :
    LifeInv (midCall false seq ready0 xs) := by
  refine ⟨alone_midCall _ _ _ _ rfl hn, fun k => ?_, fun t ht => ?_⟩
  · rcases Nat.eq_zero_or_pos k with rfl | hk
    · exact ⟨fun h => (nomatch h), fun _ => rfl, fun _ => rfl⟩
    · rw [inst_midCall (by omega)]
      exact ⟨fun _ => ⟨rfl, rfl⟩, fun h => absurd rfl h, fun h => nomatch h⟩
  · cases thread_midCall ht
    rw [if_neg (by exact hn)]
    rfl

theorem mutexInv_midCall (race : Bool) (seq : List Act) (i : Instance) (xs : List Xfer) (hi : i.mutex = some 0)
    (hl : i.lcBusy = none) (hn : Act.initialise ∉ seq) (hs : seqShape seq = true) : MutexInv (midCall race seq i xs) := by
  refine ⟨alone_midCall _ _ _ _ hl hn, fun t ht => ?_⟩
  cases thread_midCall ht
  exact ⟨hs, fun _ => hi⟩

/-- Thread 0 between W_ACQ and W_SEND, owning the mutex. -/
def sending : State := midCall false [.write .send true 0x41 .four .short] { ready0 with mutex := some 0 } [ok]

theorem witness_NoFatalPastTheGuards : LifeInv (midCall false [] ready0 []) ∧
    (midCall false [] ready0 []).firstFailing .clear = none ∧ ¬ badLength .clear :=
  ⟨lifeInv_midCall _ _ (by simp), by decide +kernel, fun h => h⟩
theorem witness_ProtocolFieldsChangeOnlyUnderTheMutex : MutexInv sending ∧ (sending.inst 0).params.lock = .access ∧
    { (sending.atomic.inst 0).img with bl := false } ≠ { (sending.inst 0).img with bl := false } :=
  ⟨mutexInv_midCall _ _ _ _ rfl rfl (by simp) rfl, by decide +kernel⟩
theorem witness_ProtocolFieldsChangeOnlyUnderTheMutex_bl :
    let s := midCall false [.blSet false] { ready0 with mutex := some 0 } [ok]
    MutexInv s ∧ (s.atomic.inst 0).img.bl ≠ (s.inst 0).img.bl :=
  ⟨mutexInv_midCall _ _ _ _ rfl rfl (by simp) rfl, by decide +kernel⟩
theorem witness_SleepNeedsBoundDelays :
    let s := midCall false [.sleep 100] ready0 []
    LifeInv s ∧ s.atomic.trace = s.trace ++ [{ tid := s.turn.tid, inst := s.me.inst, body := .sleep 100 }] :=
  ⟨lifeInv_midCall _ _ (by simp), by decide +kernel⟩
theorem witness_StepKeepsCanonicalForm : (called [0x09, 0x48]).wf ∧ ∃ t, step (called [0x09, 0x48]) = .next t :=
  ⟨by decide +kernel, witness_step_answers⟩
/-- The next turn comes from the list, so the step is thread 0's. -/
def sendingNext : State := { sending with env := { sending.env with turns := [{ tid := 0, steps := 3 }] } }
theorem witness_StepKeepsMutexOwnership : MutexInv sendingNext ∧ ∃ t, step sendingNext = .next t :=
  ⟨mutexInv_midCall false [.write .send true 0x41 .four .short] { ready0 with mutex := some 0 } [ok] rfl rfl
    (by simp) rfl,
    exists_next (by decide +kernel)⟩
/-- Whether the state a step answers satisfies `q`. -/
def afterStep (s : State) (q : State → Bool) : Bool :=
  match step s with
  | .next t => q t
  | .fault _ => false
  | .refused _ => false
/-- Thread 0 at these positions, about to take one step. -/
def oneStep (seq : List Act) (i : Instance) : State :=
  { midCall false seq i [ok] with
    env := { Env.fresh with turns := [{ tid := 0, steps := 1 }], xfers := [ok] } }
theorem mutexInv_oneStep (seq : List Act) (i : Instance) (hi : i.mutex = some 0) (hl : i.lcBusy = none)
    (hn : Act.initialise ∉ seq) (hs : seqShape seq = true) : MutexInv (oneStep seq i) :=
  mutexInv_midCall false seq i [ok] hi hl hn hs
theorem witness_NoTwoOwnersOfOneMutex :
    let s := oneStep [.write .send true 0x41 .four .short] { ready0 with mutex := some 0 }
    MutexInv s ∧ afterStep s (fun t => decide ((t.inst 0).params.lock = .access) && (t.thread 0).inAccess 0) = true :=
  ⟨mutexInv_oneStep _ _ rfl rfl (by simp) rfl, by decide +kernel⟩
theorem witness_NoTwoOwnersOfOneMutex_operation :
    let s := oneStep [.write .acq true 0x41 .four .short, .opRel] { byOperation ready0 with mutex := some 0 }
    MutexInv s ∧
      afterStep s (fun t => decide ((t.inst 0).params.lock = .operation) && (t.thread 0).inOperation 0) = true :=
  ⟨mutexInv_oneStep _ _ rfl rfl (by simp) rfl, by decide +kernel⟩
theorem witness_NoTwoOwnersOfOneMutex_burst :
    let s := oneStep [.burst .send [image true true 5]] { byOperation ready0 with mutex := some 0 }
    MutexInv s ∧
      afterStep s (fun t => (t.thread 0).inAccess 0 && (t.thread 0).seq.head?.any Act.isBurst) = true :=
  ⟨mutexInv_oneStep _ _ rfl rfl (by simp) rfl, by decide +kernel⟩
theorem witness_StepKeepsLifecycle :
    let s := midCall false [.sleep 100] ready0 []
    let u := { s with env := { s.env with turns := [{ tid := 0, steps := 1 }] } }
    LifeInv u ∧ ∃ t, step u = .next t :=
  ⟨lifeInv_midCall [.sleep 100] [] (by simp), exists_next (by decide +kernel)⟩

end Sys2Proof.Tests
end

section
/-! PROOFS. What `exec` can answer, said once: Fatal for the first failing guard, the refusal of a bad length, or the
call begun and gone on with for its turn. -/

namespace Sys2Proof.Machine

variable {s t : State} {i : Instr}

/-! ### The guards of each family of calls, in the order of R258 -/

theorem isLifecycle_of_isOperation : isOperation i = true → isLifecycle i = false := by
  cases i <;> simp [isOperation, isLifecycle]

theorem needsConfig_of_isOperation : isOperation i = true → needsConfig i = false := by
  cases i <;> simp [isOperation, needsConfig]

theorem needsConfig_of_direct : isOperation i = false → isLifecycle i = false → needsConfig i = true := by
  cases i <;> simp [isOperation, isLifecycle, needsConfig]

theorem lifeGuard_operation (life : Life) :
    isOperation i = true → lifeGuard life i = if life = .ready then none else some .notReady := by
  cases i <;> cases life <;> simp [isOperation, lifeGuard]

theorem lifeGuard_direct (life : Life) : isOperation i = false → isLifecycle i = false → lifeGuard life i = none := by
  cases i <;> simp [isOperation, isLifecycle, lifeGuard]

theorem State.firstFailing_eq (s : State) (i : Instr) :
    s.firstFailing i = ((s.raceGuard (isLifecycle i)).or (lifeGuard s.here.life i)).or
      (if needsConfig i = true then s.configGuard else none) := by
  by_cases hr : s.here.lcBusy.isSome = true ∨ isLifecycle i = true ∧ s.otherInside s.me.inst = true
  · have hg : s.raceGuard (isLifecycle i) = some .lifecycleRace := if_pos (by simpa using hr)
    rw [State.firstFailing, if_pos hr, hg]
    rfl
  · have hg : s.raceGuard (isLifecycle i) = none := if_neg (by simpa using hr)
    rw [State.firstFailing, if_neg hr, hg]
    cases lifeGuard s.here.life i with
    | some reason => rfl
    | none => cases hn : needsConfig i <;> cases hc : s.here.cfg <;> simp_all [State.configGuard]

theorem State.firstFailing_unconfigured (s : State) (hc : needsConfig i = false) :
    s.firstFailing i = (s.raceGuard (isLifecycle i)).or (lifeGuard s.here.life i) := by
  rw [State.firstFailing_eq, hc, if_neg Bool.false_ne_true, Option.or_none]

theorem State.firstFailing_operation (s : State) (ho : isOperation i = true) :
    s.firstFailing i = (s.raceGuard false).or s.readyGuard := by
  rw [s.firstFailing_unconfigured (needsConfig_of_isOperation ho), isLifecycle_of_isOperation ho,
    lifeGuard_operation _ ho]
  rfl

theorem State.firstFailing_direct (s : State) (ho : isOperation i = false) (hl : isLifecycle i = false) :
    s.firstFailing i = (s.raceGuard false).or s.configGuard := by
  rw [State.firstFailing_eq, hl, lifeGuard_direct _ ho hl, needsConfig_of_direct ho hl, Option.or_none, if_pos rfl]

/-! ### The form of each family of calls -/

theorem exec_operation (s : State) (ho : isOperation i = true) :
    ∃ ret acts, exec i s = s.operation ret acts := by
  cases i <;> simp only [isOperation, reduceCtorEq] at ho <;> exact ⟨_, _, rfl⟩

theorem exec_direct (s : State) (ho : isOperation i = false) (hl : isLifecycle i = false) :
    (∃ ret acts, exec i s = s.engineCall ret acts) ∨ ∃ ok ret a, exec i s = s.expanderCall ok ret a := by
  cases i <;> simp only [isOperation, isLifecycle, reduceCtorEq] at ho hl
  case setPort | setPortByte | getPort | getPortByte => exact .inr ⟨_, _, _, rfl⟩
  all_goals exact .inl ⟨_, _, rfl⟩

theorem exec_lifecycle (s : State) (hl : isLifecycle i = true) :
    ∃ setup ret acts, exec i s = s.call (s.firstFailing i) setup ret acts := by
  cases i <;> simp only [isLifecycle, reduceCtorEq] at hl
  case init => exact ⟨_, _, _, by rw [s.firstFailing_unconfigured rfl]; rfl⟩
  case start => exact ⟨_, _, _, by rw [s.firstFailing_unconfigured rfl]; rfl⟩
  case stop => exact ⟨_, _, _, by rw [s.firstFailing_eq]; rfl⟩

/-! ### The three answers -/

/-- The first failing guard raises its Fatal, before any effect (R258). -/
theorem exec_of_firstFailing {reason : FatalReason} (h : s.firstFailing i = some reason) :
    exec i s = .next (s.raiseFatal reason) := by
  cases hl : isLifecycle i
  · cases ho : isOperation i
    · rw [s.firstFailing_direct ho hl] at h
      rcases exec_direct s ho hl with ⟨ret, acts, he⟩ | ⟨ok, ret, a, he⟩
      · rw [he, State.engineCall, h, State.call]
      · rw [he, State.expanderCall, h]
    · rw [s.firstFailing_operation ho] at h
      obtain ⟨ret, acts, he⟩ := exec_operation s ho
      rw [he, State.operation, h, State.call]
  · obtain ⟨setup, ret, acts, he⟩ := exec_lifecycle s hl
    rw [he, h, State.call]

theorem Buffer.admits_eq_false {b : Buffer} {len : Nat} (h : len = 0 ∨ b.size < len) : Buffer.admits b len = false := by
  simp only [Buffer.admits, Bool.and_eq_false_iff, decide_eq_false_iff_not]
  omega

/-- Past its guards an expander call with a length that is 0 or beyond its buffer is refused (R256). -/
theorem exec_of_badLength (h : s.firstFailing i = none) (hb : badLength i) : exec i s = .refused .badLength := by
  cases i <;> simp only [badLength] at hb
  all_goals
    rw [s.firstFailing_direct rfl rfl] at h
    simp only [exec, execSetPort, execGetPort, State.expanderCall, h, Buffer.admits_eq_false hb, Bool.false_eq_true,
      if_false]

/-- A call that answers a next state has raised Fatal for its first failing guard, or has begun and gone on for its
turn. -/
theorem exec_cases (h : exec i s = .next t) :
    (∃ reason, s.firstFailing i = some reason ∧ t = s.raiseFatal reason) ∨
    (s.firstFailing i = none ∧ ¬badLength i ∧
      ∃ ret acts, CallShape i acts ∧ t = ((s.setup i).begin acts ret).advance s.turn.steps) := by
  cases hf : s.firstFailing i with
  | some reason =>
    rw [exec_of_firstFailing hf] at h
    cases h
    exact .inl ⟨reason, rfl, rfl⟩
  | none =>
    have hb : ¬badLength i := fun hb => by
      rw [exec_of_badLength hf hb] at h
      cases h
    obtain ⟨ret, acts, hs, he⟩ := exec_shape hf hb
    rw [he] at h
    cases h
    exact .inr ⟨rfl, hb, ret, acts, hs, rfl⟩

end Sys2Proof.Machine
end

section
/-! PROOFS. What a whole step leaves alone: the frame of an atomic step carried over the beginning of a call and over a
turn, and what that says of the trace. -/

namespace Sys2Proof.Machine

variable {s t : State} {i : Instr}

/-- A stretch of a turn. It may end `init`, so the frame says nothing of the configuration and the delay binding. -/
theorem Frame.advance (s : State) (n : Nat) : Frame False s (s.advance n) := by
  induction n generalizing s with
  | zero => exact Frame.refl s
  | succ n ih => exact (s.atomic_frame.mono False.elim).trans (ih s.atomic)

theorem Frame.ofRaiseFatal (s : State) (reason : FatalReason) : Frame False s (s.raiseFatal reason) :=
  ((Frame.refl s).recordAs (.fatal reason)).trans ⟨rfl, rfl, rfl, fun _ _ => rfl, fun _ _ => rfl, rfl, False.elim,
    False.elim, ⟨[], (List.append_nil _).symm, by simp⟩, False.elim, rfl, rfl⟩

theorem Frame.claim (s : State) (cfg : Option BusConfig) : Frame False s (s.claim cfg) where
  turn := rfl
  inst := rfl
  calls := rfl
  insts k hk := by rw [State.claim, State.setHere_eq, State.inst_setInst, if_neg hk]
  threads _ _ := rfl
  params := by simp [State.claim]
  cfg := False.elim
  delays := False.elim
  trace := ⟨[], by simp [State.claim], by simp⟩
  fatal := False.elim
  turns := ⟨rfl, rfl⟩

theorem Frame.setup (s : State) (i : Instr) : Frame False s (s.setup i) := by
  unfold State.setup
  split
  · exact Frame.claim s _
  · exact Frame.claim s _
  · exact Frame.claim s _
  · exact Frame.refl s

theorem Frame.begin {bound : Prop} (h : Frame bound s t) (acts : List Act) (ret : RetKind) :
    Frame bound s (t.begin acts ret) := h.setMe _ rfl rfl

/-- A call, whatever its guards say and however long its turn. -/
theorem exec_frame (h : exec i s = .next t) : Frame False s t := by
  rcases exec_cases h with ⟨reason, _, rfl⟩ | ⟨_, _, ret, acts, _, rfl⟩
  · exact Frame.ofRaiseFatal s reason
  · exact ((Frame.setup s i).begin acts ret).trans (Frame.advance _ _)

/-- A step that answers a next state leaves that frame, from the state whose turn is taken, or whose turn and next call
are. -/
theorem step_frame (h : step s = .next t) :
    Frame False s.takeTurn t ∨
      ∃ c rest, s.takeTurn.me.calls = c :: rest ∧ Frame False (s.takeTurn.takeCall c) t := by
  unfold step at h
  split at h
  · cases h
  · split at h
    · cases h
      exact .inl (Frame.advance _ _)
    · split at h
      · cases h
        exact .inl (Frame.refl _)
      · rename_i c rest hc
        split at h
        · exact .inr ⟨c, rest, hc, exec_frame h⟩
        · cases h

/-- What a frame says of the trace, in terms of the state it ends in. -/
theorem Frame.trace_grows {bound : Prop} (h : Frame bound s t) :
    ∃ es, t.trace = s.trace ++ es ∧ ∀ e ∈ es, e.tid = t.turn.tid ∧ e.inst = t.me.inst := by
  rw [h.turn, h.inst]
  exact h.trace

end Sys2Proof.Machine

open Sys2Proof.Machine

/-- Settles O44: a turn, a call and a Fatal append only their own events (`step_frame`), and the taking of the turn and
of the call appends none. -/
theorem traceOnlyGrows : Obligations.TraceOnlyGrows := by
  unfold Obligations.TraceOnlyGrows
  intro s t h
  rcases step_frame h with hf | ⟨c, rest, _, hf⟩
  · exact hf.trace_grows
  · exact hf.trace_grows

end

section
/-! PROOFS. The call that runs after an opcode-table word is placed for fetching (log 4). -/

namespace Sys2Proof.Machine

variable {s : State} {i : Instr}

theorem decodeCall_of_decodeTableWord {nbits w : Nat} (h : decodeTableWord nbits w = some i) :
    decodeCall (tableCode nbits w) = .ok i := by
  unfold decodeTableWord at h
  split at h
  · rename_i hd
    cases h
    exact hd
  · cases h

theorem State.nextTurn_withFetchWord (s : State) (nbits w : Nat) :
    (s.withFetchWord nbits w).nextTurn = { tid := 0, steps := 128 } := rfl

/-- A thread with a table word as its one call to make, as `withFetchWord` gives it to thread 0. -/
def Thread.placed (th : Thread) (nbits w : Nat) : Thread :=
  { th with calls := [{ inst := 0, code := tableCode nbits w }] }

/-- Placing a word changes thread 0's calls to come, and no other thread. -/
theorem State.thread_withFetchWord (s : State) (nbits w j : Nat) :
    (s.withFetchWord nbits w).thread j =
      if j = 0 then (s.thread 0).placed nbits w else s.thread j :=
  s.thread_setThread j 0 ((s.thread 0).placed nbits w)

/-- With a word placed, the thread whose turn comes is thread 0, and that word's call is its one to make. -/
theorem State.me_takeTurn_withFetchWord (s : State) (nbits w : Nat) :
    (s.withFetchWord nbits w).takeTurn.me = (s.thread 0).placed nbits w :=
  s.thread_withFetchWord nbits w 0

/-- An idle thread's next call, where its bytes decode, is the one the step runs. -/
theorem step_of_decodeCall {c : Call} {rest : List Call} (hf : s.fatal = none) (hr : s.takeTurn.me.running = false)
    (hc : s.takeTurn.me.calls = c :: rest) (hd : decodeCall c.code = .ok i) :
    step s = exec i (s.takeTurn.takeCall c) := by
  simp [step, hf, hr, hc, hd]

end Sys2Proof.Machine

open Sys2Proof Sys2Proof.Machine

/-- Settles O43: the state whose turn and call are taken after the word is placed. -/
theorem placedWordRunsNext : Obligations.PlacedWordRunsNext := by
  unfold Obligations.PlacedWordRunsNext
  intro s nbits w i hf hr hd
  have hme := s.me_takeTurn_withFetchWord nbits w
  refine ⟨(s.withFetchWord nbits w).takeTurn.takeCall { inst := 0, code := tableCode nbits w }, ?_,
    s.nextTurn_withFetchWord nbits w, ?_, rfl, fun _ => rfl, fun j hj => ?_⟩
  · exact step_of_decodeCall hf (by rw [hme]; exact hr) (by rw [hme]; rfl) (decodeCall_of_decodeTableWord hd)
  · rw [State.takeCall, State.me_setMe]
  · rw [State.takeCall, State.thread_setMe, State.takeTurn_turn, State.nextTurn_withFetchWord, if_neg hj]
    exact (s.thread_withFetchWord nbits w j).trans (if_neg hj)

end

section
/-! PROOFS. What an atomic step does to the lifecycle fields of its instance, said once (10_state.md R42, R43, R45,
R47). -/

namespace Sys2Proof.Machine

variable {s t : State} {i j : Instance}

/-- The two records agree on everything the lifecycle rules speak of. -/
structure Instance.SameLife (i j : Instance) : Prop where
  life : j.life = i.life
  cfg : j.cfg = i.cfg
  delays : j.delays = i.delays
  lcBusy : j.lcBusy = i.lcBusy

theorem Instance.SameLife.refl (i : Instance) : i.SameLife i := ⟨rfl, rfl, rfl, rfl⟩

/-- Whether an element is the last of a lifecycle call, which writes `life` and clears the marker. -/
def Act.closes : Act → Bool
  | .initialise => true
  | .setReady => true
  | .setStop => true
  | _ => false

/-- The record such an element leaves. -/
def Instance.closed (i : Instance) : Act → Instance
  | .initialise => i.initialised
  | .setReady => { i with life := .ready, lcBusy := none }
  | .setStop => { i with life := .stop, lcBusy := none }
  | _ => i

theorem State.perform_closes (s : State) {a : Act} (ha : a.closes = true) :
    s.perform a = (s.setHere (s.here.closed a)).pop := by
  cases a <;> simp only [Act.closes, Bool.false_eq_true] at ha <;> rfl

theorem Instance.lcBusy_closed (i : Instance) {a : Act} (ha : a.closes = true) : (i.closed a).lcBusy = none := by
  cases a <;> simp only [Act.closes, Bool.false_eq_true] at ha <;> rfl

/-- The end of `start` and of `stop`: the configuration and the delay binding stand. -/
theorem Instance.closed_of_ne_initialise (i : Instance) {a : Act} (ha : a.closes = true) (hn : a ≠ .initialise) :
    (i.closed a).life ≠ .uninit ∧ (i.closed a).cfg = i.cfg ∧ (i.closed a).delays = i.delays := by
  cases a <;> simp only [Act.closes, Bool.false_eq_true] at ha
  case initialise => exact absurd rfl hn
  all_goals exact ⟨by simp [Instance.closed], rfl, rfl⟩

theorem Act.isAccess_of_closes {a : Act} (ha : a.closes = true) : a.isAccess = false := by
  cases a <;> simp only [Act.closes, Bool.false_eq_true] at ha <;> rfl

@[simp] theorem State.inst_pop (s : State) (k : Nat) : s.pop.inst k = s.inst k := by
  unfold State.pop
  split <;> rfl

@[simp] theorem State.seq_pop (s : State) : s.pop.me.seq = s.me.seq.tail := by
  cases h : s.me.seq.tail with
  | nil => rw [State.pop_last h, State.me_setMe]; rfl
  | cons a rest => rw [State.pop_more h, State.me_setMe]

theorem State.running_pop (hr : s.me.running = true) : s.pop.me.running = !s.me.seq.tail.isEmpty := by
  cases h : s.me.seq.tail with
  | nil => rw [State.pop_last h, State.me_setMe]; rfl
  | cons a rest => rw [State.pop_more h, State.me_setMe]; exact hr

theorem State.inst_closed (s : State) (a : Act) :
    (s.setHere (s.here.closed a)).pop.inst s.me.inst = s.here.closed a := by
  rw [State.inst_pop, State.setHere_eq, State.inst_setInst_same]

theorem State.seq_closed (s : State) (a : Act) : (s.setHere (s.here.closed a)).pop.me.seq = s.me.seq.tail := by
  rw [State.seq_pop]
  rfl

@[simp] theorem State.inst_writeMemBytes (s : State) (a : Nat) (bs : List Byte) (k : Nat) :
    (s.writeMemBytes a bs).inst k = s.inst k := by
  induction bs generalizing s a with
  | nil => rfl
  | cons b bs ih => exact ih (s.writeMem a b) (a + 1)

/-- Every instance's lifecycle fields are as they were. -/
def State.KeepsLife (s t : State) : Prop := ∀ k, (s.inst k).SameLife (t.inst k)

theorem State.keepsLife_stable (s : State) : Stable s.KeepsLife where
  setMe _ _ h _ _ := h
  setInst t v h _ hc hd hl hb k := by
    rw [State.inst_setInst]
    split
    · next hk =>
      subst hk
      obtain ⟨hl', hc', hd', hb'⟩ := h t.me.inst
      exact ⟨hl.trans hl', hc.trans hc', hd.trans hd', hb.trans hb'⟩
    · exact h k
  recordAs _ _ h := h
  setLatch _ _ _ h := h
  popXfer _ h := h
  popChoice _ h := h
  popFree _ h := h
  markRace _ h := h
  raiseFatal _ _ h := h

theorem State.keepsLife_xread (s : State) (b : Buffer) (n : Nat) : s.KeepsLife (s.perform (.xread b n)) := by
  have hS := s.keepsLife_stable
  simp only [State.perform, State.xreadStep]
  refine hS.portRead (fun k => .refl _) _ fun st cs u hu => hS.pop (hS.setSt ?_ _)
  intro k
  rw [State.inst_writeMemBytes]
  exact hu k

/-- An atomic step is none at all, or a step of a thread in a call that leaves every instance's lifecycle fields alone,
or the last of a lifecycle call. -/
theorem State.atomic_life (s : State) :
    s.atomic = s ∨
    (s.me.running = true ∧ (∀ a rest, s.me.seq = a :: rest → a.closes = false) ∧ s.KeepsLife s.atomic) ∨
    ∃ a rest, s.me.running = true ∧ s.me.seq = a :: rest ∧ a.closes = true ∧
      s.atomic = (s.setHere (s.here.closed a)).pop := by
  rcases s.atomic_moved with he | ⟨hf, hr, hh, -⟩
  · exact .inl he
  by_cases hc : ∃ a rest, s.me.seq = a :: rest ∧ a.closes = true
  · obtain ⟨a, rest, hs, ha⟩ := hc
    exact .inr (.inr ⟨a, rest, hr, hs, ha, (s.atomic_head hf hr hh hs).trans (s.perform_closes ha)⟩)
  · have hopen : ∀ a rest, s.me.seq = a :: rest → a.closes = false := fun a rest hs => by
      simpa using fun ha => hc ⟨a, rest, hs, ha⟩
    refine .inr (.inl ⟨hr, hopen, s.keepsLife_stable.atomic (fun k => .refl _) ?_ ?_ ?_ ?_⟩)
    · exact fun rest hs => absurd (hopen _ rest hs) (by decide)
    · exact fun rest hs => absurd (hopen _ rest hs) (by decide)
    · exact fun b n _ _ => s.keepsLife_xread b n
    · exact fun rest hs => absurd (hopen _ rest hs) (by decide)

/-- The step of `init` that is not its last: after it the thread is past the `Acquire`, or still waits. -/
theorem Moves.seq_of_init {lock : Lock} {self : Nat} {m m' : Option Nat} {r : Bool} {σ : List Act}
    (h : Moves lock self m [.opAcq, .initialise] m' r σ) : σ = [.opAcq, .initialise] ∨ σ = [.initialise] := by
  cases h with
  | stay => exact .inl rfl
  | opTake | drop => exact .inr rfl
  | inside _ _ _ _ ha | take _ _ _ ha | enter _ _ _ _ ha | give _ _ _ ha | leave _ _ _ ha => cases ha

theorem State.seq_atomic_of_init (hs : s.me.seq = [.opAcq, .initialise]) :
    s.atomic.me.seq = [.opAcq, .initialise] ∨ s.atomic.me.seq = [.initialise] := by
  rcases s.atomic_moved with he | ⟨_, _, _, hm⟩
  · rw [he]
    exact .inl hs
  · rw [Moved, hs] at hm
    exact hm.seq_of_init

end Sys2Proof.Machine
end

section
/-! PROOFS. Invariants that speak of one call in progress at a time: its thread, its instance, and what remains of its
sequence. What a step must show of such an invariant is of the running thread, and of the other calls on that thread's
own instance. -/

namespace Sys2Proof.Machine

variable {s t : State} {P : Nat → List Act → Instance → Prop}

/-- `P` holds of every call in progress. -/
def State.EachCall (s : State) (P : Nat → List Act → Instance → Prop) : Prop :=
  ∀ u, (s.thread u).running = true → P u (s.thread u).seq (s.inst (s.thread u).inst)

theorem State.EachCall.on_here (h : s.EachCall P) {u : Nat} (hr : (s.thread u).running = true)
    (hk : (s.thread u).inst = s.me.inst) : P u (s.thread u).seq (s.inst s.me.inst) := by
  rw [← hk]
  exact h u hr

/-- A stretch of the running thread's call: only the calls on its instance are to be looked at again. -/
theorem State.EachCall.frame {bound : Prop} (h : s.EachCall P) (hf : Frame bound s t)
    (hme : t.me.running = true → P s.turn.tid t.me.seq (t.inst s.me.inst))
    (ho : ∀ u, u ≠ s.turn.tid → (s.thread u).running = true → (s.thread u).inst = s.me.inst →
      P u (s.thread u).seq (t.inst s.me.inst)) : t.EachCall P := by
  intro u hu
  by_cases hj : u = s.turn.tid
  · have hth : t.thread u = t.me := by rw [hj, ← hf.turn]; rfl
    rw [hth] at hu ⊢
    rw [hf.inst, hj]
    exact hme hu
  · rw [hf.threads u hj] at hu ⊢
    by_cases hk : (s.thread u).inst = s.me.inst
    · simp only [hk]
      exact ho u hj hu hk
    · simp only [hf.insts _ hk]
      exact h u hu

/-- An idle thread takes its next call: no call in progress is touched. -/
theorem State.EachCall.takeCall (h : s.EachCall P) (hr : s.me.running = false) (c : Call) :
    (s.takeCall c).EachCall P := by
  intro u hu
  rw [State.takeCall, State.thread_setMe] at hu ⊢
  by_cases hj : u = s.turn.tid
  · rw [if_pos hj] at hu
    exact absurd (hr.symm.trans hu) (by decide)
  · rw [if_neg hj] at hu ⊢
    exact h u hu

end Sys2Proof.Machine
end

section
/-! PROOFS. What a call that begins finds: past its guards no marker stands on its instance, and a lifecycle call is
alone there. -/

namespace Sys2Proof.Machine

variable {s : State} {i : Instr}

theorem Sparse.get_eq_or_mem {α : Type} (d : α) (m : Sparse α) (k : Nat) :
    Sparse.get d m k = d ∨ (k, Sparse.get d m k) ∈ m := by
  induction m with
  | nil => exact .inl rfl
  | cons e m ih =>
    obtain ⟨j, v⟩ := e
    by_cases hj : j = k
    · exact .inr (by simp [Sparse.get, hj])
    · simp only [Sparse.get, if_neg hj]
      exact ih.imp_right (List.mem_cons_of_mem _)

/-- With no other thread inside a call on the instance, a thread in a call there is the running one. -/
theorem State.eq_self_of_otherInside {k u : Nat} (h : s.otherInside k = false) (hr : (s.thread u).running = true)
    (hi : (s.thread u).inst = k) : u = s.turn.tid := by
  rcases Sparse.get_eq_or_mem Thread.idle s.threads u with hd | hm
  · rw [State.thread, hd] at hr
    cases hr
  · have := List.any_eq_false.1 h _ hm
    by_contra hu
    exact this (by simpa [State.thread, hu] using And.intro hr hi)

theorem State.no_race_of_firstFailing (h : s.firstFailing i = none) : s.here.lcBusy.isSome ≠ true ∧
    ¬(isLifecycle i = true ∧ s.otherInside s.me.inst = true) := by
  refine not_or.1 fun hr => ?_
  rw [State.firstFailing, if_pos hr] at h
  cases h

theorem State.lcBusy_of_firstFailing (h : s.firstFailing i = none) : s.here.lcBusy = none := by
  simpa using (State.no_race_of_firstFailing h).1

theorem State.alone_of_firstFailing (h : s.firstFailing i = none) (hl : isLifecycle i = true) :
    s.otherInside s.me.inst = false := by
  simpa [hl] using (State.no_race_of_firstFailing h).2

theorem State.life_of_start {c : BusConfig} (h : s.firstFailing (.start c) = none) : s.here.life ≠ .uninit := by
  intro hl
  have hg := State.guards_life h
  rw [lifeGuard, if_pos hl] at hg
  cases hg

theorem State.life_of_init {p : Nat} (h : s.firstFailing (.init p) = none) : s.here.life = .uninit := by
  have hg := State.guards_life h
  by_contra hl
  rw [lifeGuard, if_neg hl] at hg
  cases hg

theorem State.life_of_operation (h : s.firstFailing i = none) (ho : isOperation i = true) : s.here.life = .ready := by
  have hg := State.guards_life h
  by_contra hl
  rw [lifeGuard_operation _ ho, if_neg hl] at hg
  cases hg

theorem State.cfg_of_firstFailing (h : s.firstFailing i = none) (hn : needsConfig i = true) :
    s.here.cfg.isSome = true := by
  have hg := State.guards_cfg h hn
  by_contra hc
  rw [State.configGuard, if_neg hc] at hg
  cases hg

theorem isOperation_of_not_needsConfig (hn : needsConfig i = false) (hi : ∀ p, i ≠ .init p)
    (hs : ∀ c, i ≠ .start c) : isOperation i = true := by
  cases i
  case init p => exact absurd rfl (hi p)
  case start c => exact absurd rfl (hs c)
  all_goals simpa [needsConfig] using hn

/-- The configuration a call finds, or for `start` binds. -/
def State.claimed (s : State) (i : Instr) : Option BusConfig :=
  match i with
  | .start c => some c
  | _ => s.here.cfg

theorem State.claimed_of_ne_start (hs : ∀ c, i ≠ .start c) : s.claimed i = s.here.cfg := by
  unfold State.claimed
  split
  · exact absurd rfl (hs _)
  · rfl

/-- The lifecycle calls, and they alone, begin with the marker set and a configuration written. -/
theorem State.setup_eq (s : State) (i : Instr) :
    s.setup i = if isLifecycle i = true then s.claim (s.claimed i) else s := by
  cases i <;> rfl

theorem State.here_setup_lifecycle (hl : isLifecycle i = true) : (s.setup i).inst s.me.inst =
    { s.inst s.me.inst with cfg := s.claimed i, lcBusy := some s.turn.tid } := by
  rw [State.setup_eq, if_pos hl, State.claim, State.setHere_eq, State.inst_setInst_same]
  rfl

theorem State.setup_of_not_lifecycle (hl : isLifecycle i = false) : s.setup i = s := by
  rw [State.setup_eq, if_neg (by simp [hl])]

theorem callShape_init (p : Nat) : CallShape (.init p) [.opAcq, .initialise] where
  shape := by decide
  owns lock := by cases lock <;> rfl
  ready := by simp
  stop := by simp
  init _ := ⟨⟨p, rfl⟩, rfl⟩
  reads := by simp

/-- A step that answers a next state goes on with a call, has no call to make, or runs the thread's next one. -/
theorem step_cases {t : State} (h : step s = .next t) :
    t = s.takeTurn.advance s.takeTurn.turn.steps ∨ t = s.takeTurn ∨
    ∃ c i, s.takeTurn.me.running = false ∧ exec i (s.takeTurn.takeCall c) = .next t := by
  unfold step at h
  split at h
  · cases h
  · split at h
    · exact .inl (Host.Outcome.next.inj h).symm
    · next hr =>
      split at h
      · exact .inr (.inl (Host.Outcome.next.inj h).symm)
      · next c _ _ =>
        split at h
        · exact .inr (.inr ⟨c, _, by simpa using hr, h⟩)
        · cases h

end Sys2Proof.Machine
end

section
/-! PROOFS. A lifecycle call is alone on its instance (10_state.md R47, 60_exceptions.md R255): every atomic step, every
call and every turn keeps it. -/

namespace Sys2Proof.Machine

variable {s t : State} {i : Instr}

/-- What `LifecycleAlone` says of one call in progress: the marker on its instance, if any, is its thread's, and `init`
has set it. -/
def AloneOn (t : Nat) (seq : List Act) (i : Instance) : Prop :=
  (∀ u, i.lcBusy = some u → t = u) ∧
  (Act.initialise ∈ seq → (seq = [.opAcq, .initialise] ∨ seq = [.initialise]) ∧ i.lcBusy = some t)

theorem lifecycleAlone_iff : LifecycleAlone s ↔ s.EachCall AloneOn := by
  constructor
  · rintro ⟨hm, hi⟩ u hu
    exact ⟨fun v hv => hm _ v hv u hu rfl, hi u hu⟩
  · intro h
    refine ⟨fun k v hv u hu hk => (h u hu).1 v (by rw [hk]; exact hv), fun u hu => (h u hu).2⟩

variable {u : Nat} {a : Act} {seq rest : List Act} {j k : Instance}

theorem AloneOn.congr (h : AloneOn u seq j) (hb : k.lcBusy = j.lcBusy) : AloneOn u seq k := by
  unfold AloneOn
  rw [hb]
  exact h

/-- Where the marker is clear, no `init` is in progress. -/
theorem AloneOn.of_clear (hb : j.lcBusy = none) (hn : Act.initialise ∉ seq) : AloneOn u seq j :=
  ⟨fun _ hv => absurd (hb.symm.trans hv) nofun, fun hm => absurd hm hn⟩

/-- After the last element of a lifecycle call nothing of `init` remains. -/
theorem AloneOn.not_mem_rest (h : AloneOn u (a :: rest) j) (ha : a.closes = true) : Act.initialise ∉ rest := by
  intro hm
  obtain ⟨hs, -⟩ := h.2 (List.mem_cons_of_mem _ hm)
  rcases hs with hs | hs
  · obtain ⟨rfl, -⟩ := List.cons.inj hs
    cases ha
  · obtain ⟨-, rfl⟩ := List.cons.inj hs
    cases hm

/-- No other call on the instance of one that is alone is inside `init`. -/
theorem AloneOn.not_init_beside {v : Nat} {seq' : List Act} (h : AloneOn u seq j) (hv : AloneOn v seq' j)
    (hn : v ≠ u) : Act.initialise ∉ seq' := fun hm => hn (h.1 v (hv.2 hm).2).symm

/-- The running thread's own call, on an instance whose marker is as it was. -/
theorem AloneOn.atomic (h : AloneOn s.turn.tid s.me.seq j) (hc : ∀ a rest, s.me.seq = a :: rest → a.closes = false) :
    AloneOn s.turn.tid s.atomic.me.seq j := by
  refine ⟨h.1, fun hm => ?_⟩
  obtain ⟨hs | hs, hb⟩ := h.2 (State.mem_seq_atomic hm rfl)
  · exact ⟨State.seq_atomic_of_init hs, hb⟩
  · exact absurd (hc _ _ hs) (by decide)

theorem LifecycleAlone.atomic (h : LifecycleAlone s) : LifecycleAlone s.atomic := by
  rw [lifecycleAlone_iff] at h ⊢
  rcases s.atomic_life with he | ⟨hr, hc, hl⟩ | ⟨a, rest, hr, hs, ha, he⟩
  · rw [he]
    exact h
  · refine h.frame s.atomic_frame (fun _ => ?_) fun u hu hru hk => ?_
    · exact ((h _ hr).congr (hl _).lcBusy).atomic hc
    · exact (h.on_here hru hk).congr (hl _).lcBusy
  · have hme : AloneOn s.turn.tid (a :: rest) s.here := hs ▸ h _ hr
    have hb : (s.atomic.inst s.me.inst).lcBusy = none := by
      rw [he, State.inst_closed, Instance.lcBusy_closed _ ha]
    refine h.frame s.atomic_frame (fun _ => .of_clear hb ?_) fun u hu hru hk => .of_clear hb ?_
    · rw [he, State.seq_closed, hs]
      exact hme.not_mem_rest ha
    · exact hme.not_init_beside (h.on_here hru hk) hu

theorem LifecycleAlone.advance (h : LifecycleAlone s) (n : Nat) : LifecycleAlone (s.advance n) := by
  induction n generalizing s with
  | zero => exact h
  | succ n ih => exact ih h.atomic

/-- A call begins past its guards. -/
theorem LifecycleAlone.begin {acts : List Act} {ret : RetKind} (h : LifecycleAlone s)
    (hg : s.firstFailing i = none) (hs : CallShape i acts) : LifecycleAlone ((s.setup i).begin acts ret) := by
  rw [lifecycleAlone_iff] at h ⊢
  have hf := (Frame.setup s i).begin acts ret
  cases hl : isLifecycle i with
  | false =>
    have hn : Act.initialise ∉ acts := fun hm => by
      obtain ⟨⟨p, rfl⟩, -⟩ := hs.init hm
      cases hl
    rw [State.setup_of_not_lifecycle hl] at hf ⊢
    refine h.frame hf (fun _ => .of_clear (State.lcBusy_of_firstFailing hg) (by simpa using hn)) fun u _ hru hk => ?_
    exact h.on_here hru hk
  | true =>
    refine h.frame hf (fun _ => ?_) fun u hu hru hk =>
      absurd (State.eq_self_of_otherInside (State.alone_of_firstFailing hg hl) hru hk) hu
    rw [State.inst_begin, State.here_setup_lifecycle hl, State.seq_begin]
    exact ⟨fun v hv => Option.some.inj hv, fun hm => ⟨.inl (hs.init hm).2, rfl⟩⟩

end Sys2Proof.Machine
end

section
/-! PROOFS. The lifecycle invariant (10_state.md R42, R43, R45, R47): every atomic step, every call and every turn keeps
it. -/

namespace Sys2Proof.Machine

variable {s t : State} {i : Instr}

/-- What `LifeInv` says of one instance. -/
def Instance.LifeOk (i : Instance) : Prop :=
  (i.life = .uninit → i.cfg = none ∧ i.delays = false) ∧ (i.life ≠ .uninit → i.delays = true) ∧
  (i.life = .ready → i.cfg.isSome = true)

/-- What `LifeInv` says of one call in progress, beside being alone. -/
def LifeFits (_ : Nat) (seq : List Act) (i : Instance) : Prop :=
  if Act.initialise ∈ seq then i.life = .uninit else i.cfg.isSome = true

theorem lifeInv_iff : LifeInv s ↔ LifecycleAlone s ∧ (∀ k, (s.inst k).LifeOk) ∧ s.EachCall LifeFits := Iff.rfl

variable {u : Nat} {seq : List Act} {j k : Instance}

theorem Instance.LifeOk.congr (h : j.LifeOk) (hl : j.SameLife k) : k.LifeOk := by
  unfold Instance.LifeOk
  rw [hl.life, hl.cfg, hl.delays]
  exact h

theorem LifeFits.congr {seq' : List Act} (h : LifeFits u seq j) (hm : Act.initialise ∈ seq' ↔ Act.initialise ∈ seq)
    (hl : j.SameLife k) : LifeFits u seq' k := by
  simpa only [LifeFits, hm, hl.life, hl.cfg] using h

theorem LifeFits.of_cfg (hn : Act.initialise ∉ seq) (hc : j.cfg.isSome = true) : LifeFits u seq j := by
  rw [LifeFits, if_neg hn]
  exact hc

theorem LifeFits.cfg (h : LifeFits u seq j) (hn : Act.initialise ∉ seq) : j.cfg.isSome = true := by
  rwa [LifeFits, if_neg hn] at h

theorem Instance.LifeOk.initialised (i : Instance) : i.initialised.LifeOk :=
  ⟨nofun, fun _ => rfl, nofun⟩

theorem Instance.LifeOk.life_ne_uninit (h : j.LifeOk) (hc : j.cfg.isSome = true) : j.life ≠ .uninit := fun hl => by
  rw [(h.1 hl).1] at hc
  cases hc

/-- A configured instance has its delays bound. -/
theorem Instance.LifeOk.delays (h : j.LifeOk) (hc : j.cfg.isSome = true) : j.delays = true :=
  h.2.1 (h.life_ne_uninit hc)

/-- The end of `start` or of `stop`, on a configured instance. -/
theorem Instance.LifeOk.closed {a : Act} (h : j.LifeOk) (hc : j.cfg.isSome = true) (ha : a.closes = true)
    (hn : a ≠ .initialise) : (j.closed a).LifeOk := by
  obtain ⟨hl, hcfg, hd⟩ := j.closed_of_ne_initialise ha hn
  exact ⟨fun hu => absurd hu hl, fun _ => hd.trans (h.delays hc), fun _ => by rw [hcfg]; exact hc⟩

/-- One instance changed, and it fits. -/
theorem lifeOk_frame {bound : Prop} (h : ∀ k, (s.inst k).LifeOk) (hf : Frame bound s t)
    (hme : (t.inst s.me.inst).LifeOk) (k : Nat) : (t.inst k).LifeOk := by
  by_cases hk : k = s.me.inst
  · rw [hk]
    exact hme
  · rw [hf.insts k hk]
    exact h k

/-- While the running thread stays in its call, `init` is what it is inside or not, as it was. -/
theorem mem_init_atomic (h : AloneOn s.turn.tid s.me.seq j)
    (hc : ∀ a rest, s.me.seq = a :: rest → a.closes = false) :
    Act.initialise ∈ s.atomic.me.seq ↔ Act.initialise ∈ s.me.seq := by
  refine ⟨fun hm => State.mem_seq_atomic hm rfl, fun hm => ?_⟩
  rcases (h.2 hm).1 with hs | hs
  · rcases State.seq_atomic_of_init hs with hs' | hs' <;> simp [hs']
  · exact absurd (hc _ _ hs) (by decide)

/-- The last step of `init`: the call has returned, and there is no other on its instance. -/
theorem LifeInv.atomic_initialise {rest : List Act} (h : LifeInv s) (hr : s.me.running = true)
    (hs : s.me.seq = .initialise :: rest) (he : s.atomic = (s.setHere s.here.initialised).pop) :
    (∀ k, (s.atomic.inst k).LifeOk) ∧ s.atomic.EachCall LifeFits := by
  obtain ⟨hA, hI, hC⟩ := lifeInv_iff.1 h
  rw [lifecycleAlone_iff] at hA
  obtain ⟨hseq, hb⟩ := (hA _ hr).2 (by simp [hs])
  have hidle : s.atomic.me.running = false := by
    rw [he, State.running_pop (by exact hr)]
    rcases hseq with hseq | hseq
    · exact absurd (hs.symm.trans hseq) (by simp)
    · rw [State.setHere_eq, State.me_setInst, show s.me.seq = _ from hseq]
      rfl
  refine ⟨lifeOk_frame hI s.atomic_frame ?_, hC.frame s.atomic_frame (fun hrun => ?_) fun u hu hru hk => ?_⟩
  · rw [he, State.inst_pop, State.setHere_eq, State.inst_setInst_same]
    exact .initialised _
  · exact absurd (hidle.symm.trans hrun) (by decide)
  · exact absurd ((hA.on_here hru hk).1 s.turn.tid hb) hu

/-- The last step of `start` or `stop`: the configuration stands, and no `init` is in progress on its instance. -/
theorem LifeInv.atomic_closes {a : Act} {rest : List Act} (h : LifeInv s) (hr : s.me.running = true)
    (hs : s.me.seq = a :: rest) (ha : a.closes = true) (hn : a ≠ .initialise)
    (he : s.atomic = (s.setHere (s.here.closed a)).pop) :
    (∀ k, (s.atomic.inst k).LifeOk) ∧ s.atomic.EachCall LifeFits := by
  obtain ⟨hA, hI, hC⟩ := lifeInv_iff.1 h
  rw [lifecycleAlone_iff] at hA
  have hme : AloneOn s.turn.tid (a :: rest) s.here := hs ▸ hA _ hr
  have hrest := hme.not_mem_rest ha
  have hcfg : s.here.cfg.isSome = true := (hC _ hr).cfg fun hm => by
    rw [State.thread_me, hs] at hm
    exact (List.mem_cons.1 hm).elim (fun e => hn e.symm) hrest
  have hi : s.atomic.inst s.me.inst = s.here.closed a := by rw [he, State.inst_closed]
  have hcfg' : (s.atomic.inst s.me.inst).cfg.isSome = true := by
    rw [hi, (s.here.closed_of_ne_initialise ha hn).2.1]
    exact hcfg
  refine ⟨lifeOk_frame hI s.atomic_frame ?_, hC.frame s.atomic_frame (fun _ => .of_cfg ?_ hcfg')
    fun u hu hru hk => .of_cfg (hme.not_init_beside (hA.on_here hru hk) hu) hcfg'⟩
  · rw [hi]
    exact (hI _).closed hcfg ha hn
  · rw [he, State.seq_closed, hs]
    exact hrest

theorem LifeInv.atomic (h : LifeInv s) : LifeInv s.atomic := by
  obtain ⟨hA, hI, hC⟩ := lifeInv_iff.1 h
  refine lifeInv_iff.2 ⟨hA.atomic, ?_⟩
  rcases s.atomic_life with he | ⟨hr, hc, hl⟩ | ⟨a, rest, hr, hs, ha, he⟩
  · rw [he]
    exact ⟨hI, hC⟩
  · refine ⟨fun k => (hI k).congr (hl k), hC.frame s.atomic_frame (fun _ => ?_) fun u _ hru hk => ?_⟩
    · exact (hC _ hr).congr (mem_init_atomic (lifecycleAlone_iff.1 hA _ hr) hc) (hl _)
    · exact (hC.on_here hru hk).congr .rfl (hl _)
  · by_cases hn : a = .initialise
    · subst hn
      exact h.atomic_initialise hr hs he
    · exact h.atomic_closes hr hs ha hn he

theorem LifeInv.advance (h : LifeInv s) (n : Nat) : LifeInv (s.advance n) := by
  induction n generalizing s with
  | zero => exact h
  | succ n ih => exact ih h.atomic

/-- Past its guards every call but `init` has a configuration, found or, by `start`, bound. -/
theorem State.isSome_claimed (h : LifeInv s) (hg : s.firstFailing i = none) (hi : ∀ p, i ≠ .init p) :
    (s.claimed i).isSome = true := by
  by_cases hst : ∃ c, i = .start c
  · obtain ⟨c, rfl⟩ := hst
    rfl
  · rw [State.claimed_of_ne_start fun c hc => hst ⟨c, hc⟩]
    cases hn : needsConfig i with
    | true => exact State.cfg_of_firstFailing hg hn
    | false =>
      obtain ⟨-, hI, -⟩ := lifeInv_iff.1 h
      exact (hI _).2.2 (State.life_of_operation hg (isOperation_of_not_needsConfig hn hi fun c hc => hst ⟨c, hc⟩))

/-- The configuration of the instance a call begins on. -/
theorem State.cfg_setup (s : State) (i : Instr) : ((s.setup i).inst s.me.inst).cfg = s.claimed i := by
  cases hl : isLifecycle i with
  | true => rw [State.here_setup_lifecycle hl]
  | false =>
    rw [State.setup_of_not_lifecycle hl, State.claimed_of_ne_start fun c hc => by simp [hc, isLifecycle] at hl]
    rfl

theorem State.life_delays_setup (s : State) (i : Instr) : ((s.setup i).inst s.me.inst).life = s.here.life ∧
    ((s.setup i).inst s.me.inst).delays = s.here.delays := by
  cases hl : isLifecycle i with
  | true =>
    rw [State.here_setup_lifecycle hl]
    exact ⟨rfl, rfl⟩
  | false =>
    rw [State.setup_of_not_lifecycle hl]
    exact ⟨rfl, rfl⟩

/-- The beginning of a call changes the configuration only in `start`, which needs `life ≠ UNINIT`. -/
theorem Instance.LifeOk.setup (h : s.here.LifeOk) (hg : s.firstFailing i = none) :
    ((s.setup i).inst s.me.inst).LifeOk := by
  unfold Instance.LifeOk
  rw [s.cfg_setup, (s.life_delays_setup i).1, (s.life_delays_setup i).2]
  cases i
  case start c =>
    exact ⟨fun hu => absurd hu (State.life_of_start hg), h.2.1, fun _ => rfl⟩
  all_goals exact h

/-- What a call that begins is inside of: `init`, on an UNINIT instance, or a call with a configuration. -/
theorem LifeFits.begin {acts : List Act} (h : LifeInv s) (hg : s.firstFailing i = none) (hs : CallShape i acts)
    (hm : ∀ p, i = .init p → Act.initialise ∈ acts) :
    LifeFits s.turn.tid acts ((s.setup i).inst s.me.inst) := by
  by_cases hi : ∃ p, i = .init p
  · obtain ⟨p, rfl⟩ := hi
    rw [LifeFits, if_pos (hm p rfl), (s.life_delays_setup _).1]
    exact State.life_of_init hg
  · refine .of_cfg (fun hmem => hi (hs.init hmem).1) ?_
    rw [s.cfg_setup]
    exact State.isSome_claimed h hg fun p hp => hi ⟨p, hp⟩

/-- A call begins past its guards. -/
theorem LifeInv.begin {acts : List Act} {ret : RetKind} (h : LifeInv s) (hg : s.firstFailing i = none)
    (hs : CallShape i acts) (hm : ∀ p, i = .init p → Act.initialise ∈ acts) :
    LifeInv ((s.setup i).begin acts ret) := by
  obtain ⟨hA, hI, hC⟩ := lifeInv_iff.1 h
  have hf := (Frame.setup s i).begin acts ret
  refine lifeInv_iff.2 ⟨hA.begin hg hs, lifeOk_frame hI hf ((hI _).setup hg), hC.frame hf (fun _ => ?_)
    fun u hu hru hk => ?_⟩
  · rw [State.seq_begin]
    exact LifeFits.begin h hg hs hm
  · cases hl : isLifecycle i with
    | false =>
      rw [State.setup_of_not_lifecycle hl]
      exact hC.on_here hru hk
    | true => exact absurd (State.eq_self_of_otherInside (State.alone_of_firstFailing hg hl) hru hk) hu

/-- A call that answers a next state has raised Fatal, or has begun and gone on for its turn; one that is `init` has
begun inside it. -/
theorem exec_begins (h : exec i s = .next t) :
    (∃ reason, s.firstFailing i = some reason ∧ t = s.raiseFatal reason) ∨
    (s.firstFailing i = none ∧ ∃ ret acts, CallShape i acts ∧ (∀ p, i = .init p → Act.initialise ∈ acts) ∧
      t = ((s.setup i).begin acts ret).advance s.turn.steps) := by
  rcases exec_cases h with hr | ⟨hg, -, ret, acts, hs, rfl⟩
  · exact .inl hr
  refine .inr ⟨hg, ?_⟩
  by_cases hi : ∃ p, i = .init p
  · obtain ⟨p, rfl⟩ := hi
    rw [exec_init hg] at h
    exact ⟨_, _, callShape_init p, fun _ _ => by simp, (Host.Outcome.next.inj h).symm⟩
  · exact ⟨ret, acts, hs, fun p hp => absurd ⟨p, hp⟩ hi, rfl⟩

theorem LifeInv.exec (h : LifeInv s) (he : exec i s = .next t) : LifeInv t := by
  rcases exec_begins he with ⟨reason, -, rfl⟩ | ⟨hg, ret, acts, hs, hm, rfl⟩
  · exact h
  · exact (h.begin hg hs hm).advance _

theorem LifeInv.takeCall (h : LifeInv s) (hr : s.me.running = false) (c : Call) : LifeInv (s.takeCall c) := by
  obtain ⟨hA, hI, hC⟩ := lifeInv_iff.1 h
  exact lifeInv_iff.2 ⟨lifecycleAlone_iff.2 ((lifecycleAlone_iff.1 hA).takeCall hr c), hI, hC.takeCall hr c⟩

end Sys2Proof.Machine

open Sys2Proof.Machine

/-- Settles O57: a step goes on with a call (`LifeInv.advance`), begins one or raises Fatal (`LifeInv.exec`), or only
takes the turn. -/
theorem stepKeepsLifecycle : Obligations.StepKeepsLifecycle := by
  unfold Obligations.StepKeepsLifecycle
  intro s t h hst
  rcases step_cases hst with rfl | rfl | ⟨c, i, hr, he⟩
  · exact LifeInv.advance (s := s.takeTurn) h _
  · exact h
  · exact (LifeInv.takeCall (s := s.takeTurn) h hr c).exec he

end

section
/-! PROOFS. The invariants at reset (10_state.md R57). -/

namespace Sys2Proof.Machine

/-- No call is in progress at reset. -/
theorem State.eachCall_reset (P : Nat → List Act → Instance → Prop) : State.reset.EachCall P := fun _ => nofun

theorem LifecycleAlone.reset : LifecycleAlone State.reset := lifecycleAlone_iff.2 (State.eachCall_reset _)

theorem Instance.LifeOk.fresh : Instance.fresh.LifeOk := ⟨fun _ => ⟨rfl, rfl⟩, fun h => absurd rfl h, nofun⟩

end Sys2Proof.Machine

open Sys2Proof.Machine

/-- Settles O58: every instance is fresh, and no call is in progress. -/
theorem resetHasLifecycle : Obligations.ResetHasLifecycle := by
  unfold Obligations.ResetHasLifecycle
  exact lifeInv_iff.2 ⟨.reset, fun _ => .fresh, State.eachCall_reset _⟩

/-- Settles O55: no call is in progress. -/
theorem resetHasMutexOwnership : Obligations.ResetHasMutexOwnership := by
  unfold Obligations.ResetHasMutexOwnership
  exact ⟨.reset, fun _ => nofun⟩

end

section
/-! PROOFS. A sleeping thread's instance has its delays bound (10_state.md R45): `init` alone runs without, and it does
not sleep. -/

namespace Sys2Proof.Machine

variable {s : State}

@[simp] theorem State.trace_pop (s : State) : s.pop.trace = s.trace := by
  unfold State.pop
  split <;> rfl

@[simp] theorem State.trace_acquire_pop (s : State) : (s.acquire State.pop).trace = s.trace := by
  unfold State.acquire
  split
  · exact State.trace_pop _
  · rfl

/-- Neither element of `init` records an event. -/
theorem State.trace_atomic_of_init (hs : s.me.seq = [.opAcq, .initialise] ∨ s.me.seq = [.initialise]) :
    s.atomic.trace = s.trace := by
  rcases s.atomic_moved with he | ⟨hf, hr, hh, -⟩
  · rw [he]
  rcases hs with hs | hs <;> rw [s.atomic_head hf hr hh hs]
  · simp only [State.perform]
    split <;> simp
  · simp [State.perform]

end Sys2Proof.Machine

open Sys2Proof.Machine

/-- Settles O50: a step with an event is no step of `init`, so its instance is configured, and then its delays are bound
(`Instance.LifeOk.delays`). -/
theorem sleepNeedsBoundDelays : Obligations.SleepNeedsBoundDelays := by
  unfold Obligations.SleepNeedsBoundDelays
  intro s us h ht
  obtain ⟨hA, hI, hC⟩ := lifeInv_iff.1 h
  have hne : s.atomic.trace ≠ s.trace := by
    rw [ht]
    simp
  have hr : s.me.running = true := by
    by_contra hr
    exact hne (by rw [s.atomic_idle (by simpa using hr)])
  have hn : Act.initialise ∉ s.me.seq := fun hm =>
    hne (State.trace_atomic_of_init ((lifecycleAlone_iff.1 hA _ hr).2 hm).1)
  exact (hI _).delays ((hC _ hr).cfg hn)

end

section
/-! PROOFS. What a whole step leaves alone, between the state before it and the state after it. -/

namespace Sys2Proof.Machine

variable {s t : State}

/-- A step's frame, from a state that has the instances and the other threads of the state before the step: the taking
of the turn and of the call changes none of them. -/
theorem step_origin (h : step s = .next t) : ∃ o, Frame False o t ∧ (∀ k, o.inst k = s.inst k) ∧
    ∀ j, j ≠ o.turn.tid → o.thread j = s.thread j := by
  rcases step_frame h with hf | ⟨c, rest, -, hf⟩
  · exact ⟨_, hf, fun _ => rfl, fun _ _ => rfl⟩
  · refine ⟨_, hf, fun _ => rfl, fun j hj => ?_⟩
    exact (s.takeTurn.thread_setMe j _).trans (if_neg hj)

end Sys2Proof.Machine

open Sys2Proof.Machine

/-- Settles O45: the frame of a step says so of the instances and of the other threads (`step_origin`). -/
theorem stepTouchesOneInstanceAndThread : Obligations.StepTouchesOneInstanceAndThread := by
  unfold Obligations.StepTouchesOneInstanceAndThread
  intro s t h
  obtain ⟨o, hf, hi, ht⟩ := step_origin h
  rw [hf.inst, hf.turn]
  exact ⟨fun k hk => (hf.insts k hk).trans (hi k), fun j hj => ht j hj ▸ hf.threads j hj⟩

/-- Settles O46: the instance of the call keeps its parameters, and every other its whole record. -/
theorem parametersNeverChange : Obligations.ParametersNeverChange := by
  unfold Obligations.ParametersNeverChange
  intro s t h k
  obtain ⟨o, hf, hi, -⟩ := step_origin h
  rw [← hi k]
  by_cases hk : k = o.me.inst
  · rw [hk, ← hf.inst, ← State.here_eq, hf.params, hf.inst]
    rfl
  · rw [hf.insts k hk]

end

section
/-! PROOFS. The port byte of an image and the nibbles of a captured byte (10_state.md R34, R35; 30_encoding.md R100,
R112). -/

namespace Sys2Proof.Machine

variable {l : Layout} {img : PortImage} {p q : Nat}

/-- A legal layout keeps its fields apart. -/
theorem Layout.wf_iff : l.wf = true ↔ l.dt ≤ 4 ∧
    (∀ p ∈ [l.rs, l.rw, l.en, l.bl], p < 8 ∧ (p < l.dt ∨ l.dt + 4 ≤ p)) ∧
    [l.rs, l.rw, l.en, l.bl].Nodup := by
  simp only [Layout.wf, Bool.and_eq_true, decide_eq_true_eq, List.all_eq_true, Bool.or_eq_true, and_assoc]

theorem getLsbD_bitAt (b : Bool) (p : Nat) (hq : q < 8) : (bitAt b p).getLsbD q = (b && decide (q = p)) := by
  cases b with
  | false => simp [bitAt]
  | true =>
    rw [Bool.eq_iff_iff]
    simp [bitAt, hq]
    omega

/-- The DT field is clear outside its four bits. -/
theorem getLsbD_dt_outside (n : Nib) (hq : q < l.dt ∨ l.dt + 4 ≤ q) :
    (n.setWidth 8 <<< l.dt : Byte).getLsbD q = false := by
  rw [BitVec.getLsbD_shiftLeft]
  rcases hq with hq | hq
  · simp [hq]
  · simp [BitVec.getLsbD_of_ge n (q - l.dt) (by omega)]

theorem getLsbD_serialize (hq : q < 8) : (serialize l img).getLsbD q =
    ((img.rs && decide (q = l.rs)) || (img.rw && decide (q = l.rw)) || (img.en && decide (q = l.en)) ||
      (img.bl && decide (q = l.bl)) || (img.dt.setWidth 8 <<< l.dt : Byte).getLsbD q) := by
  simp only [serialize, BitVec.getLsbD_or, getLsbD_bitAt _ _ hq]

/-- Under a legal layout each one-bit field stands at its own bit. -/
theorem serialize_bits (h : l.wf = true) (img : PortImage) : getBit (serialize l img) l.rs = img.rs ∧
    getBit (serialize l img) l.rw = img.rw ∧ getBit (serialize l img) l.en = img.en ∧
    getBit (serialize l img) l.bl = img.bl := by
  obtain ⟨-, hp, hn⟩ := Layout.wf_iff.1 h
  simp only [List.mem_cons, List.not_mem_nil, or_false, forall_eq_or_imp, forall_eq] at hp
  obtain ⟨⟨h1, d1⟩, ⟨h2, d2⟩, ⟨h3, d3⟩, h4, d4⟩ := hp
  simp only [List.nodup_cons, List.mem_cons, List.not_mem_nil, or_false, not_or] at hn
  obtain ⟨⟨n12, n13, n14⟩, ⟨n23, n24⟩, n34, -⟩ := hn
  refine ⟨?_, ?_, ?_, ?_⟩
  · simp [getBit, getLsbD_serialize h1, getLsbD_dt_outside _ d1, n12, n13, n14]
  · simp [getBit, getLsbD_serialize h2, getLsbD_dt_outside _ d2, Ne.symm n12, n23, n24]
  · simp [getBit, getLsbD_serialize h3, getLsbD_dt_outside _ d3, Ne.symm n13, Ne.symm n23, n34]
  · simp [getBit, getLsbD_serialize h4, getLsbD_dt_outside _ d4, Ne.symm n14, Ne.symm n24, Ne.symm n34]

/-- And the data nibble at its four. -/
theorem dtOf_serialize (h : l.wf = true) (img : PortImage) : dtOf l (serialize l img) = img.dt := by
  obtain ⟨hd, hp, -⟩ := Layout.wf_iff.1 h
  refine BitVec.eq_of_getLsbD_eq fun q hq => ?_
  have hlt : l.dt + q < 8 := by omega
  have hsep : ∀ p ∈ [l.rs, l.rw, l.en, l.bl], l.dt + q ≠ p := fun p hm => by
    have := (hp p hm).2
    omega
  simp only [List.mem_cons, List.not_mem_nil, or_false, forall_eq_or_imp, forall_eq] at hsep
  rw [dtOf, BitVec.getLsbD_setWidth, BitVec.getLsbD_ushiftRight, getLsbD_serialize hlt]
  simp [hsep, hq, hlt]

/-- The Format P byte is the serialised image of the table's layout. -/
theorem serialize_d1 (img : PortImage) : serialize .d1 img = packPort img := rfl

theorem packPort_unpackPort (b : Byte) : packPort (unpackPort b) = b := by
  revert b
  decide

/-- Two nibbles joined stand side by side. -/
theorem joinNib_eq_append (h l : Nib) : joinNib h l = h ++ l := by
  revert h l
  decide

theorem readValue_four (p : Params) (b1 b2 : Byte) :
    readValue p b1 b2 .four = joinNib (dtOf p.layout b1) (dtOf p.layout b2) := rfl

theorem readValue_eight (p : Params) (b1 b2 : Byte) : readValue p b1 b2 .eight = joinNib (dtOf p.layout b1) 0#4 := by
  simp [readValue, joinNib]

end Sys2Proof.Machine

open Sys2Proof Sys2Proof.Machine

/-- Settles O5: each field of the image can be read off the byte under a legal layout, and the byte of `unpackPort b`
is `b`. -/
theorem portByteOfImage : Obligations.PortByteOfImage := by
  unfold Obligations.PortByteOfImage
  refine ⟨?_, fun l i j hl h => ?_,
    fun b => ⟨unpackPort b, (serialize_d1 _).trans (packPort_unpackPort b)⟩⟩
  · rintro ⟨rs, rw, en, bl, dt⟩
    revert rs rw en bl dt
    decide
  · obtain ⟨h1, h2, h3, h4⟩ := serialize_bits hl i
    obtain ⟨g1, g2, g3, g4⟩ := serialize_bits hl j
    have hd := dtOf_serialize hl i
    rw [h] at h1 h2 h3 h4 hd
    cases i
    cases j
    simp only [PortImage.mk.injEq]
    exact ⟨h1.symm.trans g1, h2.symm.trans g2, h3.symm.trans g3, h4.symm.trans g4,
      hd.symm.trans (dtOf_serialize hl _)⟩

/-- Settles O6: the joined nibbles stand side by side (`joinNib_eq_append`). -/
theorem readByteIsAssembledHighNibbleFirst : Obligations.ReadByteIsAssembledHighNibbleFirst := by
  unfold Obligations.ReadByteIsAssembledHighNibbleFirst
  refine ⟨by decide, fun p c1 c2 => ⟨?_, ?_⟩⟩
  · rw [readValue_four, joinNib_eq_append]
  · rw [readValue_eight, joinNib_eq_append]

end

section
/-! PROOFS. A lifecycle call in progress (10_state.md R47; 42_controller.md R203, R210): the marker, the lifecycle state
and the configuration from its first step to its return. -/

namespace Sys2Proof.Machine

variable {s : State} {i : Instr} {fin : Act} {σ : List Act} {life : Life} {cfg : Option BusConfig}

/-- What remains of a lifecycle call: elements that leave the lifecycle fields alone, and the last, `fin`. -/
def EndsWith (fin : Act) (σ : List Act) : Prop := ∃ pre, σ = pre ++ [fin] ∧ ∀ a ∈ pre, a.closes = false

theorem EndsWith.cons {a : Act} (h : EndsWith fin σ) (ha : a.closes = false) : EndsWith fin (a :: σ) := by
  obtain ⟨pre, rfl, hp⟩ := h
  exact ⟨a :: pre, rfl, List.forall_mem_cons.2 ⟨ha, hp⟩⟩

/-- Before `fin` there is more to come. -/
theorem EndsWith.of_cons {a : Act} (h : EndsWith fin (a :: σ)) (hfin : fin.closes = true) (ha : a.closes = false) :
    EndsWith fin σ := by
  obtain ⟨pre, he, hp⟩ := h
  cases pre with
  | nil =>
    obtain ⟨rfl, -⟩ := List.cons.inj he
    exact absurd (hfin.symm.trans ha) (by decide)
  | cons b pre =>
    obtain ⟨-, rfl⟩ := List.cons.inj he
    exact ⟨pre, rfl, fun c hc => hp c (List.mem_cons_of_mem _ hc)⟩

/-- At `fin` there is not. -/
theorem EndsWith.of_closes {a : Act} (h : EndsWith fin (a :: σ)) (ha : a.closes = true) : a = fin ∧ σ = [] := by
  obtain ⟨pre, he, hp⟩ := h
  cases pre with
  | nil => exact List.cons.inj he
  | cons b pre =>
    obtain ⟨rfl, -⟩ := List.cons.inj he
    exact absurd (ha.symm.trans (hp _ (by simp))) (by decide)

theorem EndsWith.not_isEmpty (h : EndsWith fin σ) : (!σ.isEmpty) = true := by
  obtain ⟨pre, rfl, -⟩ := h
  simp

theorem Act.closes_of_inAccess {a : Act} (h : a.inAccess = true) : a.closes = false := by
  by_contra hc
  have := Act.isAccess_of_closes (by simpa using hc)
  exact absurd (this.symm.trans (Act.isAccess_of_inAccess h)) (by decide)

/-- A step at an element before `fin` stays in the call. -/
theorem Moves.endsWith {lock : Lock} {self : Nat} {m m' : Option Nat} {r : Bool} {σ' : List Act}
    (h : Moves lock self m σ m' r σ') (he : EndsWith fin σ) (hfin : fin.closes = true)
    (hc : ∀ a rest, σ = a :: rest → a.closes = false) : r = true ∧ EndsWith fin σ' := by
  have hrest : ∀ a rest, σ = a :: rest → EndsWith fin rest := fun a rest hs =>
    (hs ▸ he).of_cons hfin (hc a rest hs)
  cases h with
  | stay => exact ⟨rfl, he⟩
  | inside _ _ _ _ _ hb | take _ _ _ _ hb | enter _ _ _ _ _ hb =>
    exact ⟨rfl, (hrest _ _ rfl).cons (Act.closes_of_inAccess hb)⟩
  | load => exact ⟨rfl, (hrest _ _ rfl).cons rfl⟩
  | give | leave | opTake | opGive | init | drop => exact ⟨(hrest _ _ rfl).not_isEmpty, hrest _ _ rfl⟩
  | done => exact absurd he.not_isEmpty (by decide)

/-- The running thread is inside a lifecycle call whose last element is `fin`: the marker is its own, and `life` and the
configuration are these. -/
structure InLifecycle (fin : Act) (life : Life) (cfg : Option BusConfig) (s : State) : Prop where
  running : s.me.running = true
  seq : EndsWith fin s.me.seq
  lcBusy : s.here.lcBusy = some s.turn.tid
  life : s.here.life = life
  cfg : s.here.cfg = cfg

/-- The call has returned: the marker is clear, and unless it was `init` the configuration is this. -/
structure LifecycleOver (fin : Act) (cfg : Option BusConfig) (s : State) : Prop where
  running : s.me.running = false
  lcBusy : s.here.lcBusy = none
  cfg : fin ≠ .initialise → s.here.cfg = cfg

theorem InLifecycle.atomic (h : InLifecycle fin life cfg s) (hfin : fin.closes = true) :
    InLifecycle fin life cfg s.atomic ∨ LifecycleOver fin cfg s.atomic := by
  have hf := s.atomic_frame
  have hi : s.atomic.here = s.atomic.inst s.me.inst := by rw [State.here_eq, hf.inst]
  rcases s.atomic_life with he | ⟨hr, hc, hl⟩ | ⟨a, rest, hr, hs, ha, he⟩
  · rw [he]
    exact .inl h
  · obtain ⟨hlife, hcfg, -, hbusy⟩ := hl s.me.inst
    rcases s.atomic_moved with he | ⟨-, -, -, hm⟩
    · rw [he]
      exact .inl h
    · obtain ⟨hrun, hseq⟩ := hm.endsWith h.seq hfin hc
      refine .inl ⟨hrun, hseq, ?_, ?_, ?_⟩
      · rw [hi, hf.turn, hbusy]
        exact h.lcBusy
      · rw [hi, hlife]
        exact h.life
      · rw [hi, hcfg]
        exact h.cfg
  · obtain ⟨rfl, rfl⟩ := (hs ▸ h.seq).of_closes ha
    have hclosed : s.atomic.here = s.here.closed a := by
      rw [hi, he, State.inst_closed]
    refine .inr ⟨?_, ?_, fun hn => ?_⟩
    · rw [he, State.running_pop (by exact hr)]
      simp [hs]
    · rw [hclosed, Instance.lcBusy_closed _ ha]
    · rw [hclosed, (s.here.closed_of_ne_initialise ha hn).2.1]
      exact h.cfg

theorem InLifecycle.advance (h : InLifecycle fin life cfg s) (hfin : fin.closes = true) (n : Nat) :
    InLifecycle fin life cfg (s.advance n) ∨ LifecycleOver fin cfg (s.advance n) := by
  induction n generalizing s with
  | zero => exact .inl h
  | succ n ih =>
    rw [State.advance_succ]
    rcases h.atomic hfin with h' | h'
    · exact ih h'
    · rw [State.advance_idle h'.running]
      exact .inr h'

theorem State.call_of_guard {guard : Option FatalReason} (hg : guard = none) (setup : State → State) (ret : RetKind)
    (acts : List Act) : s.call guard setup ret acts = .next (((setup s).begin acts ret).advance s.turn.steps) := by
  rw [hg]
  rfl

/-- A lifecycle call begins past its guards. -/
theorem exec_lifecycle_begins (hl : isLifecycle i = true) (hg : s.firstFailing i = none) :
    ∃ ret acts fin, exec i s = .next (((s.setup i).begin acts ret).advance s.turn.steps) ∧ EndsWith fin acts ∧
      fin.closes = true ∧ (fin = .initialise → ∃ p, i = .init p) := by
  cases i <;> simp only [isLifecycle, Bool.false_eq_true] at hl
  case init p =>
    exact ⟨_, _, .initialise, exec_init hg, ⟨[.opAcq], rfl, by simp [Act.closes]⟩, rfl, fun _ => ⟨p, rfl⟩⟩
  case start c =>
    rw [s.firstFailing_unconfigured rfl] at hg
    exact ⟨_, _, .setReady, State.call_of_guard (guard := (s.raceGuard true).or s.initGuard) hg
        (fun s => s.claim (some c)) .nothing (bringUp s.params),
      ⟨(bringUp s.params).dropLast, rfl, by simp [bringUp, Act.closes]⟩, rfl, nofun⟩
  case stop =>
    rw [s.firstFailing_eq] at hg
    exact ⟨_, _, .setStop, State.call_of_guard (guard := ((s.raceGuard true).or s.initGuard).or s.configGuard) hg
        (fun s => s.claim s.here.cfg) .nothing
        [.opAcq, .write .acq false (cmdDisplay s.params.cmd false false false) .four .short, .opRel, .blSet false,
          .setStop],
      ⟨[.opAcq, .write .acq false (cmdDisplay s.params.cmd false false false) .four .short, .opRel, .blSet false],
        rfl, by simp [Act.closes]⟩, rfl, nofun⟩

theorem InLifecycle.begin {acts : List Act} (hl : isLifecycle i = true) (ret : RetKind) (hs : EndsWith fin acts) :
    InLifecycle fin s.here.life (s.claimed i) ((s.setup i).begin acts ret) := by
  have hi : ((s.setup i).begin acts ret).here = (s.setup i).inst s.me.inst := by
    rw [State.here_eq, ((Frame.setup s i).begin acts ret).inst, State.inst_begin]
  refine ⟨by rw [State.me_begin], by rw [State.seq_begin]; exact hs, ?_, ?_, ?_⟩
  · rw [hi, State.here_setup_lifecycle hl, State.turn_begin, (Frame.setup s i).turn]
  · rw [hi, (s.life_delays_setup i).1]
  · rw [hi, s.cfg_setup]

end Sys2Proof.Machine

open Sys2Proof.Machine

/-- Settles O59: the call begins marked (`InLifecycle.begin`), and stays so or is over (`InLifecycle.advance`). -/
theorem lifecycleCallsAreMarkedThroughout : Obligations.LifecycleCallsAreMarkedThroughout := by
  unfold Obligations.LifecycleCallsAreMarkedThroughout
  intro s i hl hg
  obtain ⟨ret, acts, fin, he, hs, hfin, hinit⟩ := exec_lifecycle_begins hl hg
  have hf := ((Frame.setup s i).begin acts ret).trans (Frame.advance _ s.turn.steps)
  have hm := (InLifecycle.begin (s := s) hl ret hs).advance hfin s.turn.steps
  generalize State.advance s.turn.steps ((s.setup i).begin acts ret) = t at he hf hm
  refine ⟨t, he, ?_⟩
  rw [← hf.inst, ← State.here_eq, ← hf.turn]
  rcases hm with h | h
  · rw [h.running, if_pos rfl, h.cfg]
    exact ⟨h.lcBusy, fun _ => h.life, fun c hc => by rw [hc]; rfl, fun hc => by rw [hc]; rfl⟩
  · have hcfg (hn : ∀ p, i ≠ .init p) : t.here.cfg = s.claimed i :=
      h.cfg fun hf => (hinit hf).elim hn
    rw [h.running, if_neg (by decide)]
    exact ⟨h.lcBusy, nofun, fun c hc => (hcfg (by simp [hc])).trans (by rw [hc]; rfl),
      fun hc => (hcfg (by simp [hc])).trans (by rw [hc]; rfl)⟩

end

section
/-! PROOFS. The two steps of `init` on a free mutex (42_controller.md R201, R232), and the values they leave
(10_state.md R57). -/

namespace Sys2Proof.Machine

variable {s : State}

/-- `init` from its beginning to its return, in either lock mode. -/
theorem State.advance_init {p : Nat} (hf : s.fatal = none) (hh : s.me.hung = false) (hm : s.here.mutex = none) :
    ((s.setup (.init p)).begin [.opAcq, .initialise] .nothing).advance 2 =
      (s.setHere s.here.initialised).setMe { s.me.atRest with rets := s.me.rets ++ [.nothing] } := by
  simp only [State.here_eq] at hm
  cases hk : (s.inst s.me.inst).params.lock <;>
    simp [State.advance, State.atomic, State.setup, State.claim, State.begin, State.perform, State.pop, State.acquire,
      State.finish, Thread.atRest, Instance.initialised, retValue, hf, hh, hm, hk]

theorem Instance.serialize_initialised (i : Instance) : serialize .d1 i.initialised.img = 0x08#8 := by
  simp only [Instance.initialised]
  decide

theorem exec_init_done {p : Nat} (hg : s.firstFailing (.init p) = none) (hf : s.fatal = none) (hh : s.me.hung = false)
    (hm : s.here.mutex = none) (hn : 2 ≤ s.turn.steps) : exec (.init p) s =
      .next ((s.setHere s.here.initialised).setMe { s.me.atRest with rets := s.me.rets ++ [.nothing] }) := by
  rw [exec_init hg, State.advance_done hn, State.advance_init hf hh hm]
  rw [State.advance_init hf hh hm, State.me_setMe]
  rfl

end Sys2Proof.Machine

open Sys2Proof.Machine

/-- Settles O13: at reset nothing is listed, and `init` returns in two steps (`exec_init_done`). -/
theorem freshAndInitialisedValues : Obligations.FreshAndInitialisedValues := by
  unfold Obligations.FreshAndInitialisedValues
  refine ⟨fun _ => ⟨rfl, rfl, rfl, rfl, rfl, rfl⟩, fun _ => ⟨rfl, rfl⟩, fun _ => rfl, fun s p hg hf hh hm hn => ?_⟩
  refine ⟨_, exec_init_done hg hf hh hm hn, ?_⟩
  rw [State.inst_setMe, State.setHere_eq, State.inst_setInst_same, State.me_setMe]
  exact ⟨rfl, s.here.serialize_initialised, rfl, rfl, rfl, rfl, rfl, rfl, rfl, rfl, fun _ => rfl⟩

end

section
/-! PROOFS. `Acquire` of a held mutex (10_state.md R44): the thread waits at its position, for however many steps. -/

namespace Sys2Proof.Machine

variable {s : State} {c : BusConfig} {a : Act} {acts : List Act} {owner : Nat}

theorem addWaiter_addWaiter (t : Nat) (us : List Nat) : addWaiter t (addWaiter t us) = addWaiter t us := by
  induction us with
  | nil => simp [addWaiter]
  | cons u us ih =>
    by_cases hlt : t < u
    · simp [addWaiter, hlt]
    · by_cases heq : t = u
      · simp [addWaiter, heq]
      · simp [addWaiter, hlt, heq, ih]

theorem mem_addWaiter {t u : Nat} {us : List Nat} : u ∈ addWaiter t us ↔ u = t ∨ u ∈ us := by
  induction us with
  | nil => simp [addWaiter]
  | cons v us ih =>
    by_cases hlt : t < v
    · simp [addWaiter, hlt]
    · by_cases heq : t = v
      · simp [addWaiter, heq]
      · simp [addWaiter, hlt, heq, ih, or_left_comm]

/-- The running thread among the waiters of its instance's mutex. -/
def State.waiting (s : State) : State :=
  s.setInst s.me.inst { s.inst s.me.inst with waiters := addWaiter s.turn.tid (s.inst s.me.inst).waiters }

@[simp] theorem State.me_waiting (s : State) : s.waiting.me = s.me := rfl

theorem State.here_waiting (s : State) : s.waiting.here =
    { s.inst s.me.inst with waiters := addWaiter s.turn.tid (s.inst s.me.inst).waiters } := State.inst_setInst_same ..

@[simp] theorem State.waiting_waiting (s : State) : s.waiting.waiting = s.waiting := by
  simp [State.waiting, addWaiter_addWaiter]

/-- Whether an element's step is an `Acquire` of the mutex, in this lock granularity. -/
def Act.acquires (lock : Lock) (a : Act) : Prop :=
  a.begins = true ∧ (lock = .access ∨ a.isBurst = true) ∨ a = .opAcq ∧ lock = .operation

theorem State.perform_held (ha : a.acquires s.here.params.lock) (hm : s.here.mutex = some owner) :
    s.perform a = s.waiting := by
  have hacq : ∀ go, s.acquire go = s.waiting := fun _ => s.acquire_held hm
  rcases ha with ⟨hb, hl⟩ | ⟨rfl, hl⟩
  · cases a with
    | write pos | read pos =>
      cases pos <;> simp only [Act.begins, reduceCtorEq, decide_false, Bool.false_eq_true] at hb
      have hl : s.params.lock = .access := hl.resolve_right nofun
      simp only [State.perform, State.writeStep, State.readStep, State.enterAccess, hl, hacq]
    | burst pos =>
      cases pos <;> simp only [Act.begins, reduceCtorEq, decide_false, Bool.false_eq_true] at hb
      simp only [State.perform, State.burstStep, hacq]
    | _ => cases hb
  · have hl : s.params.lock = .operation := hl
    simp only [State.perform, hl, hacq]

/-- However long its turn, a thread at an `Acquire` of a held mutex waits. -/
theorem State.advance_held (hf : s.fatal = none) (hr : s.me.running = true) (hh : s.me.hung = false)
    (hs : s.me.seq = a :: acts) (ha : a.acquires s.here.params.lock)
    (hm : s.here.mutex = some owner) {n : Nat} (hn : 1 ≤ n) : s.advance n = s.waiting := by
  obtain ⟨n, rfl⟩ := Nat.exists_eq_add_of_le' hn
  rw [State.advance_succ, s.atomic_head hf hr hh hs, State.perform_held ha hm]
  refine State.advance_fixed ?_ n
  rw [s.waiting.atomic_head hf hr hh hs, State.perform_held (owner := owner), State.waiting_waiting]
  · rw [State.here_waiting]
    exact ha
  · rw [State.here_waiting]
    exact hm

theorem State.here_begin (s : State) (acts : List Act) (ret : RetKind) : (s.begin acts ret).here = s.here := by
  rw [State.here_eq, State.me_begin]
  rfl

theorem State.Bound.advance_begin_held (h : s.Bound c) (ha : a.acquires s.here.params.lock)
    (hm : s.here.mutex = some owner) (ret : RetKind) {n : Nat} (hn : 1 ≤ n) :
    (s.begin (a :: acts) ret).advance n = (s.begin (a :: acts) ret).waiting :=
  State.advance_held (s := s.begin (a :: acts) ret) (owner := owner) h.fatal (by rw [State.me_begin])
    (by rw [State.me_begin]; exact h.hung) (State.seq_begin ..) (by rw [State.here_begin]; exact ha)
    (by rw [State.here_begin]; exact hm) hn

/-- Under ACCESS the `Acquire` of an operation does nothing. -/
theorem State.Bound.atomic_opAcq_access (h : s.Bound c) (hl : s.here.params.lock = .access) (ret : RetKind) :
    (s.begin (.opAcq :: a :: acts) ret).atomic = s.begin (a :: acts) ret := by
  have hl' : (s.begin (.opAcq :: a :: acts) ret).here.params.lock = .access := by rw [State.here_begin, hl]
  rw [State.atomic_head (s.begin _ ret) h.fatal (by rw [State.me_begin]) (by rw [State.me_begin]; exact h.hung)
    (State.seq_begin ..)]
  simp only [State.perform, State.params, hl']
  rw [State.pop_more (a := a) (rest := acts) (by simp)]
  simp [State.begin]

/-- The first element of an operation after its `Acquire` is an access to begin. -/
theorem exec_operation_begins {i : Instr} (ho : isOperation i = true) (s : State) :
    ∃ ret a acts, exec i s = s.operation ret (a :: acts) ∧ a.begins = true := by
  cases i <;> simp only [isOperation, Bool.false_eq_true] at ho
  case readData ddram offset =>
    exact ⟨_, positionAct s.params ddram offset, _, rfl, by cases ddram <;> rfl⟩
  all_goals exact ⟨_, _, _, rfl, rfl⟩

/-- A controller operation on an instance whose mutex is held waits: under OPERATION at its `Acquire`, under ACCESS at
that of its first access, one step later. -/
theorem State.Bound.operation_held (h : s.Bound c) (hl : s.here.life = .ready) (hm : s.here.mutex = some owner)
    (hn : 2 ≤ s.turn.steps) (ret : RetKind) (ha : a.begins = true) :
    ∃ seq, s.operation ret (a :: acts) = .next (s.begin seq ret).waiting := by
  rw [h.toCanCall.operation hl]
  cases hk : s.here.params.lock with
  | operation =>
    exact ⟨_, congrArg _ (h.advance_begin_held (.inr ⟨rfl, hk⟩) hm ret (by omega))⟩
  | access =>
    obtain ⟨n, hn'⟩ := Nat.exists_eq_add_of_le' hn
    refine ⟨a :: (acts ++ [.opRel]), congrArg _ ?_⟩
    rw [hn', State.advance_succ, List.cons_append, List.cons_append, h.atomic_opAcq_access hk]
    exact h.advance_begin_held (.inl ⟨ha, .inl hk⟩) hm ret (by omega)

/-- A direct access or bare burst waits at its own `Acquire`. -/
theorem State.Bound.engineCall_held (h : s.Bound c) (ha : a.acquires s.here.params.lock)
    (hm : s.here.mutex = some owner) (hn : 2 ≤ s.turn.steps) (ret : RetKind) :
    ∃ seq, s.engineCall ret [a] = .next (s.begin seq ret).waiting := by
  rw [h.engineCall]
  exact ⟨_, congrArg _ (h.advance_begin_held ha hm ret (by omega))⟩

end Sys2Proof.Machine

open Sys2Proof Sys2Proof.Machine

/-- Settles O38: each of the calls comes to an `Acquire` of the held mutex (`State.Bound.engineCall_held`,
`State.Bound.operation_held`), and there only the waiters change. -/
theorem heldMutexMakesTheCallerWait : Obligations.HeldMutexMakesTheCallerWait := by
  unfold Obligations.HeldMutexMakesTheCallerWait
  intro s c i owner hi h hm hn
  have hwait : ∃ ret seq, exec i s = .next (s.begin seq ret).waiting := by
    rcases hi with ⟨hw | hr, hl⟩ | hb | ⟨ho, hl⟩
    · obtain ⟨w, hw⟩ := Option.isSome_iff_exists.1 hw
      rw [engineWrite_exec hw]
      exact ⟨_, h.engineCall_held (.inl ⟨rfl, .inl hl⟩) hm hn _⟩
    · obtain ⟨⟨rs, width⟩, hr⟩ := Option.isSome_iff_exists.1 hr
      rw [engineRead_exec hr]
      exact ⟨_, h.engineCall_held (.inl ⟨rfl, .inl hl⟩) hm hn _⟩
    · obtain ⟨images, hb⟩ := Option.isSome_iff_exists.1 hb
      rw [burstOf_exec hb]
      exact ⟨_, h.engineCall_held (.inl ⟨rfl, .inr rfl⟩) hm hn _⟩
    · obtain ⟨ret, a, acts, he, ha⟩ := exec_operation_begins ho s
      rw [he]
      exact ⟨_, h.operation_held hl hm hn ret ha⟩
  obtain ⟨ret, seq, he⟩ := hwait
  refine ⟨_, he, ?_, ?_, fun u => mem_addWaiter, fun k hk => ?_, fun j hj => ?_, fun _ => rfl, fun _ => rfl, rfl,
    h.fatal, rfl, rfl⟩
  · simp
  · simpa using (s.begin seq ret).here_waiting
  · simp [State.waiting, State.inst_setInst, hk]
  · rw [State.waiting, State.thread_setInst, State.begin, State.thread_setMe, if_neg hj]

end

section
/-! PROOFS. What an atomic step does to the port image of its instance, said once (10_state.md R36,
70_reset_and_hazards.md R291). -/

namespace Sys2Proof.Machine

variable {s : State} {k : Nat}

/-! ### What leaves every image alone -/

/-- Every instance's image is as it was. -/
def State.KeepsImg (s t : State) : Prop := ∀ k, (t.inst k).img = (s.inst k).img

theorem State.keepsImg_setInst (s : State) {v : Instance} (hv : v.img = (s.inst k).img) : s.KeepsImg (s.setInst k v) := by
  intro j
  rw [State.inst_setInst]
  split
  · next hj => rw [hv, hj]
  · rfl

theorem State.KeepsImg.trans {t u : State} (h : s.KeepsImg t) (g : t.KeepsImg u) : s.KeepsImg u :=
  fun k => (g k).trans (h k)

theorem State.keepsImg_pop (s : State) : s.KeepsImg s.pop := fun k => by rw [State.inst_pop]

theorem State.keepsImg_portWrite (s : State) (bytes : List Byte) (m : Bool) {next : Status → State → State}
    (hn : ∀ st (u : State), u.KeepsImg (next st u)) : s.KeepsImg (s.portWrite bytes m next) := by
  unfold State.portWrite
  split
  · exact fun _ => rfl
  · split
    · exact fun k => hn _ _ k
    · exact fun _ => rfl

theorem State.keepsImg_portRead (s : State) (n : Nat) {next : Status → List Byte → State → State}
    (hn : ∀ st cs (u : State), u.KeepsImg (next st cs u)) : s.KeepsImg (s.portRead n next) := by
  unfold State.portRead
  split
  · exact fun _ => rfl
  · split
    · exact fun k => hn _ _ _ k
    · exact fun k => hn _ _ _ k
    · exact fun _ => rfl

theorem State.keepsImg_acquire (s : State) {go : State → State} (hg : ∀ u : State, u.KeepsImg (go u)) :
    s.KeepsImg (s.acquire go) := by
  unfold State.acquire
  split
  · exact State.KeepsImg.trans (s.keepsImg_setInst (by rfl)) (hg _)
  · exact s.keepsImg_setInst rfl

theorem State.keepsImg_release (s : State) : s.KeepsImg s.release := s.keepsImg_setInst rfl

theorem State.keepsImg_enterAccess (s : State) (a : Act) : s.KeepsImg (s.enterAccess a) := by
  unfold State.enterAccess
  split
  · exact s.keepsImg_acquire fun _ _ => rfl
  · exact fun _ => rfl

/-! ### What writes the image -/

/-- Without an overlap there is no draw. -/
theorem State.holdBl_of_not_race (h : s.me.race = false) : s.holdBl = s := by
  rw [State.holdBl, if_neg (by simp [h])]

theorem State.img_sendImages (s : State) (images : List PortImage) {next : Status → State → State}
    (hn : ∀ st (u : State), u.KeepsImg (next st u)) :
    ((s.sendImages images next).inst s.me.inst).img = images.getLastD s.img := by
  unfold State.sendImages
  refine (State.keepsImg_portWrite _ _ _ hn _).trans ?_
  simp

theorem State.img_leaveAccess (s : State) (j : Nat) : (s.leaveAccess.inst j).img = (s.holdBl.inst j).img := by
  unfold State.leaveAccess
  split
  · exact ((State.keepsImg_release _).trans (State.keepsImg_pop _)) j
  · exact State.keepsImg_pop _ j

theorem State.img_setImg_bl {u : State} (hi : u.me.inst = s.me.inst) (hu : s.KeepsImg u) (on : Bool) :
    ((u.setImg { u.img with bl := on }).inst s.me.inst).img = { s.img with bl := on } := by
  rw [State.setImg_eq, ← hi, State.inst_setInst_same, State.img_eq, State.img_eq, hu, hi]

theorem State.img_blWriteStep (s : State) (on : Bool) :
    ((s.blWriteStep on).inst s.me.inst).img = { s.img with bl := on } := by
  unfold State.blWriteStep
  refine (State.keepsImg_portWrite _ _ _ (fun _ u => u.keepsImg_pop) _).trans ?_
  refine State.img_setImg_bl ?_ ?_ on
  · split <;> split <;> simp
  · split <;> split <;> exact fun _ => rfl

/-! ### An element of a sequence -/

/-- From image `i` to image `j` by element `a`, the access in progress marked as overlapped or not. -/
inductive ImgMoves (race : Bool) : Act → PortImage → PortImage → Prop
  | keep (a : Act) (i : PortImage) : ImgMoves race a i i
  | init (i j : PortImage) : ImgMoves race .initialise i j
  | backlight (a : Act) (i : PortImage) (on : Bool) (ha : (∃ on, a = .blSet on) ∨ a = .blWrite) :
      ImgMoves race a i { i with bl := on }
  | burst (a : Act) (i j : PortImage) (ha : a.inAccess = true) (hb : a.isBurst = true) : ImgMoves race a i j
  | access (a : Act) (i j : PortImage) (ha : a.inAccess = true) (hbl : race = false → j.bl = i.bl) :
      ImgMoves race a i j

theorem ImgMoves.of_eq {race : Bool} {a : Act} {i j : PortImage} (h : j = i) : ImgMoves race a i j := by
  rw [h]
  exact .keep a i

theorem ImgMoves.protocol {race : Bool} {a : Act} {i j : PortImage} (h : ImgMoves race a i j)
    (hne : { j with bl := false } ≠ { i with bl := false }) : a = .initialise ∨ a.inAccess = true := by
  cases h with
  | keep => exact absurd rfl hne
  | init => exact .inl rfl
  | backlight => exact absurd rfl hne
  | burst _ _ _ ha | access _ _ _ ha => exact .inr ha

theorem ImgMoves.bl {race : Bool} {a : Act} {i j : PortImage} (h : ImgMoves race a i j) (hne : j.bl ≠ i.bl) :
    race = true ∨ a = .initialise ∨ (∃ on, a = .blSet on) ∨ a = .blWrite ∨ a.isBurst = true := by
  cases h with
  | keep => exact absurd rfl hne
  | init => exact .inr (.inl rfl)
  | backlight _ _ _ ha => exact .inr (.inr (ha.imp_right .inl))
  | burst _ _ _ _ hb => exact .inr (.inr (.inr (.inr hb)))
  | access _ _ _ _ hbl => exact .inl (by simpa using fun hr => hne (hbl hr))

/-- A batch of an access, composed from the image with the BL the batch carries. -/
theorem State.imgMoves_sendImages (s : State) {a : Act} (ha : a.inAccess = true) {images : PortImage → List PortImage}
    (hbl : ∀ img, ((images img).getLastD img).bl = img.bl) {next : Status → State → State}
    (hn : ∀ st (u : State), u.KeepsImg (next st u)) : ImgMoves s.me.race a s.img
      ((s.holdBl.sendImages (images s.holdBl.img) next).inst s.me.inst).img := by
  refine .access _ _ _ ha fun hr => ?_
  rw [State.holdBl_of_not_race hr, State.img_sendImages s _ hn]
  exact hbl s.img

/-- The end of an access. -/
theorem State.imgMoves_leaveAccess (s : State) {a : Act} (ha : a.inAccess = true) :
    ImgMoves s.me.race a s.img (s.leaveAccess.inst s.me.inst).img := by
  refine .access _ _ _ ha fun hr => ?_
  rw [State.img_leaveAccess, State.holdBl_of_not_race hr]
  rfl

theorem State.imgMoves_setSt_leaveAccess (s : State) (st : Status) {a : Act} (ha : a.inAccess = true) :
    ImgMoves s.me.race a s.img ((s.setSt st).leaveAccess.inst s.me.inst).img := by
  have h := (s.setSt st).imgMoves_leaveAccess ha
  rw [State.img_eq, State.setSt, State.me_setMe] at h
  exact h

theorem State.keepsImg_goto (s : State) (a : Act) : s.KeepsImg (s.goto a) := fun _ => rfl

theorem State.imgMoves_write (s : State) (pos : WPos) (rs : Bool) (v : Byte) (width : Width) (settle : Settle) :
    ImgMoves s.me.race (.write pos rs v width settle) s.img
      ((s.writeStep pos rs v width settle).inst s.me.inst).img := by
  cases pos with
  | acq => exact .of_eq (s.keepsImg_enterAccess _ _)
  | send =>
    exact s.imgMoves_sendImages (images := fun img => writeImages img rs v width) rfl (fun _ => by cases width <;> rfl)
      fun _ u => u.keepsImg_goto _
  | settle => exact .keep _ _
  | rel => exact s.imgMoves_leaveAccess rfl

theorem State.imgMoves_read (s : State) (pos : RPos) (rs : Bool) (width : Width) :
    ImgMoves s.me.race (.read pos rs width) s.img ((s.readStep pos rs width).inst s.me.inst).img := by
  cases pos with
  | acq => exact .of_eq (s.keepsImg_enterAccess _ _)
  | setupHi =>
    exact s.imgMoves_sendImages (images := fun img => readSetupImages img rs) rfl (fun _ => rfl)
      fun st u => by cases st <;> exact u.keepsImg_goto _
  | setupLo =>
    exact s.imgMoves_sendImages (images := fun img => [{ img with en := false }, { img with en := true }]) rfl
      (fun _ => rfl) fun st u => by cases st <;> exact u.keepsImg_goto _
  | idle =>
    exact s.imgMoves_sendImages (images := fun img => [{ img with en := false }]) rfl (fun _ => rfl)
      fun _ u => u.keepsImg_goto _
  | capHi | capLo => exact .of_eq (s.keepsImg_portRead _ (fun st _ _ => by cases st <;> exact fun _ => rfl) _)
  | settle => cases rs <;> exact .keep _ _
  | rel => exact s.imgMoves_setSt_leaveAccess .ok rfl
  | abort => exact s.imgMoves_setSt_leaveAccess .fail rfl

theorem State.imgMoves_burst (s : State) (pos : BPos) (images : List PortImage) :
    ImgMoves s.me.race (.burst pos images) s.img ((s.burstStep pos images).inst s.me.inst).img := by
  cases pos with
  | acq =>
    exact .of_eq (s.keepsImg_acquire (go := fun s => s.beginAccess.goto (.burst .send images)) (fun _ _ => rfl) _)
  | send | rel => exact .burst _ _ _ rfl rfl

theorem State.perform_img (s : State) (a : Act) : ImgMoves s.me.race a s.img ((s.perform a).inst s.me.inst).img := by
  cases a with
  | write pos rs v width settle => exact s.imgMoves_write ..
  | read pos rs width => exact s.imgMoves_read ..
  | burst pos images => exact s.imgMoves_burst ..
  | initialise => exact .init _ _
  | blSet on =>
    simp only [State.perform]
    rw [s.img_blWriteStep]
    exact .backlight _ _ _ (.inl ⟨on, rfl⟩)
  | blWrite =>
    simp only [State.perform]
    rw [s.img_blWriteStep]
    exact .backlight _ _ _ (.inr rfl)
  | load src i =>
    refine .of_eq ?_
    simp only [State.perform]
    split <;> rfl
  | sleep us => exact .of_eq (State.keepsImg_pop _ _)
  | opAcq =>
    refine .of_eq ?_
    simp only [State.perform]
    split
    · exact s.keepsImg_pop _
    · exact s.keepsImg_acquire State.keepsImg_pop _
  | opRel =>
    refine .of_eq ?_
    simp only [State.perform]
    split
    · exact s.keepsImg_pop _
    · exact (s.keepsImg_release.trans (State.keepsImg_pop _)) _
  | blRead => exact .of_eq (State.keepsImg_pop _ _)
  | setReady | setStop =>
    refine .of_eq ?_
    simp only [State.perform, State.inst_pop]
    exact s.keepsImg_setInst (by rfl) _
  | xwrite values len m => exact .of_eq (s.keepsImg_portWrite _ _ (fun st u => (u.setSt st).keepsImg_pop) _)
  | xwriteByte value m => exact .of_eq (s.keepsImg_portWrite _ _ (fun st u => (u.setSt st).keepsImg_pop) _)
  | xread buffer len =>
    refine .of_eq (s.keepsImg_portRead _ (fun st cs u => ?_) _)
    refine State.KeepsImg.trans (fun k => ?_) (State.keepsImg_pop ((u.writeMemBytes buffer.base cs).setSt st))
    exact congrArg Instance.img (u.inst_writeMemBytes ..)
  | xreadByte =>
    exact .of_eq (s.keepsImg_portRead _ (fun st cs u => ((u.setR (cs.headD 0#8)).setSt st).keepsImg_pop) _)

/-- An atomic step leaves the image of its instance alone, or moves it as the element at the head of the sequence. -/
theorem State.atomic_img (s : State) : (s.atomic.inst s.me.inst).img = s.img ∨
    ∃ a rest, s.me.running = true ∧ s.me.seq = a :: rest ∧
      ImgMoves s.me.race a s.img (s.atomic.inst s.me.inst).img := by
  rcases s.atomic_moved with he | ⟨hf, hr, hh, -⟩
  · exact .inl (by rw [he]; rfl)
  · cases hs : s.me.seq with
    | nil => exact .inl (by simp [State.atomic, hf, hr, hh, hs, State.finish])
    | cons a rest =>
      rw [s.atomic_head hf hr hh hs]
      exact .inr ⟨a, rest, hr, rfl, s.perform_img a⟩

/-- A thread inside an access that takes the mutex, or that stands before an operation's `Release`, owns it. -/
theorem ownsMutex_of_inAccess {lock : Lock} {a : Act} {rest : List Act} (ha : a.inAccess = true)
    (h : lock = .access ∨ a.isBurst = true ∨ rest.any Act.releases = true) : ownsMutex lock (a :: rest) = true := by
  have hn : a ≠ .opAcq := by
    rintro rfl
    cases ha
  cases lock with
  | access => exact ha
  | operation =>
    rcases h with h | h | h
    · cases h
    · simp [ownsMutex, ha, h]
    · simp [ownsMutex, List.any_cons, h, hn]

end Sys2Proof.Machine

open Sys2Proof.Machine

/-- Settles O49: another instance is left alone by the frame of a step; of its own, a step moves the image as the head
of its sequence does (`ImgMoves.protocol`, `ImgMoves.bl`), and an access or bare burst that has begun owns the mutex by
the invariant. -/
theorem protocolFieldsChangeOnlyUnderTheMutex : Obligations.ProtocolFieldsChangeOnlyUnderTheMutex := by
  unfold Obligations.ProtocolFieldsChangeOnlyUnderTheMutex
  rintro s k ⟨-, hinv⟩
  by_cases hk : k = s.me.inst
  · subst hk
    rcases s.atomic_img with he | ⟨a, rest, hr, hs, hm⟩
    · exact ⟨fun hne => absurd (by rw [he]; rfl) hne, fun hne => absurd (by rw [he]; rfl) hne⟩
    · refine ⟨fun hne => ⟨rfl, a, rest, hs, (hm.protocol hne).imp_right fun ha => ⟨ha, fun h => ?_⟩⟩,
        fun hne => ⟨rfl, ?_⟩⟩
      · obtain ⟨-, hown⟩ := hinv _ hr
        exact hown (by rw [State.thread_me, hs]; exact ownsMutex_of_inAccess ha h)
      · exact (hm.bl hne).imp_right fun h => ⟨a, rest, hs, h⟩
  · rw [s.atomic_frame.insts k hk]
    exact ⟨fun hne => absurd rfl hne, fun hne => absurd rfl hne⟩

end

section
/-! PROOFS. Mutual exclusion (20_memory.md R90; 41_bus_engine.md R174, R175): what `Moves` does to the mutex, to the
shape of the sequence and to whether its position owns the mutex, and that every step keeps the owners apart. -/

namespace Sys2Proof.Machine

variable {s t : State} {i : Instr}

/-! ### Positions and sequences -/

variable {lock : Lock} {self u : Nat} {m m' : Option Nat} {r : Bool} {a b : Act} {σ σ' rest : List Act}

theorem Act.isAccess_of_begins (h : a.begins = true) : a.isAccess = true := by
  cases a with
  | write | read | burst => rfl
  | _ => cases h

theorem Act.releases_of_isAccess (h : a.isAccess = true) : a.releases = false := by
  cases a with
  | write | read | burst => rfl
  | _ => cases h

theorem Act.ne_opAcq_of_isAccess (h : a.isAccess = true) : a ≠ .opAcq := by
  rintro rfl
  cases h

/-- What may stand after the head of a sequence is inside no access, and is no bare burst. -/
theorem Act.not_inAccess_of_initial (h : a.initial = true) : a.inAccess = false ∧ a.isBurst = false := by
  cases a with
  | write pos | read pos => exact ⟨by simpa [Act.initial, Act.inAccess] using h, rfl⟩
  | burst => cases h
  | _ => exact ⟨rfl, rfl⟩

theorem seqShape_cons_iff : seqShape (a :: rest) = true ↔
    rest.all Act.initial = true ∧ (a :: rest).countP Act.releases ≤ 1 ∧ (a.isBurst = true → rest = []) := by
  cases rest <;> simp [seqShape, and_assoc]

theorem seqShape_replace (h : seqShape (a :: rest) = true) (hr : b.releases = a.releases)
    (hk : b.isBurst = a.isBurst) : seqShape (b :: rest) = true := by
  rw [seqShape_cons_iff, List.countP_cons] at h ⊢
  rwa [hr, hk]

/-- The shape does not depend on the position of the access at the head. -/
theorem seqShape_position (h : seqShape (a :: rest) = true) (ha : a.isAccess = true) (hb : b.isAccess = true)
    (hk : b.isBurst = a.isBurst) : seqShape (b :: rest) = true :=
  seqShape_replace h ((Act.releases_of_isAccess hb).trans (Act.releases_of_isAccess ha).symm) hk

theorem seqShape_tail (h : seqShape (a :: rest) = true) : seqShape rest = true := by
  obtain ⟨hi, hc, -⟩ := seqShape_cons_iff.1 h
  cases rest with
  | nil => rfl
  | cons b rest =>
    rw [List.all_cons, Bool.and_eq_true] at hi
    rw [List.countP_cons] at hc
    have hb := (Act.not_inAccess_of_initial hi.1).2
    exact seqShape_cons_iff.2 ⟨hi.2, by omega, fun h => absurd (hb.symm.trans h) (by decide)⟩

/-- An element that releases the mutex has none after it that does. -/
theorem any_releases_of_shape (h : seqShape (a :: rest) = true) (ha : a.releases = true) :
    rest.any Act.releases = false := by
  obtain ⟨-, hc, -⟩ := seqShape_cons_iff.1 h
  rw [List.countP_cons, if_pos ha] at hc
  simpa using List.countP_eq_zero.1 (by omega : rest.countP Act.releases = 0)

/-- After an element that is done, only the `Release` of an operation to come makes its thread the owner. -/
theorem owns_tail (h : seqShape (a :: rest) = true) (ho : ownsMutex lock rest = true) :
    lock = .operation ∧ rest.any Act.releases = true := by
  cases rest with
  | nil => cases ho
  | cons b rest =>
    obtain ⟨hi, -, -⟩ := seqShape_cons_iff.1 h
    obtain ⟨hin, hb⟩ := Act.not_inAccess_of_initial (List.all_eq_true.1 hi b (by simp))
    cases lock with
    | access => exact absurd (hin.symm.trans ho) (by decide)
    | operation =>
      simp only [ownsMutex, hb, Bool.false_and, Bool.false_or, Bool.and_eq_true] at ho
      exact ⟨rfl, ho.1⟩

theorem owns_of_release_to_come (ha : a ≠ .opAcq) (h : rest.any Act.releases = true) :
    ownsMutex .operation (a :: rest) = true := by
  simp [ownsMutex, ha, h]

/-- A position inside an access that takes the mutex itself owns it. -/
theorem owns_of_locks (ha : a.inAccess = true) (hl : a.locks lock = true) : ownsMutex lock (a :: rest) = true := by
  refine ownsMutex_of_inAccess ha ?_
  simp only [Act.locks, Bool.or_eq_true, decide_eq_true_eq] at hl
  exact hl.imp_right .inl

/-- Where an access does not take the mutex itself, its position owns it as its operation does. -/
theorem owns_inside_iff (hl : a.locks lock = false) (ha : a.isAccess = true) :
    ownsMutex lock (a :: rest) = true ↔ rest.any Act.releases = true := by
  simp only [Act.locks, Bool.or_eq_false_iff, decide_eq_false_iff_not] at hl
  obtain ⟨hl, hb⟩ := hl
  cases lock with
  | access => exact absurd rfl hl
  | operation => simp [ownsMutex, hb, Act.ne_opAcq_of_isAccess ha, Act.releases_of_isAccess ha]

/-- Another position of such an access owns the mutex only where this one does. -/
theorem owns_before (hl : a.locks lock = false) (ha : a.isAccess = true) (hb : b.isAccess = true)
    (hk : b.isBurst = a.isBurst) (ho : ownsMutex lock (b :: rest) = true) : ownsMutex lock (a :: rest) = true := by
  have hl' : b.locks lock = false := by rwa [Act.locks, hk]
  exact (owns_inside_iff hl ha).2 ((owns_inside_iff hl' hb).1 ho)

/-! ### One step of the running thread's call -/

theorem Moves.keeps_shape (h : Moves lock self m σ m' r σ') (hs : seqShape σ = true) : seqShape σ' = true := by
  cases h with
  | stay | done => exact hs
  | inside _ _ _ _ ha hb hk =>
    exact seqShape_position hs (Act.isAccess_of_inAccess ha) (Act.isAccess_of_inAccess hb) hk
  | take _ _ _ ha hb hk | enter _ _ _ _ ha hb hk =>
    exact seqShape_position hs (Act.isAccess_of_begins ha) (Act.isAccess_of_inAccess hb) hk
  | load => exact seqShape_replace hs rfl rfl
  | give | leave | opTake | opGive | init | drop => exact seqShape_tail hs

/-- Where the new position owns the mutex, the thread has it: the old one owned it, or the step has taken it. -/
theorem Moves.owns (h : Moves lock self m σ m' r σ') (hs : seqShape σ = true)
    (hm : ownsMutex lock σ = true → m = some self) (ho : ownsMutex lock σ' = true) : m' = some self := by
  cases h with
  | stay | done => exact hm ho
  | take | opTake => rfl
  | load =>
    cases lock with
    | access => simp [ownsMutex, Act.inAccess] at ho
    | operation => exact hm (by simpa [ownsMutex, Act.isBurst, Act.releases] using ho)
  | inside _ a _ _ ha hb hk =>
    cases hl : a.locks lock with
    | true => exact hm (owns_of_locks ha hl)
    | false => exact hm (owns_before hl (Act.isAccess_of_inAccess ha) (Act.isAccess_of_inAccess hb) hk ho)
  | enter _ _ _ _ ha hb hk hl =>
    exact hm (owns_before hl (Act.isAccess_of_begins ha) (Act.isAccess_of_inAccess hb) hk ho)
  | give _ a rest _ hl =>
    obtain ⟨rfl, hr⟩ := owns_tail hs ho
    obtain ⟨-, -, halone⟩ := seqShape_cons_iff.1 hs
    rw [halone (by simpa [Act.locks] using hl)] at hr
    cases hr
  | leave _ _ _ ha =>
    obtain ⟨rfl, hr⟩ := owns_tail hs ho
    exact hm (owns_of_release_to_come (Act.ne_opAcq_of_isAccess (Act.isAccess_of_inAccess ha)) hr)
  | opGive | init =>
    obtain ⟨-, hr⟩ := owns_tail hs ho
    exact absurd (hr.symm.trans (any_releases_of_shape hs rfl)) (by decide)
  | drop _ _ _ _ _ hop =>
    obtain ⟨rfl, hr⟩ := owns_tail hs ho
    exact hm (owns_of_release_to_come (fun ha => nomatch hop (.inl ha)) hr)

/-- A step changes the mutex by taking it free, by giving it back where its position owned it, or in `init`. -/
theorem Moves.mutex (h : Moves lock self m σ m' r σ') :
    m' = m ∨ m = none ∨ ownsMutex lock σ = true ∨ Act.initialise ∈ σ := by
  cases h with
  | stay | inside | load | enter | leave | drop | done => exact .inl rfl
  | take | opTake => exact .inr (.inl rfl)
  | give _ _ _ ha hl => exact .inr (.inr (.inl (owns_of_locks ha hl)))
  | opGive _ rest hl =>
    subst hl
    exact .inr (.inr (.inl (by simp [ownsMutex, Act.releases])))
  | init => exact .inr (.inr (.inr (by simp)))

/-! ### The invariant -/

variable {seq : List Act} {j k : Instance}

/-- What `MutexInv` says of one call in progress, beside being alone. -/
def MutexFits (t : Nat) (seq : List Act) (i : Instance) : Prop :=
  seqShape seq = true ∧ (ownsMutex i.params.lock seq = true → i.mutex = some t)

theorem mutexInv_iff : MutexInv s ↔ LifecycleAlone s ∧ s.EachCall MutexFits := Iff.rfl

theorem MutexFits.congr (h : MutexFits u seq j) (hp : k.params = j.params) (hm : k.mutex = j.mutex) :
    MutexFits u seq k := by
  unfold MutexFits
  rw [hp, hm]
  exact h

/-- Another call on an instance whose mutex was free, or another's. -/
theorem MutexFits.beside (h : MutexFits u seq j) (hp : k.params = j.params) (hm : j.mutex ≠ some u) :
    MutexFits u seq k := by
  obtain ⟨hs, ho⟩ := h
  refine ⟨hs, fun how => absurd (ho ?_) hm⟩
  rwa [← hp]

theorem MutexInv.atomic (h : MutexInv s) : MutexInv s.atomic := by
  obtain ⟨hA, hM⟩ := mutexInv_iff.1 h
  refine mutexInv_iff.2 ⟨hA.atomic, ?_⟩
  rcases s.atomic_moved with he | ⟨-, hr, -, hm⟩
  · rw [he]
    exact hM
  have hp : (s.atomic.inst s.me.inst).params = s.here.params := by
    rw [← s.atomic_frame.params, State.here_eq, s.atomic_frame.inst]
  obtain ⟨hshape, hown⟩ := hM _ hr
  refine hM.frame s.atomic_frame (fun _ => ⟨hm.keeps_shape hshape, fun ho => ?_⟩) fun u hu hru hk => ?_
  · rw [hp] at ho
    exact hm.owns hshape hown ho
  · have hfit := hM.on_here hru hk
    rcases hm.mutex with he | hfree | ho | hi
    · exact hfit.congr hp he
    · exact hfit.beside hp (hfree ▸ nofun)
    · exact hfit.beside hp fun hmu => hu (Option.some.inj (hmu.symm.trans (hown ho)))
    · rw [lifecycleAlone_iff] at hA
      exact absurd ((hA.on_here hru hk).1 _ ((hA _ hr).2 hi).2) hu

theorem MutexInv.advance (h : MutexInv s) (n : Nat) : MutexInv (s.advance n) := by
  induction n generalizing s with
  | zero => exact h
  | succ n ih => exact ih h.atomic

theorem State.params_mutex_setup (s : State) (i : Instr) : ((s.setup i).inst s.me.inst).params = s.here.params ∧
    ((s.setup i).inst s.me.inst).mutex = s.here.mutex := by
  cases hl : isLifecycle i with
  | true =>
    rw [State.here_setup_lifecycle hl]
    exact ⟨rfl, rfl⟩
  | false =>
    rw [State.setup_of_not_lifecycle hl]
    exact ⟨rfl, rfl⟩

/-- A call begins past its guards, at a position that does not own the mutex. -/
theorem MutexInv.begin {acts : List Act} {ret : RetKind} (h : MutexInv s) (hg : s.firstFailing i = none)
    (hs : CallShape i acts) : MutexInv ((s.setup i).begin acts ret) := by
  obtain ⟨hA, hM⟩ := mutexInv_iff.1 h
  obtain ⟨hp, hm⟩ := s.params_mutex_setup i
  refine mutexInv_iff.2 ⟨hA.begin hg hs, hM.frame ((Frame.setup s i).begin acts ret) (fun _ => ?_)
    fun u _ hru hk => (hM.on_here hru hk).congr hp hm⟩
  rw [State.seq_begin]
  exact ⟨hs.shape, fun ho => absurd ((hs.owns _).symm.trans ho) (by decide)⟩

theorem MutexInv.exec (h : MutexInv s) (he : exec i s = .next t) : MutexInv t := by
  rcases exec_cases he with ⟨reason, -, rfl⟩ | ⟨hg, -, ret, acts, hs, rfl⟩
  · exact h
  · exact (h.begin hg hs).advance _

theorem MutexInv.takeCall (h : MutexInv s) (hr : s.me.running = false) (c : Call) : MutexInv (s.takeCall c) := by
  obtain ⟨hA, hM⟩ := mutexInv_iff.1 h
  exact mutexInv_iff.2 ⟨lifecycleAlone_iff.2 ((lifecycleAlone_iff.1 hA).takeCall hr c), hM.takeCall hr c⟩

theorem MutexInv.step (h : MutexInv s) (hst : step s = .next t) : MutexInv t := by
  rcases step_cases hst with rfl | rfl | ⟨c, i, hr, he⟩
  · exact MutexInv.advance (s := s.takeTurn) h _
  · exact h
  · exact (MutexInv.takeCall (s := s.takeTurn) h hr c).exec he

/-! ### Two owners -/

/-- Whether a thread is in a call on instance `k`, at a position that owns its mutex. -/
def State.Owner (s : State) (k t : Nat) : Prop :=
  (s.thread t).running = true ∧ (s.thread t).inst = k ∧ ownsMutex (s.inst k).params.lock (s.thread t).seq = true

theorem MutexInv.owner_unique {k t u : Nat} (h : MutexInv s) (ht : s.Owner k t) (hu : s.Owner k u) : t = u := by
  obtain ⟨-, hM⟩ := mutexInv_iff.1 h
  have hown : ∀ {v}, s.Owner k v → (s.inst k).mutex = some v := by
    rintro v ⟨hr, rfl, ho⟩
    exact (hM v hr).2 ho
  exact Option.some.inj ((hown ht).symm.trans (hown hu))

/-- Inside an access on the instance: in a call there, at a position that has begun. -/
theorem Thread.inAccess_iff {th : Thread} {k : Nat} : th.inAccess k = true ↔
    th.running = true ∧ th.inst = k ∧ ∃ a rest, th.seq = a :: rest ∧ a.inAccess = true := by
  unfold Thread.inAccess
  cases th.seq <;> simp [and_assoc]

theorem State.Owner.of_inAccess {k t : Nat} (h : (s.thread t).inAccess k = true)
    (hl : (s.inst k).params.lock = .access ∨ (s.thread t).seq.head?.any Act.isBurst = true) : s.Owner k t := by
  obtain ⟨hr, hi, a, rest, hs, ha⟩ := Thread.inAccess_iff.1 h
  rw [hs] at hl
  refine ⟨hr, hi, ?_⟩
  rw [hs]
  exact ownsMutex_of_inAccess ha (hl.imp_right .inl)

theorem State.Owner.of_inOperation {k t : Nat} (h : (s.thread t).inOperation k = true)
    (hl : (s.inst k).params.lock = .operation) : s.Owner k t := by
  simp only [Thread.inOperation, Bool.and_eq_true, decide_eq_true_eq] at h
  obtain ⟨⟨⟨hr, hi⟩, hrel⟩, hn⟩ := h
  refine ⟨hr, hi, ?_⟩
  rw [hl]
  cases hs : (s.thread t).seq with
  | nil =>
    rw [hs] at hrel
    cases hrel
  | cons a rest =>
    rw [hs] at hrel hn
    simp only [List.head?_cons, ne_eq, Option.some.injEq] at hn
    simp [ownsMutex, hrel, hn]

end Sys2Proof.Machine

open Sys2Proof.Machine

/-- Settles O54 (`MutexInv.step`): the running thread owns the mutex where its new position says so (`Moves.owns`), and
takes it from no other (`Moves.mutex`). -/
theorem stepKeepsMutexOwnership : Obligations.StepKeepsMutexOwnership := by
  unfold Obligations.StepKeepsMutexOwnership
  exact fun _ _ h hst => h.step hst

/-- Settles O56: each of the two owns the mutex after the step, and it has one owner (`MutexInv.owner_unique`). -/
theorem noTwoOwnersOfOneMutex : Obligations.NoTwoOwnersOfOneMutex := by
  unfold Obligations.NoTwoOwnersOfOneMutex
  intro s s' k t u h hst
  have hone := fun ht hu => (h.step hst).owner_unique (k := k) (t := t) (u := u) ht hu
  exact ⟨fun hl ht hu => hone (.of_inAccess ht (.inl hl)) (.of_inAccess hu (.inl hl)),
    fun hl ht hu => hone (.of_inOperation ht hl) (.of_inOperation hu hl),
    fun ht hu hbt hbu => hone (.of_inAccess ht (.inr hbt)) (.of_inAccess hu (.inr hbu))⟩

end

section
/-! PROOFS. The canonical form of host memory and of the three tables (log 8, log 24): every operation of a step writes
them by `Sparse.set`, but for the mark of a backlight overlap, which changes no key and marks no thread at rest. -/

namespace Sys2Proof.Machine

variable {s t : State} {i : Instr}

theorem State.wf.setThread (h : s.wf) (j : Nat) (v : Thread) : (s.setThread j v).wf := by
  obtain ⟨hi, ht, hl, hm⟩ := h
  exact ⟨hi, Sparse.wf_set _ _ _ ht, hl, hm⟩

theorem State.wf.setInst (h : s.wf) (k : Nat) (v : Instance) : (s.setInst k v).wf := by
  obtain ⟨hi, ht, hl, hm⟩ := h
  exact ⟨Sparse.wf_set _ _ _ hi, ht, hl, hm⟩

theorem State.wf.setLatch (h : s.wf) (d : Device) (l : Option Byte) : (s.setLatch d l).wf := by
  obtain ⟨hi, ht, hl, hm⟩ := h
  exact ⟨hi, ht, Sparse.wf_set _ _ _ hl, hm⟩

theorem State.wf.writeMem (h : s.wf) (a : Nat) (b : Byte) : (s.writeMem a b).wf := by
  obtain ⟨hi, ht, hl, hm⟩ := h
  exact ⟨hi, ht, hl, s.writeMem_wf a b hm⟩

theorem State.wf.writeMemBytes (h : s.wf) (a : Nat) (bs : List Byte) : (s.writeMemBytes a bs).wf := by
  induction bs generalizing s a with
  | nil => exact h
  | cons b bs ih => exact ih (h.writeMem a b) (a + 1)

theorem Sparse.wf_nil {α : Type} (d : α) : Sparse.wf d [] := ⟨.nil, nofun⟩

/-- Values changed at their keys, none into what an unlisted key reads as. -/
theorem Sparse.wf_map {α : Type} {d : α} {m : Sparse α} {f : Nat × α → Nat × α} (h : Sparse.wf d m)
    (hk : ∀ e, (f e).1 = e.1) (hv : ∀ e ∈ m, (f e).2 ≠ d) : Sparse.wf d (m.map f) := by
  obtain ⟨hp, -⟩ := h
  refine ⟨?_, List.forall_mem_map.2 hv⟩
  rw [List.pairwise_map]
  simpa only [hk] using hp

theorem State.wf.markRace (h : s.wf) : s.markRace.wf := by
  obtain ⟨hi, ht, hl, hm⟩ := h
  refine ⟨hi, Sparse.wf_map ht (fun e => ?_) fun e he => ?_, hl, hm⟩
  · split <;> rfl
  · split
    · exact fun hd => Bool.false_ne_true (congrArg Thread.race hd).symm
    · exact ht.2 e he

theorem State.wf_stable : Stable State.wf where
  setMe _ _ h _ _ := h.setThread _ _
  setInst _ _ h _ _ _ _ _ := h.setInst _ _
  recordAs _ _ h := h
  setLatch _ _ _ h := h.setLatch _ _
  popXfer _ h := h
  popChoice _ h := h
  popFree _ h := h
  markRace _ h := h.markRace
  raiseFatal _ _ h := h

theorem State.wf.perform_closes (h : s.wf) {a : Act} (ha : a.closes = true) : (s.perform a).wf := by
  rw [s.perform_closes ha]
  exact State.wf_stable.pop (h.setInst _ _)

theorem State.wf.perform_xread (h : s.wf) (b : Buffer) (n : Nat) : (s.perform (.xread b n)).wf :=
  State.wf_stable.portRead h n fun _ _ _ hu =>
    State.wf_stable.pop (State.wf_stable.setSt (hu.writeMemBytes _ _) _)

theorem State.wf.atomic (h : s.wf) : s.atomic.wf :=
  State.wf_stable.atomic h (fun _ _ => h.perform_closes rfl) (fun _ _ => h.perform_closes rfl)
    (fun b n _ _ => h.perform_xread b n) fun _ _ => h.perform_closes rfl

theorem State.wf.advance (h : s.wf) (n : Nat) : (s.advance n).wf := by
  induction n generalizing s with
  | zero => exact h
  | succ n ih => exact ih h.atomic

theorem State.wf.setup (h : s.wf) (i : Instr) : (s.setup i).wf := by
  rw [State.setup_eq]
  split
  · exact h.setInst _ _
  · exact h

theorem State.wf.begin (h : s.wf) (acts : List Act) (ret : RetKind) : (s.begin acts ret).wf := h.setThread _ _

theorem State.wf.takeCall (h : s.wf) (c : Call) : (s.takeCall c).wf := h.setThread _ _

theorem State.wf.exec (h : s.wf) (he : exec i s = .next t) : t.wf := by
  rcases exec_cases he with ⟨reason, -, rfl⟩ | ⟨-, -, ret, acts, -, rfl⟩
  · exact h
  · exact ((h.setup i).begin acts ret).advance _

end Sys2Proof.Machine

open Sys2Proof.Machine

/-- Settles O52: a step goes on with a call (`State.wf.advance`), begins one or raises Fatal (`State.wf.exec`), or only
takes the turn. -/
theorem stepKeepsCanonicalForm : Obligations.StepKeepsCanonicalForm := by
  unfold Obligations.StepKeepsCanonicalForm
  intro s t h hst
  rcases step_cases hst with rfl | rfl | ⟨c, i, -, he⟩
  · exact State.wf.advance (s := s.takeTurn) h _
  · exact h
  · exact (State.wf.takeCall (s := s.takeTurn) h c).exec he

/-- Settles O53: nothing is listed at reset. -/
theorem resetHasCanonicalForm : Obligations.ResetHasCanonicalForm := by
  unfold Obligations.ResetHasCanonicalForm
  exact ⟨Sparse.wf_nil _, Sparse.wf_nil _, Sparse.wf_nil _, State.reset_mem_wf⟩

end

section
/-! PROOFS. What a call does to host memory (20_memory.md R75; 40_expander.md R145): the transfer of `getPort` writes
its buffer, and nothing else writes a byte. -/

namespace Sys2Proof.Machine

variable {s t : State} {i : Instr} {a : Nat}

/-- Every byte that differs stands in the buffer of the `getPort` that `i` is. -/
def State.MemWithin (i : Instr) (s t : State) : Prop :=
  ∀ a, t.readMem a ≠ s.readMem a → ∃ buffer len, i = .getPort buffer len ∧ buffer.base ≤ a ∧ a < buffer.base + len

theorem State.MemWithin.refl (i : Instr) (s : State) : s.MemWithin i s := fun _ h => absurd rfl h

theorem State.MemWithin.congr {u : State} (h : s.MemWithin i t) (hu : ∀ a, u.readMem a = t.readMem a) :
    s.MemWithin i u := fun a hne => h a (by rwa [← hu])

theorem State.memWithin_stable (i : Instr) (s : State) : Stable (s.MemWithin i) where
  setMe _ _ h _ _ := h
  setInst _ _ h _ _ _ _ _ := h
  recordAs _ _ h := h
  setLatch _ _ _ h := h
  popXfer _ h := h
  popChoice _ h := h
  popFree _ h := h
  markRace _ h := h
  raiseFatal _ _ h := h

@[simp] theorem State.readMem_pop (s : State) (a : Nat) : s.pop.readMem a = s.readMem a := by
  unfold State.pop
  split <;> rfl

theorem length_readBytes (no : Nat) (data : List Byte) (n : Nat) : (readBytes no data n).length = n := by
  simp [readBytes]

/-- The transfer of `getPort` writes no byte outside its buffer. -/
theorem State.readMem_xread {b : Buffer} {n : Nat} (ha : ¬(b.base ≤ a ∧ a < b.base + n)) :
    (s.perform (.xread b n)).readMem a = s.readMem a := by
  simp only [State.perform, State.xreadStep, State.portRead]
  split
  · rfl
  · split
    · rw [State.readMem_pop, State.setSt, State.readMem_setMe, State.readMem_writeMemBytes,
        dif_neg (by rw [length_readBytes]; omega)]
      rfl
    · rw [State.readMem_pop]
      rfl
    · rfl

theorem State.MemWithin.perform_closes (h : s.MemWithin i t) {e : Act} (he : e.closes = true) :
    s.MemWithin i (t.perform e) :=
  h.congr fun a => by
    rw [t.perform_closes he, State.readMem_pop]
    rfl

theorem State.MemWithin.perform_xread {b : Buffer} {n : Nat} (h : s.MemWithin i t) (hi : i = .getPort b n) :
    s.MemWithin i (t.perform (.xread b n)) := by
  intro a hne
  by_cases ha : b.base ≤ a ∧ a < b.base + n
  · exact ⟨b, n, hi, ha⟩
  · rw [State.readMem_xread ha] at hne
    exact h a hne

/-- A turn of a call whose only reads into a buffer are those of `getPort`. -/
theorem State.MemWithin.advance (h : s.MemWithin i t) (hx : ∀ b n, Act.xread b n ∈ t.me.seq → i = .getPort b n)
    (n : Nat) : s.MemWithin i (t.advance n) := by
  induction n generalizing t with
  | zero => exact h
  | succ n ih =>
    refine ih ?_ fun b n hm => hx b n (State.mem_seq_atomic hm rfl)
    refine (State.memWithin_stable i s).atomic h (fun _ _ => h.perform_closes rfl) (fun _ _ => h.perform_closes rfl)
      (fun b n rest hs => h.perform_xread (hx b n ?_)) fun _ _ => h.perform_closes rfl
    simp [hs]

theorem State.readMem_setup (s : State) (i : Instr) (a : Nat) : (s.setup i).readMem a = s.readMem a := by
  rw [State.setup_eq]
  split <;> rfl

end Sys2Proof.Machine

open Sys2Proof.Machine

/-- Settles O47: only a call that is `getPort` has a read into a buffer in its sequence (`CallShape.reads`), and that
read writes its buffer alone (`State.readMem_xread`). -/
theorem onlyGetPortWritesMemory : Obligations.OnlyGetPortWritesMemory := by
  unfold Obligations.OnlyGetPortWritesMemory
  intro s t i he
  suffices h : s.MemWithin i t from h
  rcases exec_cases he with ⟨reason, -, rfl⟩ | ⟨-, -, ret, acts, hs, rfl⟩
  · exact .refl i s
  · have h0 : s.MemWithin i ((s.setup i).begin acts ret) := (State.MemWithin.refl i s).congr (s.readMem_setup i)
    refine h0.advance (fun b n hm => ?_) _
    rw [State.seq_begin] at hm
    exact hs.reads b n hm

end

section
/-! PROOFS. The order of nibbles (30_encoding.md R111; 20_memory.md R77): the two capture positions of a read. -/

namespace Sys2Proof.Machine

variable {s : State} {c : BusConfig} {data : List Byte}

theorem hiNib_eq_extractLsb' (v : Byte) : hiNib v = v.extractLsb' 4 4 := by
  revert v
  decide

theorem loNib_eq_extractLsb' (v : Byte) : loNib v = v.extractLsb' 0 4 := by
  revert v
  decide

/-- The data nibble of a one-byte read that succeeds. -/
theorem State.captured_readBytes (u : State) (hx : s.xferAt 0 = .ok data) :
    u.captured (readBytes s.env.xferNo data 1) = dtOf u.params.layout (s.byteAt 0) := by
  have h := State.readBytes_one hx
  rw [Nat.add_zero] at h
  rw [State.captured, h]
  rfl

/-- The first capture is the high nibble, over a low nibble of 0. -/
theorem State.r_capHi (hc : s.here.cfg = some c) (hx : s.xferAt 0 = .ok data) (rs : Bool) (width : Width) :
    (s.perform (.read .capHi rs width)).me.r = joinNib (dtOf s.params.layout (s.byteAt 0)) 0#4 := by
  simp only [State.perform, State.readStep]
  rw [State.portRead_ok s hc hx]
  simp only [State.captured_readBytes _ hx, State.goto, State.setR, State.me_setMe]
  rfl

/-- The second is the low nibble, under the high nibble as it was. -/
theorem State.r_capLo (hc : s.here.cfg = some c) (hx : s.xferAt 0 = .ok data) (rs : Bool) (width : Width) :
    (s.perform (.read .capLo rs width)).me.r = joinNib (hiNib s.me.r) (dtOf s.params.layout (s.byteAt 0)) := by
  simp only [State.perform, State.readStep]
  rw [State.portRead_ok s hc hx]
  simp only [State.captured_readBytes _ hx, State.goto, State.setR, State.me_setMe]
  rfl

end Sys2Proof.Machine

open Sys2Proof Sys2Proof.Machine

/-- Settles O8: the images of a write by their nibbles, and the two captures of a read (`State.r_capHi`,
`State.r_capLo`), joined side by side (`joinNib_eq_append`). -/
theorem nibbleOrder : Obligations.NibbleOrder := by
  unfold Obligations.NibbleOrder
  refine ⟨fun img rs v => ?_, fun s c data rs width rest hf hr hh hc hx => ⟨fun hs => ?_, fun hs => ?_⟩⟩
  · rw [← hiNib_eq_extractLsb', ← loNib_eq_extractLsb']
    rfl
  · rw [s.atomic_head hf hr hh hs, State.r_capHi hc hx, joinNib_eq_append]
  · rw [s.atomic_head hf hr hh hs, State.r_capLo hc hx, joinNib_eq_append, hiNib_eq_extractLsb']

end

section
/-! PROOFS. The cases of the step (20_memory.md R89, R93): the next call of an idle thread, a call in progress, no call
to make, and bytes that encode no call. -/

namespace Sys2Proof.Machine

variable {s : State} {c : Call} {rest : List Call}

theorem step_of_running (hf : s.fatal = none) (hr : s.takeTurn.me.running = true) :
    step s = .next (s.takeTurn.advance s.nextTurn.steps) := by
  simp [step, hf, hr]

theorem step_of_no_call (hf : s.fatal = none) (hr : s.takeTurn.me.running = false) (hc : s.takeTurn.me.calls = []) :
    step s = .next s.takeTurn := by
  simp [step, hf, hr, hc]

theorem step_of_undecodable {why : Reject} (hf : s.fatal = none) (hr : s.takeTurn.me.running = false)
    (hc : s.takeTurn.me.calls = c :: rest) (hd : decodeCall c.code = .error why) :
    step s = .refused (.undecodable why) := by
  simp [step, hf, hr, hc, hd]

theorem State.me_takeCall (hc : s.me.calls = c :: rest) :
    (s.takeCall c).me = { s.me with calls := rest, inst := c.inst } := by
  rw [State.takeCall, State.me_setMe, hc, List.tail_cons]

end Sys2Proof.Machine

open Sys2Proof Sys2Proof.Machine

/-- Settles O41: `step_of_decodeCall`, and the taking of the turn and of the call writes the thread's own record. -/
theorem stepRunsTheDecodedCall : Obligations.StepRunsTheDecodedCall := by
  unfold Obligations.StepRunsTheDecodedCall
  intro s c rest i hf hr hc hd
  refine ⟨step_of_decodeCall hf hr hc hd, State.me_takeCall hc, rfl, rfl, fun _ => rfl, fun j hj => ?_⟩
  exact (s.takeTurn.thread_setMe j _).trans (if_neg hj)

/-- Settles O42: the other three cases of the step. -/
theorem stepContinuesACall : Obligations.StepContinuesACall := by
  unfold Obligations.StepContinuesACall
  exact fun s hf => ⟨step_of_running hf, step_of_no_call hf, fun _ _ _ => step_of_undecodable hf⟩

end

section
/-! PROOFS. Decoding what was encoded: one lemma a call (`Laws.RoundTrip`), put together. -/

namespace Sys2Proof

open Laws

/-- The call number chooses the family and the row; each call's own lemma says that its operand fields are read back. -/
theorem roundTrip : ∀ i : Instr, RoundTrip.Statement i
  | .init provider => RoundTrip.init provider
  | .start config => RoundTrip.start config
  | .stop => RoundTrip.stop
  | .setDisplay d c b => RoundTrip.setDisplay d c b
  | .clear => RoundTrip.clear
  | .returnHome => RoundTrip.returnHome
  | .shift display right => RoundTrip.shift display right
  | .updatePattern slot pattern => RoundTrip.updatePattern slot pattern
  | .writeChar ch => RoundTrip.writeChar ch
  | .moveTo row col => RoundTrip.moveTo row col
  | .drawText row col text len => RoundTrip.drawText row col text len
  | .readData ddram offset => RoundTrip.readData ddram offset
  | .getStatus => RoundTrip.getStatus
  | .getBusy => RoundTrip.getBusy
  | .getAddress => RoundTrip.getAddress
  | .setBacklight on => RoundTrip.setBacklight on
  | .toggleBacklight => RoundTrip.toggleBacklight
  | .writeInstr v width settle => RoundTrip.writeInstr v width settle
  | .writeData v => RoundTrip.writeData v
  | .readStatusReg => RoundTrip.readStatusReg
  | .readDataReg => RoundTrip.readDataReg
  | .blSet on => RoundTrip.blSet on
  | .blToggle => RoundTrip.blToggle
  | .setPort values len applyMask => RoundTrip.setPort values len applyMask
  | .setPortByte value applyMask => RoundTrip.setPortByte value applyMask
  | .getPort buffer len => RoundTrip.getPort buffer len
  | .getPortByte => RoundTrip.getPortByte
  | .clearDisplayCmd width => RoundTrip.clearDisplayCmd width
  | .returnHomeCmd width => RoundTrip.returnHomeCmd width
  | .entryModeSetCmd i s width => RoundTrip.entryModeSetCmd i s width
  | .displayControlCmd d c b width => RoundTrip.displayControlCmd d c b width
  | .cursorDisplayShiftCmd p r width => RoundTrip.cursorDisplayShiftCmd p r width
  | .functionSetCmd l n f width => RoundTrip.functionSetCmd l n f width
  | .setCgramAddrCmd a width => RoundTrip.setCgramAddrCmd a width
  | .setDdramAddrCmd a width => RoundTrip.setDdramAddrCmd a width
  | .busWriteInstr v width settle => RoundTrip.busWriteInstr v width settle
  | .busWriteData v width => RoundTrip.busWriteData v width
  | .busReadStatus width => RoundTrip.busReadStatus width
  | .busReadData width => RoundTrip.busReadData width
  | .portByte img => RoundTrip.portByte img
  | .nibbleTriple rs rw bl n => RoundTrip.nibbleTriple rs rw bl n
  | .writeBurst4 rs bl v => RoundTrip.writeBurst4 rs bl v
  | .writeBurst8 rs bl h => RoundTrip.writeBurst8 rs bl h
  | .readSetup rs bl => RoundTrip.readSetup rs bl
  | .readIdle rs bl => RoundTrip.readIdle rs bl
  | .backlightWrite bl => RoundTrip.backlightWrite bl

end Sys2Proof

open Sys2Proof

/-- Settles O1: the round trip of each call (`roundTrip`). -/
theorem decodeOfEncodeIsTheCall : Obligations.DecodeOfEncodeIsTheCall := by
  unfold Obligations.DecodeOfEncodeIsTheCall
  exact fun i rest hi => roundTrip i hi rest

end

section
/-! PROOFS. How many bytes a reader of call bytes takes, and what its answer satisfies: one rule for a reader followed
by another, one lemma for each operand field, and the decoder family by family (log 1, log 2). -/

namespace Sys2Proof

variable {α β : Type} {bs : List Byte} {x : Except Reject (α × List Byte)}

/-- Where the reader `x` answers on `bs`, it has taken bytes off the front and left the others, and `P` holds of its
answer and of how many it has taken. -/
def Reads (x : Except Reject (α × List Byte)) (bs : List Byte) (P : α → Nat → Prop) : Prop :=
  ∀ a rest, x = .ok (a, rest) → ∃ used, bs = used ++ rest ∧ P a used.length

/-- What is asked of a call and of how many bytes it was read from. -/
abbrev Decoded (i : Instr) (n : Nat) : Prop := i.wf = true ∧ (encode i).length = n

theorem Reads.error {e : Reject} {P : α → Nat → Prop} : Reads (.error e) bs P := nofun

/-- The reader answers `a` once it has taken the bytes `used`. -/
theorem Reads.took {a : α} {P : α → Nat → Prop} (used : List Byte) (h : P a used.length) :
    Reads (.ok (a, bs)) (used ++ bs) P := by
  rintro _ _ ⟨⟩
  exact ⟨used, rfl, h⟩

theorem Reads.ok {a : α} {P : α → Nat → Prop} (h : P a 0) : Reads (.ok (a, bs)) bs P := .took [] h

theorem Reads.byte {a : α} {b : Byte} : Reads (.ok (a, bs)) (b :: bs) fun _ n => True ∧ n = 1 :=
  .took [b] ⟨trivial, rfl⟩

theorem Reads.cons {b : Byte} {P : α → Nat → Prop} (h : Reads x bs fun a n => P a (n + 1)) : Reads x (b :: bs) P := by
  intro a rest hx
  obtain ⟨used, rfl, hP⟩ := h a rest hx
  exact ⟨b :: used, rfl, hP⟩

/-- A field of `k` bytes, and what follows it. -/
theorem Reads.bind {f : α × List Byte → Except Reject (β × List Byte)} {P : α → Prop} {Q : β → Nat → Prop} {k : Nat}
    (h : Reads x bs fun a n => P a ∧ n = k)
    (hf : ∀ a rest, P a → Reads (f (a, rest)) rest fun b n => Q b (k + n)) : Reads (x >>= f) bs Q := by
  intro b rest he
  cases hx : x with
  | error e =>
    rw [hx] at he
    cases he
  | ok r =>
    obtain ⟨a, mid⟩ := r
    rw [hx] at he
    obtain ⟨used, rfl, hP, rfl⟩ := h a mid hx
    obtain ⟨more, rfl, hQ⟩ := hf a mid hP b rest he
    exact ⟨used ++ more, (List.append_assoc ..).symm, by rwa [List.length_append]⟩

/-! ### Operand fields -/

theorem reads_takeByte (bs : List Byte) : Reads (takeByte bs) bs fun _ n => True ∧ n = 1 := by
  cases bs with
  | nil => exact .error
  | cons b bs => exact .byte

theorem reads_takeBool (bs : List Byte) : Reads (takeBool bs) bs fun _ n => True ∧ n = 1 := by
  cases bs with
  | nil => exact .error
  | cons b bs =>
    simp only [takeBool]
    split_ifs
    · exact .byte
    · exact .byte
    · exact .error

theorem reads_takeWidth (bs : List Byte) : Reads (takeWidth bs) bs fun _ n => True ∧ n = 1 := by
  cases bs with
  | nil => exact .error
  | cons b bs =>
    simp only [takeWidth]
    split_ifs
    · exact .byte
    · exact .byte
    · exact .error

theorem reads_takeSettle (bs : List Byte) : Reads (takeSettle bs) bs fun _ n => True ∧ n = 1 := by
  cases bs with
  | nil => exact .error
  | cons b bs =>
    simp only [takeSettle]
    split_ifs
    · exact .byte
    · exact .byte
    · exact .byte
    · exact .error

theorem reads_takeAddr7 (bs : List Byte) : Reads (takeAddr7 bs) bs fun _ n => True ∧ n = 1 := by
  cases bs with
  | nil => exact .error
  | cons b bs =>
    simp only [takeAddr7]
    split_ifs
    · exact .error
    · exact .byte

/-- Four bytes are a number below 2^32. -/
theorem reads_takeNat32 (bs : List Byte) : Reads (takeNat32 bs) bs fun a n => fits32 a = true ∧ n = 4 := by
  unfold takeNat32
  split
  · next b0 b1 b2 b3 bs =>
    refine .took [b0, b1, b2, b3] ⟨?_, rfl⟩
    simp only [fits32, decide_eq_true_eq]
    omega
  · exact .error

theorem reads_takeBuffer (bs : List Byte) : Reads (takeBuffer bs) bs fun a n => a.wf = true ∧ n = 8 :=
  (reads_takeNat32 bs).bind fun _ bs hb => (reads_takeNat32 bs).bind fun _ _ hs =>
    .ok ⟨by simp [Buffer.wf, hb, hs], rfl⟩

theorem reads_takeConfig (bs : List Byte) : Reads (takeConfig bs) bs fun a n => a.wf = true ∧ n = 10 :=
  (reads_takeNat32 bs).bind fun _ bs hb => (reads_takeAddr7 bs).bind fun _ bs _ =>
    (reads_takeByte bs).bind fun _ bs _ => (reads_takeNat32 bs).bind fun _ _ ht => .ok ⟨by simp [BusConfig.wf, hb, ht], rfl⟩

/-! ### The families of calls -/

theorem reads_decodeHost (op : Nat) (bs : List Byte) : Reads (decodeHost op bs) bs fun i n => Decoded i (n + 1) := by
  unfold decodeHost
  split
  · exact (reads_takeNat32 _).bind fun _ _ h => .ok ⟨h, rfl⟩
  · exact (reads_takeConfig _).bind fun _ _ h => .ok ⟨h, rfl⟩
  · exact .ok ⟨rfl, rfl⟩
  · exact (reads_takeBool _).bind fun _ _ _ => (reads_takeBool _).bind fun _ _ _ =>
      (reads_takeBool _).bind fun _ _ _ => .ok ⟨rfl, rfl⟩
  · exact .ok ⟨rfl, rfl⟩
  · exact .ok ⟨rfl, rfl⟩
  · exact (reads_takeBool _).bind fun _ _ _ => (reads_takeBool _).bind fun _ _ _ => .ok ⟨rfl, rfl⟩
  · exact (reads_takeNat32 _).bind fun _ _ hs => (reads_takeBuffer _).bind fun _ _ hp =>
      .ok ⟨by simp [Instr.wf, hs, hp], rfl⟩
  · exact (reads_takeByte _).bind fun _ _ _ => .ok ⟨rfl, rfl⟩
  · exact (reads_takeNat32 _).bind fun _ _ hr => (reads_takeNat32 _).bind fun _ _ hc =>
      .ok ⟨by simp [Instr.wf, hr, hc], rfl⟩
  · exact (reads_takeNat32 _).bind fun _ _ hr => (reads_takeNat32 _).bind fun _ _ hc =>
      (reads_takeBuffer _).bind fun _ _ ht => (reads_takeNat32 _).bind fun _ _ hl =>
        .ok ⟨by simp [Instr.wf, hr, hc, ht, hl], rfl⟩
  · exact (reads_takeBool _).bind fun _ _ _ => (reads_takeNat32 _).bind fun _ _ ho => .ok ⟨ho, rfl⟩
  · exact .ok ⟨rfl, rfl⟩
  · exact .ok ⟨rfl, rfl⟩
  · exact .ok ⟨rfl, rfl⟩
  · exact (reads_takeNat32 _).bind fun _ _ h => .ok ⟨h, rfl⟩
  · exact .ok ⟨rfl, rfl⟩
  · exact .error

theorem reads_decodeEngine (op : Nat) (bs : List Byte) :
    Reads (decodeEngine op bs) bs fun i n => Decoded i (n + 1) := by
  unfold decodeEngine
  split
  · exact (reads_takeByte _).bind fun _ _ _ => (reads_takeWidth _).bind fun _ _ _ =>
      (reads_takeSettle _).bind fun _ _ _ => .ok ⟨rfl, rfl⟩
  · exact (reads_takeByte _).bind fun _ _ _ => .ok ⟨rfl, rfl⟩
  · exact .ok ⟨rfl, rfl⟩
  · exact .ok ⟨rfl, rfl⟩
  · exact (reads_takeBool _).bind fun _ _ _ => .ok ⟨rfl, rfl⟩
  · exact .ok ⟨rfl, rfl⟩
  · exact (reads_takeBuffer _).bind fun _ _ hv => (reads_takeNat32 _).bind fun _ _ hl =>
      (reads_takeBool _).bind fun _ _ _ => .ok ⟨by simp [Instr.wf, hv, hl], rfl⟩
  · exact (reads_takeByte _).bind fun _ _ _ => (reads_takeBool _).bind fun _ _ _ => .ok ⟨rfl, rfl⟩
  · exact (reads_takeBuffer _).bind fun _ _ hb => (reads_takeNat32 _).bind fun _ _ hl =>
      .ok ⟨by simp [Instr.wf, hb, hl], rfl⟩
  · exact .ok ⟨rfl, rfl⟩
  · exact .error

/-- Every command is encoded in three bytes: the call number, the command and the width. -/
theorem decoded_decodeCommand {c : Byte} {width : Width} {i : Instr} (h : decodeCommand c width = .ok i) :
    Decoded i 3 := by
  unfold decodeCommand at h
  split_ifs at h <;> cases h <;> exact ⟨rfl, rfl⟩

theorem reads_decodeBus (bs : List Byte) : Reads (decodeBus bs) bs fun i n => Decoded i (n + 1) := by
  refine (reads_takeByte bs).bind fun port bs _ => ?_
  dsimp only
  split_ifs
  · exact (reads_takeWidth bs).bind fun _ _ _ => .ok ⟨rfl, rfl⟩
  · exact (reads_takeWidth bs).bind fun _ _ _ => .ok ⟨rfl, rfl⟩
  · exact (reads_takeByte bs).bind fun _ bs _ => (reads_takeWidth bs).bind fun _ _ _ => .ok ⟨rfl, rfl⟩
  · exact (reads_takeByte bs).bind fun _ bs _ => (reads_takeWidth bs).bind fun _ bs _ =>
      (reads_takeSettle bs).bind fun _ _ _ => .ok ⟨rfl, rfl⟩

theorem reads_checked {got want : List Byte} {i : Instr} {P : Instr → Nat → Prop} (h : P i got.length) :
    Reads (checked got want i bs) (got ++ bs) P := by
  unfold checked
  split_ifs
  · exact .took got h
  · exact .error

theorem reads_decodePort (op : Nat) (bs : List Byte) : Reads (decodePort op bs) bs fun i n => Decoded i (n + 1) := by
  unfold decodePort
  split
  · exact .took [_] ⟨rfl, rfl⟩
  · exact reads_checked ⟨rfl, rfl⟩
  · exact reads_checked ⟨rfl, rfl⟩
  · exact reads_checked ⟨rfl, rfl⟩
  · exact reads_checked ⟨rfl, rfl⟩
  · exact reads_checked ⟨rfl, rfl⟩
  · exact .took [_] ⟨rfl, rfl⟩
  · exact .error

theorem reads_decode (bs : List Byte) : Reads (decode bs) bs Decoded := by
  cases bs with
  | nil => exact .error
  | cons op bs =>
    refine .cons ?_
    simp only [decode]
    split_ifs
    · exact reads_decodeHost _ bs
    · exact reads_decodeEngine _ bs
    · refine (reads_takeByte bs).bind fun c bs _ => (reads_takeWidth bs).bind fun width bs _ => ?_
      cases hc : decodeCommand c width with
      | error e => exact .error
      | ok i => exact .ok (decoded_decodeCommand hc)
    · exact reads_decodeBus bs
    · exact reads_decodePort _ bs
    · exact .error

end Sys2Proof

open Sys2Proof

/-- Settles O2 (`reads_decode`): each reader takes its field off the front, and the fields of a call are as long as its
encoding. -/
theorem decodedCallIsWellFormed : Obligations.DecodedCallIsWellFormed := by
  unfold Obligations.DecodedCallIsWellFormed
  intro bs rest i h
  obtain ⟨used, rfl, hwf, hlen⟩ := reads_decode bs i rest h
  exact ⟨hwf, by rw [hlen, List.length_append], by rw [hlen, List.drop_left]⟩

end

section
/-! PROOFS. A bare port byte or burst (30_encoding.md R100 to R105; 70_reset_and_hazards.md R291): the mutex at every
turn length, and the whole call. -/

namespace Sys2Proof.Machine

variable {s : State} {c : BusConfig} {images : List PortImage}

/-! ### The mutex while a burst is in progress -/

/-- A thread with sequence `σ` inside a burst owns the mutex `m`; once its call has returned the mutex is free. -/
def BurstHolds (self : Nat) (m : Option Nat) (running : Bool) (σ : List Act) : Prop :=
  if running then m = some self ∧ ∃ a, σ = [a] ∧ a.isBurst = true else m = none

theorem Act.isAccess_of_isBurst {a : Act} (h : a.isBurst = true) : a.isAccess = true := by
  cases a with
  | burst => rfl
  | _ => cases h

/-- A burst that has the mutex goes on inside itself, or gives the mutex back and returns. -/
theorem Moves.burstHolds {lock : Lock} {self : Nat} {m m' : Option Nat} {r : Bool} {σ σ' : List Act}
    (h : Moves lock self m σ m' r σ') (hb : BurstHolds self m true σ) : BurstHolds self m' r σ' := by
  obtain ⟨rfl, a, rfl, hk⟩ := hb
  have hl : a.locks lock = true := by rw [Act.locks, hk, Bool.or_true]
  cases h with
  | stay => exact ⟨rfl, a, rfl, hk⟩
  | inside _ _ b _ _ _ hkb => exact ⟨rfl, b, rfl, hkb.trans hk⟩
  | give => rfl
  | enter _ _ _ _ _ _ _ hn | leave _ _ _ _ hn => exact absurd (hl.symm.trans hn) (by decide)
  | drop _ _ _ ha => exact absurd ((Act.isAccess_of_isBurst hk).symm.trans ha) (by decide)
  | load | opGive | init => cases hk

/-- `BurstHolds` of the thread whose turn it is and its instance. -/
def State.BurstHolds (s : State) : Prop := Machine.BurstHolds s.turn.tid s.here.mutex s.me.running s.me.seq

theorem State.BurstHolds.atomic (h : s.BurstHolds) : s.atomic.BurstHolds := by
  rcases s.atomic_moved with he | ⟨-, hr, -, hm⟩
  · rwa [he]
  · unfold State.BurstHolds at h ⊢
    rw [hr] at h
    rw [State.here_eq, s.atomic_frame.inst, s.atomic_frame.turn]
    exact hm.burstHolds h

theorem State.BurstHolds.advance (h : s.BurstHolds) (n : Nat) : (s.advance n).BurstHolds := by
  induction n generalizing s with
  | zero => exact h
  | succ n ih => exact ih h.atomic

/-- The first step of a burst takes the free mutex. -/
theorem State.Free.burstHolds (h : s.Free c) (ret : RetKind) :
    (s.begin [.burst .acq images] ret).atomic.BurstHolds := by
  have hm : (s.begin [.burst .acq images] ret).here.mutex = none := by simpa using h.mutex
  rw [State.atomic_head (s.begin [.burst .acq images] ret) h.fatal (by simp) (by simpa using h.hung)
    (State.seq_begin ..)]
  simp only [State.perform, State.burstStep]
  rw [State.acquire_free _ hm]
  simp [State.BurstHolds, Machine.BurstHolds, State.beginAccess, State.goto, Act.isBurst]

theorem State.BurstHolds.mutex (h : s.BurstHolds) :
    s.here.mutex = if s.me.running then some s.turn.tid else none := by
  unfold State.BurstHolds Machine.BurstHolds at h
  split at h
  · next hr => rw [if_pos hr, h.1]
  · next hr => rw [if_neg hr, h]

theorem State.Free.burst_mutex (h : s.Free c) (ret : RetKind) {n : Nat} (hn : 1 ≤ n) :
    let t := (s.begin [.burst .acq images] ret).advance n
    (t.inst s.me.inst).mutex = if t.me.running then some s.turn.tid else none := by
  obtain ⟨k, rfl⟩ := Nat.exists_eq_add_of_le' hn
  intro t
  have hframe := State.advance_frame (k + 1) (s.begin [.burst .acq images] ret)
  have hi : t.me.inst = s.me.inst := hframe.inst.trans (by simp)
  have hu : t.turn = s.turn := hframe.turn
  have := ((h.burstHolds (images := images) ret).advance k).mutex
  rw [← hi, ← hu]
  exact this

/-! ### The whole call -/

/-- Three steps: `Acquire`, the transfer, `Release` and the return. -/
theorem State.Free.burst_three {last : PortImage} {st : Status} (h : s.Free c) (hl : images.getLast? = some last)
    (hst : s.statusAt 0 = some st) :
    (s.begin [.burst .acq images] .status).advance 3 =
      s.did c 1 [.wr c.dev (sent s.params c images) st] (mirror s.params c last st) { s.here with img := last }
        { s.me.atRest with rets := s.me.rets ++ [.status st] } := by
  have hm : (s.inst s.me.inst).mutex = none := h.mutex
  have hadv := State.advance_burst (h.toBound.clear (fun _ => h.mutex) [.burst .acq images] .status)
    (by simpa using hm) (State.seq_begin ..) hl hst
  simpa [hm, Thread.finished, Thread.atRest, retValue] using hadv

theorem State.Free.burst_did {last : PortImage} {st : Status} (h : s.Free c) (hl : images.getLast? = some last)
    (hn : 3 ≤ s.turn.steps) (hst : s.statusAt 0 = some st) :
    Did s ((s.begin [.burst .acq images] .status).advance s.turn.steps) c { s.here with img := last }
      [.wr c.dev (sent s.params c images) st] (mirror s.params c last st) (.status st) := by
  have hadv := h.burst_three hl hst
  rw [State.advance_done hn (by rw [hadv, State.me_did]; rfl), hadv]
  exact .of_did rfl

end Sys2Proof.Machine

open Sys2Proof.Machine

/-- Settles O30: the mutex by `State.Free.burst_mutex`, the whole call by `State.Free.burst_did`. -/
theorem bareBurstsComplete : Obligations.BareBurstsComplete := by
  unfold Obligations.BareBurstsComplete
  intro s c i images last hi hl h hn
  rw [burstOf_exec hi, h.toBound.engineCall]
  exact ⟨_, rfl, h.burst_mutex _ hn, fun st hn hst => h.burst_did hl hn hst⟩

end

section
/-! PROOFS. Command bytes, port bytes and operands as the rules of 30_encoding.md spell them (R101 to R105, R107, R113,
R114). -/

namespace Sys2Proof.Machine

/-! ### Command bytes -/

theorem decodeCall_commandByte (v : Byte) (width : Width) :
    decodeCall [0x40#8, v, widthByte width] = decodeCommand v width := by
  have hd : decode [0x40#8, v, widthByte width] = (decodeCommand v width).bind fun i => .ok (i, []) := by
    cases width <;> rfl
  rw [decodeCall, hd]
  cases decodeCommand v width <;> rfl

theorem cmdSetCgram_eq_append (a : CgramAddr) : cmdSetCgram .hd44780 a = 0b01#2 ++ a := by
  revert a
  decide

theorem cmdSetDdram_eq_append (a : DdramAddr) : cmdSetDdram .hd44780 a = 0b1#1 ++ a := by
  revert a
  decide

theorem decodeCommand_cgram (a : CgramAddr) (width : Width) :
    decodeCommand (0b01#2 ++ a) width = .ok (.setCgramAddrCmd a width) := by
  rw [← cmdSetCgram_eq_append]
  exact Laws.RoundTrip.decode_cgram a width

theorem decodeCommand_ddram (a : DdramAddr) (width : Width) :
    decodeCommand (0b1#1 ++ a) width = .ok (.setDdramAddrCmd a width) := by
  rw [← cmdSetDdram_eq_append]
  exact Laws.RoundTrip.decode_ddram a width

/-! ### Bits and nibbles in a byte -/

theorem bitAt_eq_shiftLeft (b : Bool) (p : Nat) : bitAt b p = (BitVec.ofBool b).setWidth 8 <<< p := by
  cases b <;> rfl

theorem hiNib_shiftLeft (v : Byte) : (hiNib v).setWidth 8 <<< 4 = v &&& 0xF0#8 := by
  revert v
  decide

theorem loNib_shiftLeft (v : Byte) : (loNib v).setWidth 8 <<< 4 = (v &&& 0x0F#8) <<< 4 := by
  revert v
  decide

/-! ### Port bytes in the table's layout -/

/-- The fields in the order R101 writes them. -/
theorem serialize_d1_eq_or (img : PortImage) : serialize .d1 img =
    (BitVec.ofBool img.rs).setWidth 8 ||| (BitVec.ofBool img.rw).setWidth 8 <<< 1 |||
      (BitVec.ofBool img.en).setWidth 8 <<< 2 ||| (BitVec.ofBool img.bl).setWidth 8 <<< 3 |||
      img.dt.setWidth 8 <<< 4 := by
  simp only [serialize, Layout.d1, bitAt_eq_shiftLeft, BitVec.shiftLeft_zero]

/-- A byte of a write burst, its fields in the order R102 and R103 write them. -/
theorem serialize_d1_write (rs en bl : Bool) (n : Nib) : serialize .d1 { rs, rw := false, en, bl, dt := n } =
    n.setWidth 8 <<< 4 ||| ((BitVec.ofBool rs).setWidth 8 ||| (BitVec.ofBool bl).setWidth 8 <<< 3) |||
      (if en then 0x04#8 else 0#8) := by
  revert rs en bl n
  decide

/-- A byte of a read, its fields in the order R104 and R105 write them. -/
theorem serialize_d1_read (bl rs en : Bool) : serialize .d1 (readImage bl rs en) =
    0xF0#8 ||| (BitVec.ofBool bl).setWidth 8 <<< 3 ||| 0x02#8 ||| (if en then 0x04#8 else 0#8) |||
      (BitVec.ofBool rs).setWidth 8 := by
  revert bl rs en
  decide

theorem sent_eq_map_masked {p : Params} (hp : p.layout = .d1) (c : BusConfig) (images : List PortImage) :
    sent p c images = (images.map (serialize .d1)).map (masked c.outMask p.applyMask) := by
  rw [List.map_map, sent, hp]
  rfl

/-- A triple of a write burst is one byte with EN low, high, low. -/
theorem bytes_triple (rs bl : Bool) (n : Nib) :
    let b := n.setWidth 8 <<< 4 ||| ((BitVec.ofBool rs).setWidth 8 ||| (BitVec.ofBool bl).setWidth 8 <<< 3)
    (triple rs false bl n).map (serialize .d1) = [b, b ||| 0x04#8, b] := by
  simp [triple, serialize_d1_write]

end Sys2Proof.Machine

open Sys2Proof Sys2Proof.Machine

/-- Settles O3: each word is decoded. -/
theorem tableWordsDecode : Obligations.TableWordsDecode := by
  unfold Obligations.TableWordsDecode
  exact ⟨rfl, rfl, rfl, rfl, rfl, rfl, rfl, rfl, rfl, rfl⟩

/-- Settles O4: between its call number and its width a command byte is decoded by its row, bit by bit. -/
theorem commandBytesDecodeByTheirRow : Obligations.CommandBytesDecodeByTheirRow := by
  unfold Obligations.CommandBytesDecodeByTheirRow
  intro width
  simp only [decodeCall_commandByte]
  refine ⟨rfl, fun x => ?_, fun i s => ?_, fun d c b => ?_, fun p r x y => ?_, fun l n f x y => ?_,
    fun a => decodeCommand_cgram a width, fun a => decodeCommand_ddram a width⟩
  · cases x <;> rfl
  · cases i <;> cases s <;> rfl
  · cases d <;> cases c <;> cases b <;> rfl
  · cases p <;> cases r <;> cases x <;> cases y <;> rfl
  · cases l <;> cases n <;> cases f <;> cases x <;> cases y <;> rfl

/-- Settles O7: the bytes of the three images, in both forms the model has of them. -/
theorem nibbleTripleBytes : Obligations.NibbleTripleBytes := by
  unfold Obligations.NibbleTripleBytes
  intro img rs rw bl n
  refine ⟨?_, ?_, ?_⟩
  · simp only [tripleImages, List.map_cons, List.map_nil, serialize_d1_eq_or]
  · simp only [tripleBytes, tripleImages, List.map_cons, List.map_nil, ← serialize_d1, serialize_d1_eq_or]
  · revert rs rw bl n
    decide

/-- Settles O9: the bytes of a triple for each nibble (`bytes_triple`), and those of a read (`serialize_d1_read`). -/
theorem burstBytes : Obligations.BurstBytes := by
  unfold Obligations.BurstBytes
  intro p c rs bl v hp
  refine ⟨?_, ?_, ?_, ?_⟩
  · rw [sent_eq_map_masked hp, writeBurst, List.map_append, bytes_triple, bytes_triple, hiNib_shiftLeft,
      loNib_shiftLeft]
    rfl
  · rw [sent_eq_map_masked hp, writeBurst, bytes_triple, hiNib_shiftLeft]
  · rw [sent_eq_map_masked hp]
    simp [setupBurst, serialize_d1_read]
  · rw [sent_eq_map_masked hp]
    simp [serialize_d1_read]

/-- Settles O10: each operand is `BitVec.ofNat` of a number, hence that number modulo the power of two of its width. -/
theorem addressOperands : Obligations.AddressOperands := by
  unfold Obligations.AddressOperands
  refine ⟨fun lineWidth row col => BitVec.toNat_ofNat .., fun slot => ?_, fun o => BitVec.toNat_ofNat ..,
    fun o => BitVec.toNat_ofNat ..⟩
  rw [cgramSlotAddr, BitVec.toNat_ofNat]
  omega

/-- Settles O11: each operand bit stands where R114 shifts it (`bitAt_eq_shiftLeft`); an address fits below the fixed
bit of its command. -/
theorem commandOperands : Obligations.CommandOperands := by
  unfold Obligations.CommandOperands
  refine ⟨fun d c b => ?_, fun display right => ?_, by decide, by decide, fun l n f => ?_, fun i s => ?_⟩
  · simp [cmdDisplay, bitAt_eq_shiftLeft, CmdSet.hd44780]
  · simp [cmdShift, bitAt_eq_shiftLeft, CmdSet.hd44780]
  · simp [cmdFunction, bitAt_eq_shiftLeft, CmdSet.hd44780]
  · simp [cmdEntry, bitAt_eq_shiftLeft, CmdSet.hd44780]

end

section
/-! PROOFS. A transfer that never completes (40_expander.md R149; log 15): every transport step is one transport call,
made from a state that differs by the images the step has composed. -/

namespace Sys2Proof.Machine

variable {s u : State} {c : BusConfig} {a : Act}

/-- What a step may have done before its transport call: images composed, BL drawn, overlapped accesses marked. -/
structure Composed (s u : State) : Prop extends Alike s u where
  trace : u.trace = s.trace
  fatal : u.fatal = s.fatal
  cfg : u.here.cfg = s.here.cfg
  status : u.statusAt 0 = s.statusAt 0

namespace Composed

theorem refl (s : State) : Composed s s := ⟨.refl s, rfl, rfl, rfl, rfl⟩

theorem setImg (h : Composed s u) (img : PortImage) : Composed s (u.setImg img) :=
  ⟨h.toAlike.setImg img, h.trace, h.fatal, by simpa using h.cfg, h.status⟩

theorem setMe (h : Composed s u) (v : Thread) (hs : v.seq = u.me.seq) (hr : v.running = u.me.running)
    (hi : v.inst = u.me.inst) : Composed s (u.setMe v) :=
  ⟨h.toAlike.setMe v hs hr hi, h.trace, h.fatal, by simpa [hi] using h.cfg, h.status⟩

theorem popChoice (h : Composed s u) : Composed s u.popChoice :=
  ⟨h.toAlike.popChoice, h.trace, h.fatal, h.cfg, h.status⟩

theorem markRace (h : Composed s u) : Composed s u.markRace :=
  ⟨h.toAlike.markRace, h.trace, h.fatal, by rw [State.here_eq, State.me_markRace]; exact h.cfg, h.status⟩

theorem holdBl (h : Composed s u) : Composed s u.holdBl := by
  unfold State.holdBl
  split
  · exact (h.setImg _).popChoice
  · exact h

end Composed

/-- The step is one transport call, and nothing before it but composing. -/
def OneTransfer (s t : State) : Prop :=
  ∃ u, Composed s u ∧
    ((∃ bytes m next, t = u.portWrite bytes m next) ∨ ∃ n next, t = u.portRead n next)

theorem OneTransfer.portWrite (h : Composed s u) (bytes : List Byte) (m : Bool) (next : Status → State → State) :
    OneTransfer s (u.portWrite bytes m next) := ⟨u, h, .inl ⟨bytes, m, next, rfl⟩⟩

theorem OneTransfer.portRead (s : State) (n : Nat) (next : Status → List Byte → State → State) :
    OneTransfer s (s.portRead n next) := ⟨s, .refl s, .inr ⟨n, next, rfl⟩⟩

theorem OneTransfer.sendImages (h : Composed s u) (images : List PortImage) (next : Status → State → State) :
    OneTransfer s (u.sendImages images next) :=
  .portWrite (Composed.setMe (h.setImg (images.getLastD u.img)) { (u.setImg (images.getLastD u.img)).me with
    q := images.map (serialize u.params.layout),
    queued := (u.setImg (images.getLastD u.img)).me.queued ++ images } rfl rfl rfl) _ _ next

theorem OneTransfer.blWriteStep (s : State) (on : Bool) : OneTransfer s (s.blWriteStep on) := by
  have hdraw : Composed s (if s.overlapImages.isEmpty then s else s.popChoice) := by
    split
    · exact .refl s
    · exact (Composed.refl s).popChoice
  refine OneTransfer.portWrite (Composed.setImg ?_ _) _ _ _
  split
  · exact hdraw
  · exact hdraw.markRace

/-- Every transport step of every call (20_memory.md R86). -/
theorem State.perform_transfer (s : State) (ha : a.isTransfer = true) : OneTransfer s (s.perform a) := by
  have hbl := (Composed.refl s).holdBl
  cases a with
  | write pos rs v width settle =>
    cases pos with
    | send =>
      simp only [State.perform, State.writeStep]
      exact .sendImages hbl _ _
    | acq | settle | rel => exact absurd ha Bool.false_ne_true
  | read pos rs width =>
    cases pos with
    | setupHi | setupLo | idle =>
      simp only [State.perform, State.readStep]
      exact .sendImages hbl _ _
    | capHi | capLo =>
      simp only [State.perform, State.readStep]
      exact .portRead s _ _
    | acq | settle | rel | abort => exact absurd ha Bool.false_ne_true
  | burst pos images =>
    cases pos with
    | send =>
      simp only [State.perform, State.burstStep]
      exact .sendImages (.refl s) _ _
    | acq | rel => exact absurd ha Bool.false_ne_true
  | blSet on => exact .blWriteStep s on
  | blWrite => exact .blWriteStep s _
  | xwrite | xwriteByte =>
    simp only [State.perform, State.xwriteStep]
    exact .portWrite (.refl s) _ _ _
  | xread | xreadByte =>
    simp only [State.perform, State.xreadStep, State.xreadByteStep]
    exact .portRead s _ _
  | load | sleep | initialise | opAcq | opRel | blRead | setReady | setStop => exact absurd ha Bool.false_ne_true

theorem State.xferAt_hang {j : Nat} (h : s.statusAt j = none) : s.xferAt j = .hang := by
  unfold State.statusAt at h
  cases hx : s.xferAt j with
  | hang => rfl
  | ok | fail => simp [hx, xferStatus] at h

theorem State.portRead_hang {n : Nat} {next : Status → List Byte → State → State} (hc : s.here.cfg = some c)
    (hx : s.xferAt 0 = .hang) : s.portRead n next = s.popXfer.hang := by
  simp only [State.portRead, hc, hx]

/-- The thread is hung, and all that `Alike` compares, the trace and the absence of a Fatal are as they were. -/
structure HungAs (s t : State) : Prop extends Alike s t where
  hung : t.me.hung = true
  trace : t.trace = s.trace
  fatal : t.fatal = s.fatal

/-- A transport call that never completes hangs its thread. -/
theorem OneTransfer.hungAs {t : State} (h : OneTransfer s t) (hc : s.here.cfg = some c) (hst : s.statusAt 0 = none) :
    HungAs s t := by
  obtain ⟨u, hu, ht⟩ := h
  have hcu : u.here.cfg = some c := hu.cfg.trans hc
  have hsu : u.statusAt 0 = none := hu.status.trans hst
  rcases ht with ⟨bytes, m, next, rfl⟩ | ⟨n, next, rfl⟩
  · rw [u.portWrite_hang hcu hsu]
    exact ⟨(hu.toAlike.popXfer.setLatch _ _).hang, by simp [State.hang], hu.trace, hu.fatal⟩
  · rw [State.portRead_hang hcu (State.xferAt_hang hsu)]
    exact ⟨hu.toAlike.popXfer.hang, by simp [State.hang], hu.trace, hu.fatal⟩

end Sys2Proof.Machine

open Sys2Proof.Machine

/-- Settles O37: a transport step is one transport call (`State.perform_transfer`), which hangs (`OneTransfer.hungAs`);
a hung thread makes no step (`State.atomic_hung`). -/
theorem hungTransferHoldsTheMutex : Obligations.HungTransferHoldsTheMutex := by
  unfold Obligations.HungTransferHoldsTheMutex
  have hstays : ∀ (s : State) (n : Nat), s.me.hung = true → s.advance n = s :=
    fun s n hh => State.advance_fixed (s.atomic_hung hh) n
  refine ⟨fun s c a rest hf hr hh hc hs ha hst => ?_, hstays, fun s hf hr hh => ?_⟩
  · rw [s.atomic_head hf hr hh hs]
    have h := (s.perform_transfer ha).hungAs hc hst
    exact ⟨h.hung, h.running.trans hr, h.trace, h.fatal.trans hf, h.inst, h.mutex⟩
  · rw [step_of_running hf hr, hstays _ _ hh]

end

section
/-! PROOFS. The expander calls (40_expander.md R140 to R146): the guard, the refusal, and the one step that makes the
transfer and returns. -/

namespace Sys2Proof.Machine

variable {s t : State} {c : BusConfig} {i : Instr} {a : Act} {ret : RetKind}

/-! ### The guard and the refusal -/

/-- A direct call on an instance without a configuration raises NoConfig (R140). -/
theorem State.CanCall.exec_noConfig (h : s.CanCall) (hc : s.here.cfg = none) (ho : isOperation i = false)
    (hl : isLifecycle i = false) : exec i s = .next (s.raiseFatal .noConfig) := by
  refine exec_of_firstFailing ?_
  rw [s.firstFailing_direct ho hl, h.race, Option.none_or, State.configGuard, hc]
  rfl

/-- On a configured instance its guards pass. -/
theorem State.Bound.firstFailing_direct (h : s.Bound c) (ho : isOperation i = false) (hl : isLifecycle i = false) :
    s.firstFailing i = none := by
  rw [s.firstFailing_direct ho hl, h.toCanCall.race, h.config, Option.none_or]

theorem Buffer.admits_eq_true {b : Buffer} {len : Nat} (h0 : 0 < len) (hb : len ≤ b.size) :
    Buffer.admits b len = true := Buffer.admits_of (by omega)

/-! ### A call of one step -/

/-- Past its guards an expander call is its one step, after which it has returned. -/
theorem State.Bound.expanderCall_done (h : s.Bound c) (hn : 1 ≤ s.turn.steps)
    (ht : (s.begin [a] ret).perform a = t) (hr : t.me.running = false) : s.expanderCall true ret a = .next t := by
  have hstep : (s.begin [a] ret).advance 1 = t := by
    rw [State.advance_succ, State.advance_zero, State.atomic_head (s.begin [a] ret) h.fatal (by simp)
      (by simpa using h.hung) (State.seq_begin ..), ht]
  have hcall : s.expanderCall true ret a = .next ((s.begin [a] ret).advance s.turn.steps) := by
    simp [State.expanderCall, State.call, h.toCanCall.race, h.config]
  rw [hcall, State.advance_done hn (by rwa [hstep]), hstep]

/-- The thread's record when a call has returned `v`. -/
def Thread.returned (th : Thread) (v : RetVal) : Thread := { th.atRest with rets := th.rets ++ [v] }

/-- One transport call answered, its event recorded, and its call returned with `v`. -/
def State.transferred (s : State) (e : EventBody) (v : RetVal) : State :=
  (s.popXfer.recordAs s.turn.tid s.me.inst e).setMe (s.me.returned v)

@[simp] theorem State.me_transferred (s : State) (e : EventBody) (v : RetVal) :
    (s.transferred e v).me = s.me.returned v := State.me_setMe ..

theorem Did.of_transferred (s : State) (c : BusConfig) (e : EventBody) (v : RetVal) :
    Did s (s.transferred e v) c s.here [e] (s.latchOf c.dev) v where
  inst := rfl
  trace := rfl
  latch := rfl
  me := State.me_transferred ..
  insts _ _ := rfl
  threads j hj := by rw [State.transferred, State.thread_setMe]; exact if_neg hj
  latches _ _ := rfl
  mem _ := rfl
  fatal := rfl
  turn := rfl
  turns := rfl

/-- A latch written besides is the only further difference. -/
theorem Did.setLatch {i : Instance} {es : List EventBody} {l : Option Byte} {v : RetVal} (h : Did s t c i es l v)
    (l' : Option Byte) : Did s (t.setLatch c.dev l') c i es l' v where
  inst := h.inst
  trace := h.trace
  latch := State.latchOf_setLatch_same ..
  me := h.me
  insts := h.insts
  threads := h.threads
  latches d hd := by
    rw [State.latchOf_setLatch, if_neg fun e => hd (deviceKey_inj e)]
    exact h.latches d hd
  mem := h.mem
  fatal := h.fatal
  turn := h.turn
  turns := h.turns

/-! ### Writes -/

theorem State.begin_xwriteStep {st : Status} (hc : s.here.cfg = some c) (hst : s.statusAt 0 = some st)
    (bytes : List Byte) (m : Bool) :
    (s.begin [a] .status).xwriteStep bytes m =
      (s.transferred (.wr c.dev (sentBytes c m bytes) st) (.status st)).setLatch c.dev
        (latchAfter (sentBytes c m bytes) st) := by
  rw [State.xwriteStep, State.portWrite_done _ (c := c) (by simpa using hc) (by simpa using hst),
    State.pop_last (by simp [State.setSt, State.begin])]
  simp [State.begin, State.setSt, State.transferred, Thread.finished, Thread.returned, Thread.atRest, retValue]

/-- `setPort` and `setPortByte` past the guard and the refusal (R142, R143). -/
theorem State.Bound.xwrite_did {st : Status} {bytes : List Byte} {m : Bool} (h : s.Bound c) (hn : 1 ≤ s.turn.steps)
    (hst : s.statusAt 0 = some st)
    (ha : (s.begin [a] .status).perform a = (s.begin [a] .status).xwriteStep bytes m) :
    ∃ t, s.expanderCall true .status a = .next t ∧
      Did s t c s.here [.wr c.dev (sentBytes c m bytes) st] (latchAfter (sentBytes c m bytes) st) (.status st) :=
  ⟨_, h.expanderCall_done hn (ha.trans (State.begin_xwriteStep h.cfg hst bytes m))
      (congrArg Thread.running (State.me_transferred ..)),
    (Did.of_transferred ..).setLatch _⟩

theorem sentBytes_bufferBytes (s : State) (c : BusConfig) (m : Bool) (values : Buffer) (len : Nat) :
    sentBytes c m (s.bufferBytes values len) =
      (List.range len).map fun j => masked c.outMask m (s.readMem (values.base + j)) :=
  List.map_map ..

theorem latchAfter_bufferBytes (s : State) (c : BusConfig) (m : Bool) (values : Buffer) {len : Nat} (h0 : 0 < len)
    (st : Status) : latchAfter (sentBytes c m (s.bufferBytes values len)) st =
      if st = .ok then some (masked c.outMask m (s.readMem (values.base + (len - 1)))) else none := by
  cases st with
  | ok => simp [latchAfter, sentBytes_bufferBytes, List.getLast?_range, h0.ne']
  | fail => rfl

/-! ### Reads -/

/-- Writing bytes changes host memory alone. -/
theorem State.writeMemBytes_eq (bs : List Byte) (s : State) (a : Nat) :
    s.writeMemBytes a bs = { s with mem := (s.writeMemBytes a bs).mem } := by
  induction bs generalizing s a with
  | nil => rfl
  | cons b bs ih => exact ih (s.writeMem a b) (a + 1)

/-- What commutes with every write of a byte commutes with a write of bytes. -/
theorem State.writeMemBytes_comm {f : State → State} (hf : ∀ s a b, (f s).writeMem a b = f (s.writeMem a b))
    (bs : List Byte) (s : State) (a : Nat) : (f s).writeMemBytes a bs = f (s.writeMemBytes a bs) := by
  induction bs generalizing s a with
  | nil => rfl
  | cons b bs ih => rw [State.writeMemBytes, hf, ih]; rfl

theorem readBytes_eq_sampleAt {data : List Byte} (hx : s.xferAt 0 = .ok data) (n : Nat) :
    readBytes s.env.xferNo data n = (List.range n).map (s.sampleAt 0) := by
  refine List.map_congr_left fun j _ => ?_
  simp only [State.sampleAt, hx]
  rfl

/-- Host memory with the samples of the next read in a buffer. -/
def State.sampledMem (s : State) (b : Buffer) (n : Nat) : Memory :=
  (s.writeMemBytes b.base ((List.range n).map (s.sampleAt 0))).mem

theorem State.readMem_sampledMem (s : State) (b : Buffer) (n a : Nat) :
    ({ s with mem := s.sampledMem b n } : State).readMem a =
      if b.base ≤ a ∧ a < b.base + n then s.sampleAt 0 (a - b.base) else s.readMem a := by
  refine (s.readMem_writeMemBytes _ b.base a).trans ?_
  by_cases h : b.base ≤ a ∧ a < b.base + n
  · rw [if_pos h, dif_pos ⟨h.1, by simp; omega⟩, List.getElem_map, List.getElem_range]
  · rw [if_neg h, dif_neg (by simp; omega)]

/-- A read's last step, once its event is recorded and its bytes are written. -/
theorem State.pop_begin_read (s : State) (e : EventBody) (st : Status) :
    (((s.begin [a] .status).popXfer.record e).setSt st).pop = s.transferred e (.status st) := by
  rw [State.pop_last (by simp [State.setSt, State.begin])]
  simp [State.begin, State.setSt, State.transferred, Thread.finished, Thread.returned, Thread.atRest, retValue]

theorem State.pop_begin_readByte (s : State) (e : EventBody) (st : Status) (r : Byte) :
    ((((s.begin [a] .statusByte).popXfer.record e).setR r).setSt st).pop =
      s.transferred e (.statusByte st (onOk st r)) := by
  rw [State.pop_last (by simp [State.setSt, State.setR, State.begin])]
  simp [State.begin, State.setSt, State.setR, State.transferred, Thread.finished, Thread.returned, Thread.atRest,
    retValue]

/-- The transport call of a read of `n` samples that succeeds, as a call begins. -/
theorem State.portRead_begin_ok (hc : s.here.cfg = some c) (hst : s.statusAt 0 = some .ok) (acts : List Act)
    (ret : RetKind) (n : Nat) (next : Status → List Byte → State → State) :
    (s.begin acts ret).portRead n next = next .ok ((List.range n).map (s.sampleAt 0))
      ((s.begin acts ret).popXfer.record (.rd c.dev n .ok ((List.range n).map (s.sampleAt 0)))) := by
  obtain ⟨data, hx⟩ := State.xferAt_ok hst
  rw [(s.begin acts ret).portRead_ok (c := c) (by simpa using hc) hx, ← readBytes_eq_sampleAt hx]
  rfl

/-- One that fails. -/
theorem State.portRead_begin_fail (hc : s.here.cfg = some c) (hst : s.statusAt 0 = some .fail) (acts : List Act)
    (ret : RetKind) (n : Nat) (next : Status → List Byte → State → State) :
    (s.begin acts ret).portRead n next =
      next .fail [] ((s.begin acts ret).popXfer.record (.rd c.dev n .fail [])) :=
  (s.begin acts ret).portRead_fail (by simpa using hc) (State.xferAt_fail hst)

/-- `getPort` on success: the samples are in the buffer (R145). -/
theorem State.begin_xread_ok (hc : s.here.cfg = some c) (hst : s.statusAt 0 = some .ok) (b : Buffer) (n : Nat) :
    (s.begin [a] .status).perform (.xread b n) =
      ({ s with mem := s.sampledMem b n } : State).transferred
        (.rd c.dev n .ok ((List.range n).map (s.sampleAt 0))) (.status .ok) := by
  simp only [State.perform, State.xreadStep]
  rw [State.portRead_begin_ok hc hst,
    State.writeMemBytes_comm (f := fun s => (s.begin [a] .status).popXfer.record _) fun _ _ _ => rfl,
    State.writeMemBytes_eq]
  exact State.pop_begin_read { s with mem := s.sampledMem b n } _ _

/-- On failure nothing is written. -/
theorem State.begin_xread_fail (hc : s.here.cfg = some c) (hst : s.statusAt 0 = some .fail) (b : Buffer) (n : Nat) :
    (s.begin [a] .status).perform (.xread b n) = s.transferred (.rd c.dev n .fail []) (.status .fail) := by
  simp only [State.perform, State.xreadStep]
  rw [State.portRead_begin_fail hc hst]
  exact s.pop_begin_read _ _

/-- `getPortByte` on success: the sample is its value (R146). -/
theorem State.begin_xreadByte_ok (hc : s.here.cfg = some c) (hst : s.statusAt 0 = some .ok) :
    (s.begin [a] .statusByte).perform .xreadByte =
      s.transferred (.rd c.dev 1 .ok [s.byteAt 0]) (.statusByte .ok (some (s.byteAt 0))) := by
  simp only [State.perform, State.xreadByteStep]
  rw [State.portRead_begin_ok hc hst]
  exact s.pop_begin_readByte _ _ _

theorem State.begin_xreadByte_fail (hc : s.here.cfg = some c) (hst : s.statusAt 0 = some .fail) :
    (s.begin [a] .statusByte).perform .xreadByte =
      s.transferred (.rd c.dev 1 .fail []) (.statusByte .fail none) := by
  simp only [State.perform, State.xreadByteStep]
  rw [State.portRead_begin_fail hc hst]
  exact s.pop_begin_readByte _ _ _

/-- A read past the guard and the refusal leaves the latch as it was. -/
theorem State.Bound.xread_did {e : EventBody} {v : RetVal} {m : Memory} (h : s.Bound c) (hn : 1 ≤ s.turn.steps)
    (hp : (s.begin [a] ret).perform a = ({ s with mem := m } : State).transferred e v) :
    ∃ t, s.expanderCall true ret a = .next t ∧ t.mem = m ∧
      Did { s with mem := m } t c s.here [e] (s.latchOf c.dev) v :=
  ⟨_, h.expanderCall_done hn hp (congrArg Thread.running (State.me_transferred ..)), rfl, Did.of_transferred ..⟩

end Sys2Proof.Machine

open Sys2Proof Sys2Proof.Machine

/-- Settles O31: without a configuration by `State.CanCall.exec_noConfig`, a bad length by `exec_of_badLength`, and past
both the one step of the call (`State.Bound.xwrite_did`). -/
theorem setPortCompletes : Obligations.SetPortCompletes := by
  unfold Obligations.SetPortCompletes
  intro s m hs
  refine ⟨fun hc => ⟨fun _ _ => hs.exec_noConfig hc rfl rfl, fun _ => hs.exec_noConfig hc rfl rfl⟩, ?_⟩
  intro c st hc hn hst
  have h : s.Bound c := ⟨hs, hc⟩
  refine ⟨fun values len hb => exec_of_badLength (h.firstFailing_direct rfl rfl) hb, fun values len h0 hl => ?_,
    fun value => ?_⟩
  · have hx := h.xwrite_did (bytes := s.bufferBytes values len) hn hst (a := .xwrite values len m) rfl
    rw [latchAfter_bufferBytes s c m values h0, sentBytes_bufferBytes] at hx
    rw [exec, execSetPort, Buffer.admits_eq_true h0 hl]
    exact hx
  · have hx := h.xwrite_did (bytes := [value]) hn hst (a := .xwriteByte value m) rfl
    cases st <;> exact hx

/-- Settles O32: the guard and the refusal as for O31; past them the one step of the call, which writes memory where
`getPort` succeeds (`State.readMem_sampledMem`) and nowhere else. -/
theorem getPortCompletes : Obligations.GetPortCompletes := by
  unfold Obligations.GetPortCompletes
  intro s hs
  refine ⟨fun hc => ⟨fun _ _ => hs.exec_noConfig hc rfl rfl, hs.exec_noConfig hc rfl rfl⟩, ?_⟩
  intro c buffer len hc hn
  have h : s.Bound c := ⟨hs, hc⟩
  refine ⟨fun hb => exec_of_badLength (h.firstFailing_direct rfl rfl) hb, fun h0 hl hst => ⟨?_, ?_⟩,
    fun h0 hl hst => ⟨?_, ?_⟩⟩
  · obtain ⟨t, ht, hm, hd⟩ := h.xread_did hn (State.begin_xread_ok hc hst buffer len)
    rw [exec, execGetPort, Buffer.admits_eq_true h0 hl]
    exact ⟨t, ht, by rw [hm]; exact hd, fun a => (hd.mem a).trans (s.readMem_sampledMem buffer len a)⟩
  · obtain ⟨t, ht, -, hd⟩ := h.xread_did hn (State.begin_xreadByte_ok hc hst)
    exact ⟨t, ht, hd⟩
  · obtain ⟨t, ht, -, hd⟩ := h.xread_did hn (State.begin_xread_fail hc hst buffer len)
    rw [exec, execGetPort, Buffer.admits_eq_true h0 hl]
    exact ⟨t, ht, hd⟩
  · obtain ⟨t, ht, -, hd⟩ := h.xread_did hn (State.begin_xreadByte_fail hc hst)
    exact ⟨t, ht, hd⟩

end

section
/-! PROOFS. The enable pulse (41_bus_engine.md R177): the EN bit of a byte, and the byte without it. -/

namespace Sys2Proof.Machine

/-- The byte with its EN bit cleared. -/
def restOf (l : Layout) (img : PortImage) : Byte := serialize l img &&& ~~~(1#8 <<< l.en)

theorem bitAt_and_not (b : Bool) (p : Nat) : bitAt b p &&& ~~~(1#8 <<< p) = 0#8 := by
  cases b with
  | false => simp [bitAt]
  | true => exact BitVec.and_not_self _

/-- It holds what the byte of the image with EN low holds: EN stands at its own bit and nowhere else. -/
theorem restOf_en (l : Layout) (img : PortImage) : restOf l img = restOf l { img with en := false } := by
  simp only [restOf, serialize, BitVec.and_or_distrib_right, bitAt_and_not]

variable {l : Layout}

theorem getBit_en (h : l.wf = true) (img : PortImage) : getBit (serialize l img) l.en = img.en := by
  obtain ⟨-, -, he, -⟩ := serialize_bits h img
  exact he

theorem en_triple (h : l.wf = true) (rs rw bl : Bool) (n : Nib) :
    (triple rs rw bl n).map (fun i => getBit (serialize l i) l.en) = [false, true, false] := by
  simp only [triple, List.map_cons, List.map_nil, getBit_en h]

theorem rest_triple (l : Layout) (rs rw bl : Bool) (n : Nib) :
    let b := restOf l { rs, rw, en := false, bl, dt := n }
    (triple rs rw bl n).map (restOf l) = [b, b, b] := by
  simp only [triple, List.map_cons, List.map_nil, restOf_en l { rs, rw, en := true, bl, dt := n }]

end Sys2Proof.Machine

open Sys2Proof Sys2Proof.Machine

/-- Settles O12: EN can be read off each byte (`getBit_en`), and the rest of the byte does not depend on it
(`restOf_en`). -/
theorem enablePulse : Obligations.EnablePulse := by
  unfold Obligations.EnablePulse
  intro l bl rs v h en rest
  let b (n : Nib) := restOf l { rs, rw := false, en := false, bl, dt := n }
  have hrest (n : Nib) : rest (triple rs false bl n) = [b n, b n, b n] := rest_triple l rs false bl n
  refine ⟨?_, en_triple h .., ?_, ⟨b (hiNib v), b (loNib v), ?_, hrest _⟩, restOf l (readImage bl rs false), ?_⟩
  · exact List.map_append.trans (congrArg₂ _ (en_triple h ..) (en_triple h ..))
  · simp only [en, setupBurst, List.map_cons, List.map_nil, getBit_en h, readImage]
  · exact List.map_append.trans (congrArg₂ _ (hrest _) (hrest _))
  · exact congrArg (fun b => [restOf l (readImage bl rs false), b]) (restOf_en l (readImage bl rs true))

end

section
/-! PROOFS. Direct accesses (41_bus_engine.md R160 to R171): the one access of the call, and its return. -/

namespace Sys2Proof.Machine

variable {s : State} {c : BusConfig} {a b : Act} {ret : RetKind} {m n : Nat} {es : List EventBody} {l : Option Byte}
  {i : Instance} {st : Status} {r : Byte}

/-- A direct call whose steps come to the end of its one access has returned, with the status and byte the access ended
with. -/
theorem State.Bound.access_did (h : s.Bound c) (hn : n ≤ s.turn.steps)
    (hadv : (s.begin [a] ret).advance n = ((s.begin [a] ret).did c m es l i
      { (s.begin [a] ret).me.ended b with st := st, r := r }).pop) :
    ∃ t, s.engineCall ret [a] = .next t ∧ Did s t c i es l (retValue ret st r) := by
  rw [State.me_begin, State.pop_did_last rfl, State.did_begin] at hadv
  rw [h.engineCall, State.advance_done hn (by rw [hadv, State.me_did]; rfl), hadv]
  exact ⟨_, rfl, .of_did rfl⟩

theorem readSteps_le (width : Width) : readSteps width ≤ 8 := by cases width <;> decide

theorem readCalls_le (width : Width) : readCalls width ≤ 4 := by cases width <;> decide

end Sys2Proof.Machine

open Sys2Proof Sys2Proof.Machine

/-- Settles O23: the four steps of the write access (`State.advance_write`). -/
theorem writeAccessesComplete : Obligations.WriteAccessesComplete := by
  unfold Obligations.WriteAccessesComplete
  intro s c i w st hi h hm hn hst
  have hadv := State.advance_write (h.clear hm [.write .acq w.rs w.v w.width w.settle] .nothing) (State.seq_begin ..)
    hst
  rw [State.here_begin, State.params, State.img, State.here_begin] at hadv
  rw [engineWrite_exec hi]
  exact h.access_did hn hadv

/-- Settles O24: the steps of a read access that succeeds (`State.advance_read`). -/
theorem readAccessesComplete : Obligations.ReadAccessesComplete := by
  unfold Obligations.ReadAccessesComplete
  intro s c i rs width si hi h hm hn hr
  have hadv := State.advance_read (h.clear hm [.read .acq rs width] .statusByte) (State.seq_begin ..) hr
  rw [State.here_begin, State.params, State.img, State.here_begin] at hadv
  rw [engineRead_exec hi]
  exact h.access_did ((readSteps_le width).trans hn) hadv

/-- Settles O26: the steps of a read access up to its abort (`State.advance_abort`). -/
theorem readAccessesAbort : Obligations.ReadAccessesAbort := by
  unfold Obligations.ReadAccessesAbort
  intro s c i rs width k hi h hm hn hk
  have hlt : k < 4 := hk.1.trans_le (readCalls_le width)
  obtain ⟨r, hadv⟩ := State.advance_abort (h.clear hm [.read .acq rs width] .statusByte) (State.seq_begin ..) hk
  rw [State.here_begin, State.params, State.img, State.here_begin] at hadv
  rw [engineRead_exec hi]
  exact h.access_did (by omega) hadv

end

section
/-! PROOFS. The backlight calls (41_bus_engine.md R178 to R181): the call up to its one write, what an overlap can be
seen to be before the call begins, and the write itself. -/

namespace Sys2Proof.Machine

variable {s : State} {c : BusConfig} {i : Instr} {on : Bool} {v : Thread} {st : Status} {img : PortImage}

/-! ### Entries of a sparse map -/

theorem Sparse.filter_set {α : Type} [DecidableEq α] (d v : α) (m : Sparse α) (k : Nat) :
    (Sparse.set d m k v).filter (fun e => e.1 ≠ k) = m.filter (fun e => e.1 ≠ k) := by
  unfold Sparse.set
  split
  · simp
  · rw [Sparse.filter_insert]
    simp

/-- A write lists no other value under its own key. -/
theorem Sparse.value_of_mem_set {α : Type} [DecidableEq α] {d v : α} {m : Sparse α} {k : Nat} {e : Nat × α}
    (he : e ∈ Sparse.set d m k v) (hk : e.1 = k) : e.2 = v := by
  unfold Sparse.set at he
  split at he
  · exact absurd hk (by simpa using (List.mem_filter.1 he).2)
  · rcases Sparse.mem_insert he with h | h
    · rw [h]
    · exact absurd hk (by simpa using (List.mem_filter.1 h).2)

/-! ### An overlap, before the call begins and at its write -/

theorem mem_copies {ens : List Bool} {xs ys : List PortImage} {x : PortImage} (h : xs ⊆ ys) (hx : x ∈ copies ens xs) :
    x ∈ copies ens ys := by
  obtain ⟨y, hy, hx⟩ := List.mem_flatMap.1 hx
  exact List.mem_flatMap.2 ⟨y, h hy, hx⟩

/-- The more images others may put in place, the more an access may queue. -/
theorem Act.nextImages_subset (a : Act) {xs ys : List PortImage} (h : xs ⊆ ys) :
    a.nextImages img xs ⊆ a.nextImages img ys := by
  intro x hx
  cases a with
  | read pos rs width =>
    cases pos with
    | setupHi =>
      cases width <;> exact List.mem_append.2 ((List.mem_append.1 hx).imp_right (mem_copies h))
    | capHi => cases width <;> exact mem_copies (List.cons_subset_cons img h) hx
    | setupLo | capLo | idle => exact mem_copies (List.cons_subset_cons img h) hx
    | acq | settle | rel | abort => exact hx
  | write pos => cases pos <;> exact hx
  | burst pos => cases pos <;> exact hx
  | _ => exact hx

theorem Thread.overlapImages_subset (th : Thread) {xs ys : List PortImage} (h : xs ⊆ ys) :
    th.overlapImages img xs ⊆ th.overlapImages img ys := by
  intro x hx
  unfold Thread.overlapImages at hx ⊢
  refine List.mem_append.2 ((List.mem_append.1 hx).imp_right fun hx => ?_)
  split
  · next hh hs =>
    simp only [hh, hs] at hx
    exact Act.nextImages_subset _ h hx
  · next hn =>
    split at hx
    · next hh hs => exact absurd hs (hn _ _ hh)
    · exact hx

theorem State.here_setMe (hv : v.inst = s.me.inst) : (s.setMe v).here = s.here := by simp [hv]

/-- A thread record on the same instance, whose direct accesses to come are among those of the record it replaces,
brings no image to the others' accesses. -/
theorem State.otherImages_setMe_subset (hv : v.inst = s.me.inst) (hp : v.puts s.me.inst ⊆ s.me.puts s.me.inst)
    (t : Nat) : (s.setMe v).otherImages t ⊆ s.otherImages t := by
  unfold State.otherImages
  rw [State.params, State.here_setMe hv, State.params]
  split
  · intro x hx
    simp only [List.mem_flatMap, List.mem_filter, State.me_setMe, hv, decide_eq_true_eq] at hx ⊢
    obtain ⟨e, ⟨he, ht⟩, hx⟩ := hx
    by_cases hk : e.1 = s.turn.tid
    · rw [Sparse.value_of_mem_set he hk] at hx
      rcases Sparse.get_eq_or_mem Thread.idle s.threads s.turn.tid with hidle | hmem
      · have hme : s.me = Thread.idle := hidle
        have hx := hp hx
        rw [hme] at hx
        cases hx
      · exact ⟨_, ⟨hmem, hk ▸ ht⟩, hp hx⟩
    · exact ⟨e, ⟨Sparse.mem_set_other he hk, ht⟩, hx⟩
  · exact List.Subset.refl _

theorem State.overlapImages_setMe_subset (hv : v.inst = s.me.inst) (hp : v.puts s.me.inst ⊆ s.me.puts s.me.inst) :
    (s.setMe v).overlapImages ⊆ s.overlapImages := by
  intro x hx
  unfold State.overlapImages at hx ⊢
  rw [State.presentImages, State.params, State.img, State.here_setMe hv] at hx
  simp only [List.mem_flatMap, List.mem_filter, State.me_setMe, hv, decide_eq_true_eq, Bool.and_eq_true] at hx ⊢
  obtain ⟨e, ⟨he, hk, ha⟩, hx⟩ := hx
  exact ⟨e, ⟨Sparse.mem_set_other he hk, hk, ha⟩,
    List.mem_append.2 ((List.mem_append.1 hx).imp_left
      fun hx => e.2.overlapImages_subset (State.otherImages_setMe_subset hv hp e.1) hx)⟩

theorem State.noOverlap_of_setMe (hv : v.inst = s.me.inst) (h : (s.setMe v).noOverlap) : s.noOverlap := by
  rw [State.noOverlap_iff] at h ⊢
  intro e he hk
  have hmem : e ∈ (s.setMe v).threads.filter fun e => e.1 ≠ s.turn.tid := by
    rw [State.setMe_threads, Sparse.filter_set]
    exact List.mem_filter.2 ⟨he, by simpa using hk⟩
  rw [← hv, ← State.me_setMe s v]
  exact h e (List.mem_of_mem_filter hmem) hk

/-- With an overlap, the byte's other seven bits are those of an image of the set. -/
theorem State.blBase_mem (h : ¬s.noOverlap) : s.blBase ∈ s.overlapImages := by
  unfold State.blBase
  split
  · next he => exact absurd he h
  · next x xs he =>
    rw [he, List.getD_eq_getElem _ _ (Nat.mod_lt _ (by simp))]
    exact List.getElem_mem _

/-! ### The call up to its one write -/

/-- `v` is what the record `th` has become at the write of a backlight call, its last element. -/
structure AtBacklightWrite (th v : Thread) : Prop where
  inst : v.inst = th.inst
  last : v.seq.tail = []
  returned : v.finished = th.returned .nothing
  puts : ∀ k, v.puts k ⊆ th.puts k

/-- A thread whose one element puts no image in place brings only the calls it has still to make. -/
theorem Thread.puts_subset_of_calls {th : Thread} {a : Act} (hs : v.seq = [a]) (ha : a.puts = [])
    (hc : v.calls = th.calls) (k : Nat) : v.puts k ⊆ th.puts k := by
  have hv : v.puts k = v.calls.flatMap (Call.puts k) := by simp [Thread.puts, hs, ha]
  rw [hv, hc]
  exact List.subset_append_right ..

theorem State.Bound.advance_blSet (h : s.Bound c) (on : Bool) (n : Nat) :
    (s.begin [.blSet on] .nothing).advance (n + 1) = ((s.begin [.blSet on] .nothing).blWriteStep on).advance n := by
  rw [State.advance_succ, State.atomic_head (s.begin _ _) h.fatal (by simp) (by simpa using h.hung)
    (State.seq_begin ..)]
  rfl

/-- BL_READ keeps the image's BL in the thread, whose next element is BL_WRITE. -/
theorem State.Bound.atomic_blRead (h : s.Bound c) : (s.begin [.blRead, .blWrite] .nothing).atomic =
    s.setMe { s.me.atRest with running := true, seq := [.blWrite], b := s.img.bl } := by
  rw [State.atomic_head (s.begin _ _) h.fatal (by simp) (by simpa using h.hung) (State.seq_begin ..)]
  simp only [State.perform]
  rw [State.pop_more (a := .blWrite) (rest := []) (by simp)]
  simp [State.begin, Thread.atRest]

theorem State.Bound.advance_blToggle (h : s.Bound c) (n : Nat) :
    (s.begin [.blRead, .blWrite] .nothing).advance (n + 2) =
      ((s.setMe { s.me.atRest with running := true, seq := [.blWrite], b := s.img.bl }).blWriteStep
        (!s.img.bl)).advance n := by
  rw [State.advance_succ, h.atomic_blRead, State.advance_succ, State.atomic_head (s.setMe _) h.fatal (by simp)
    (by simpa using h.hung) (by rw [State.me_setMe])]
  simp only [State.perform, State.me_setMe]

/-- Every backlight call is `blSet` of the level it sets, or `blToggle`. -/
theorem backlightLevel_exec (hi : backlightLevel s.img.bl i = some on) :
    exec i s = s.engineCall .nothing [.blSet on] ∨
      exec i s = s.engineCall .nothing [.blRead, .blWrite] ∧ (!s.img.bl) = on := by
  cases i <;> simp only [backlightLevel, reduceCtorEq, Option.some.injEq] at hi
  case setBacklight | blSet | backlightWrite => exact .inl (by rw [← hi]; rfl)
  case toggleBacklight | blToggle => exact .inr ⟨rfl, hi⟩

/-- A backlight call comes to the write of the level it sets, and what is left of its turn follows. -/
theorem State.Bound.exec_backlight (h : s.Bound c) (hi : backlightLevel s.img.bl i = some on) (hn : 2 ≤ s.turn.steps) :
    ∃ v n, AtBacklightWrite s.me v ∧ exec i s = .next (((s.setMe v).blWriteStep on).advance n) := by
  obtain ⟨n, hn⟩ := Nat.exists_eq_add_of_le' hn
  rcases backlightLevel_exec hi with he | ⟨he, hon⟩
  · rw [he, h.engineCall, hn, h.advance_blSet]
    exact ⟨{ s.me.atRest with running := true, seq := [.blSet on], ret := .nothing }, n + 1,
      ⟨rfl, rfl, rfl, Thread.puts_subset_of_calls rfl rfl rfl⟩, rfl⟩
  · rw [he, h.engineCall, hn, h.advance_blToggle, hon]
    exact ⟨{ s.me.atRest with running := true, seq := [.blWrite], b := s.img.bl }, n,
      ⟨rfl, rfl, rfl, Thread.puts_subset_of_calls rfl rfl rfl⟩, rfl⟩

/-! ### The write -/

/-- A backlight write has drawn its image and marked the overlapped accesses where it changes BL. -/
def State.marked (s : State) (on : Bool) : State :=
  let s1 := if s.overlapImages.isEmpty then s else s.popChoice
  if s.img.bl = on then s1 else s1.markRace

theorem State.blWriteStep_eq (s : State) (on : Bool) : s.blWriteStep on =
    ((s.marked on).setImg { (s.marked on).img with bl := on }).portWrite
      [serialize s.params.layout { s.blBase with bl := on }] s.params.applyMask (fun _ s => s.pop) := rfl

@[simp] theorem State.me_marked (s : State) (on : Bool) : (s.marked on).me = s.me := by
  unfold State.marked
  split <;> split <;> simp

@[simp] theorem State.inst_marked (s : State) (on : Bool) (k : Nat) : (s.marked on).inst k = s.inst k := by
  unfold State.marked
  split <;> split <;> rfl

@[simp] theorem State.turn_marked (s : State) (on : Bool) : (s.marked on).turn = s.turn := by
  unfold State.marked
  split <;> split <;> rfl

@[simp] theorem State.trace_marked (s : State) (on : Bool) : (s.marked on).trace = s.trace := by
  unfold State.marked
  split <;> split <;> rfl

@[simp] theorem State.statusAt_marked (s : State) (on : Bool) (j : Nat) : (s.marked on).statusAt j = s.statusAt j := by
  unfold State.marked
  split <;> split <;> rfl

/-- An overlapped access is marked where BL changes. -/
theorem State.race_marked {j : Nat} (hj : j ≠ s.turn.tid) (ha : (s.thread j).inAccess s.me.inst = true) (on : Bool) :
    ((s.marked on).thread j).race = ((s.thread j).race || decide (s.img.bl ≠ on)) := by
  have hmark : (s.marked on).thread j = if s.img.bl = on then s.thread j else s.markRace.thread j := by
    unfold State.marked
    split <;> split <;> rfl
  rw [hmark]
  split
  · next hbl => rw [decide_eq_false (not_not_intro hbl), Bool.or_false]
  · next hbl => rw [State.thread_markRace, if_pos ⟨hj, ha⟩, decide_eq_true hbl, Bool.or_true]

/-- The state after that write and its transfer, before the call returns. -/
def State.backlit (s : State) (on : Bool) (c : BusConfig) (st : Status) : State :=
  (((s.marked on).popXfer.setLatch c.dev (latchAfter (sent s.params c [{ s.blBase with bl := on }]) st)).recordAs
    s.turn.tid s.me.inst (.wr c.dev (sent s.params c [{ s.blBase with bl := on }]) st)).setInst
    s.me.inst { s.here with img := { s.img with bl := on } }

/-- The write as the last element of its call, overlapped or not, where its transfer completes. -/
theorem State.blWriteStep_last (hc : s.here.cfg = some c) (hst : s.statusAt 0 = some st) (hl : s.me.seq.tail = [])
    (on : Bool) : s.blWriteStep on = (s.backlit on c st).setMe s.me.finished := by
  rw [State.blWriteStep_eq, State.portWrite_done _ (c := c) (st := st) (by simpa using hc) (by simpa using hst),
    State.pop_last (by simpa using hl)]
  simp [State.backlit, sentBytes, sent]

theorem State.trace_backlit (s : State) (on : Bool) (c : BusConfig) (st : Status) : (s.backlit on c st).trace =
    s.trace ++ s.entries [.wr c.dev (sent s.params c [{ s.blBase with bl := on }]) st] := by
  simp [State.backlit, State.entries]

theorem State.inst_backlit (s : State) (on : Bool) (c : BusConfig) (st : Status) :
    (s.backlit on c st).inst s.me.inst = { s.here with img := { s.img with bl := on } } :=
  State.inst_setInst_same ..

theorem State.race_backlit {j : Nat} (hj : j ≠ s.turn.tid) (ha : (s.thread j).inAccess s.me.inst = true) :
    ((s.backlit on c st).thread j).race = ((s.thread j).race || decide (s.img.bl ≠ on)) := State.race_marked hj ha on

end Sys2Proof.Machine

open Sys2Proof Sys2Proof.Machine

/-- Settles O27: the call comes to its write (`State.Bound.exec_backlight`), which nothing overlaps
(`State.blWriteStep_done`). -/
theorem backlightCallsComplete : Obligations.BacklightCallsComplete := by
  unfold Obligations.BacklightCallsComplete
  intro s c i on st hi h ho hn hst
  obtain ⟨v, n, hv, he⟩ := h.exec_backlight hi hn
  have hhere := State.here_setMe hv.inst
  have hw := State.blWriteStep_done (s := s.setMe v) (c := c) (on := on) (st := st) (State.noOverlap_setMe ho hv.inst)
    (by rw [hhere]; exact h.cfg) hst
  rw [hhere, State.params, State.img, hhere, State.me_setMe, State.did_setMe hv.inst, State.pop_did_last hv.last,
    hv.returned] at hw
  rw [he, hw, State.advance_idle (by rw [State.me_did]; rfl)]
  exact ⟨_, rfl, .of_did rfl⟩

/-- Settles O28: the call comes to its write (`State.Bound.exec_backlight`), whose byte is that of an image overlapped
(`State.blBase_mem`), hence of one overlapped before the call began (`State.overlapImages_setMe_subset`). -/
theorem overlappingBacklightByte : Obligations.OverlappingBacklightByte := by
  unfold Obligations.OverlappingBacklightByte
  intro s c i on st hi h ho hn hst
  obtain ⟨v, n, hv, he⟩ := h.exec_backlight hi hn
  have hhere := State.here_setMe hv.inst
  have hbase : (s.setMe v).blBase ∈ s.overlapImages :=
    State.overlapImages_setMe_subset hv.inst (hv.puts _)
      (State.blBase_mem fun hno => ho (State.noOverlap_of_setMe hv.inst hno))
  have hw := State.blWriteStep_last (s := s.setMe v) (c := c) (st := st) (by rw [hhere]; exact h.cfg) hst
    (by rw [State.me_setMe]; exact hv.last) on
  rw [State.me_setMe, hv.returned] at hw
  rw [he, hw, State.advance_idle (by rw [State.me_setMe]; rfl)]
  have hother (j : Nat) (hj : j ≠ s.turn.tid) : (s.setMe v).thread j = s.thread j := by
    rw [State.thread_setMe, if_neg hj]
  refine ⟨_, _, hbase, rfl, ?_, ?_, fun j hj ha => ?_⟩
  · have htrace := State.trace_backlit (s.setMe v) on c st
    rwa [State.entries, State.me_setMe, hv.inst, State.params, hhere] at htrace
  · have hinst := State.inst_backlit (s.setMe v) on c st
    rwa [State.me_setMe, hv.inst, State.img, hhere] at hinst
  · have hrace := State.race_backlit (s := s.setMe v) (c := c) (st := st) (on := on) (j := j) hj
      (by rw [hother j hj, State.me_setMe, hv.inst]; exact ha)
    rw [hother j hj, State.img, hhere] at hrace
    rw [State.thread_setMe, if_neg (by simpa [State.backlit] using hj)]
    exact hrace

end

section
/-! PROOFS. The batches of an access and what follows them (41_bus_engine.md R169, R181): the one transport write of a
batch, the BL it carries, and the end of an access. -/

namespace Sys2Proof.Machine

variable {s : State} {c : BusConfig} {st : Status} {a : Act}

/-! ### The transport write of a batch -/

/-- A batch whose transfer completes goes on with `next` at the same position, with its event and its last image. -/
theorem State.sendImages_done (hc : s.here.cfg = some c) (hst : s.statusAt 0 = some st) (images : List PortImage)
    (next : Status → State → State) : ∃ u : State, s.sendImages images next = next st u ∧ u.me.seq = s.me.seq ∧
      u.trace = s.trace ++ s.entries [.wr c.dev (sent s.params c images) st] ∧
      (u.inst s.me.inst).img = images.getLastD s.img := by
  refine ⟨_, State.portWrite_done _ (c := c) (by simpa using hc) (by simpa using hst), ?_, ?_, ?_⟩
  · simp
  · simp [State.entries, sentBytes, sent]
  · simp

/-! ### The BL of a batch -/

/-- BL is the image's own but for an overlap, and no other field changes. -/
theorem State.img_holdBl (s : State) :
    (s.me.race = false → s.holdBl.img.bl = s.img.bl) ∧ s.holdBl.img = { s.img with bl := s.holdBl.img.bl } := by
  refine ⟨fun h => by rw [State.holdBl_of_not_race h], ?_⟩
  unfold State.holdBl
  split
  · simp
  · rfl

/-- A batch composed from the image with the BL it carries. -/
theorem State.holdBl_sendImages_done (hc : s.here.cfg = some c) (hst : s.statusAt 0 = some st)
    (images : PortImage → List PortImage) (next : Status → State → State) :
    ∃ (bl : Bool) (u : State), (s.me.race = false → bl = s.img.bl) ∧
      s.holdBl.sendImages (images s.holdBl.img) next = next st u ∧ u.me.seq = s.me.seq ∧
      u.trace = s.trace ++ s.entries [.wr c.dev (sent s.params c (images { s.img with bl := bl })) st] ∧
      (u.inst s.me.inst).img = (images { s.img with bl := bl }).getLastD { s.img with bl := bl } := by
  have h := (Composed.refl s).holdBl
  have hp : s.holdBl.params = s.params := ((Frame.refl (bound := False) s).holdBl).params
  obtain ⟨hbl, himg⟩ := s.img_holdBl
  obtain ⟨u, hu, hseq, htrace, hlast⟩ := State.sendImages_done (s := s.holdBl) (c := c) (st := st)
    (h.cfg.trans hc) (h.status.trans hst) (images s.holdBl.img) next
  refine ⟨_, u, hbl, hu, hseq.trans h.seq, ?_, ?_⟩
  · rw [htrace, h.trace, hp, ← himg, State.entries, h.turn, h.inst]
    rfl
  · rw [← himg, ← hlast, h.inst]

/-- What an element does that queues images: it composes them from the image with the BL they carry, sends them, and
goes to its next position. -/
structure Queues (s : State) (a : Act) (images : PortImage → List PortImage) (next : Status → State → State) :
    Prop where
  perform : s.perform a = s.holdBl.sendImages (images s.holdBl.img) next
  batch : ∀ bl, a.batch s.img bl = some (images { s.img with bl := bl })
  nonempty : ∀ img, images img ≠ []
  bl : ∀ img, ∀ i ∈ images img, i.bl = img.bl
  next : ∀ st u, ∃ b, next st u = State.goto u b

theorem bl_of_mem_writeBurst {bl rs : Bool} {v : Byte} {width : Width} {i : PortImage}
    (h : i ∈ writeBurst bl rs v width) : i.bl = bl := by
  have htriple {n : Nib} (h : i ∈ triple rs false bl n) : i.bl = bl := by
    simp only [triple, List.mem_cons, List.not_mem_nil, or_false] at h
    rcases h with rfl | rfl | rfl <;> rfl
  cases width with
  | four => exact (List.mem_append.1 h).elim htriple htriple
  | eight => exact htriple h

/-- Where a read goes from a setup: to the capture at `pos`, or to its abort. -/
def readNext (pos : RPos) (rs : Bool) (width : Width) (st : Status) (s : State) : State :=
  match st with
  | .ok => s.goto (.read pos rs width)
  | .fail => s.goto (.read .abort rs width)

theorem readNext_goto {pos : RPos} {rs : Bool} {width : Width} (st : Status) (s : State) :
    ∃ b, readNext pos rs width st s = s.goto b := by
  cases st <;> exact ⟨_, rfl⟩

/-- The positions that queue images are those of a write's burst and of a read's setups and idle byte. -/
theorem State.queues (s : State) (h : (a.batch s.img s.img.bl).isSome = true) :
    ∃ images next, Queues s a images next := by
  cases a with
  | write pos rs v width settle =>
    cases pos with
    | send =>
      refine ⟨fun img => writeBurst img.bl rs v width, _, ?_, fun _ => rfl, fun _ => ?_,
        fun _ _ => bl_of_mem_writeBurst, fun _ u => ⟨.write .settle rs v width settle, rfl⟩⟩
      · rw [← writeImages_eq]
        rfl
      · cases width <;> exact List.cons_ne_nil _ _
    | acq | settle | rel => cases h
  | read pos rs width =>
    cases pos with
    | setupHi =>
      exact ⟨fun img => readSetupImages img rs, readNext .capHi rs width, rfl, fun _ => rfl,
        fun _ => List.cons_ne_nil _ _, by simp [readSetupImages], readNext_goto⟩
    | setupLo =>
      exact ⟨fun img => [{ img with en := false }, { img with en := true }], readNext .capLo rs width, rfl,
        fun _ => rfl, fun _ => List.cons_ne_nil _ _, by simp, readNext_goto⟩
    | idle =>
      exact ⟨fun img => [{ img with en := false }], _, rfl, fun _ => rfl, fun _ => List.cons_ne_nil _ _, by simp,
        fun _ u => ⟨.read .settle rs width, rfl⟩⟩
    | acq | capHi | capLo | settle | rel | abort => cases h
  | _ => cases h

/-! ### The end of an access -/

/-- What changes no image after the BL draw of an access's end leaves the image as the draw left it. -/
theorem State.img_of_holdBl {t : State} (h : ∀ k, (t.inst k).img = (s.holdBl.inst k).img) :
    ∃ bl, (s.me.race = false → bl = s.img.bl) ∧ (t.inst s.me.inst).img = { s.img with bl := bl } := by
  obtain ⟨hbl, himg⟩ := s.img_holdBl
  refine ⟨_, hbl, ?_⟩
  rw [h, ← himg, State.img, State.here_eq, (Composed.refl s).holdBl.inst]

/-- The last position of an access or bare burst draws BL only after an overlap. -/
theorem State.img_perform_ends (s : State) (h : a.ends = true) : ∃ bl, (s.me.race = false → bl = s.img.bl) ∧
    ((s.perform a).inst s.me.inst).img = { s.img with bl := bl } := by
  have hst (st : Status) : ∃ bl, (s.me.race = false → bl = s.img.bl) ∧
      ((s.setSt st).leaveAccess.inst s.me.inst).img = { s.img with bl := bl } := by
    have hl := State.img_of_holdBl (s.setSt st).img_leaveAccess
    rw [State.img_eq, State.setSt, State.me_setMe] at hl
    exact hl
  cases a with
  | write pos =>
    cases pos with
    | rel => exact State.img_of_holdBl s.img_leaveAccess
    | acq | send | settle => cases h
  | read pos =>
    cases pos with
    | rel => exact hst .ok
    | abort => exact hst .fail
    | acq | setupHi | capHi | setupLo | capLo | idle | settle => cases h
  | burst pos =>
    cases pos with
    | rel => exact State.img_of_holdBl fun k => ((State.keepsImg_release _).trans (State.keepsImg_pop _)) k
    | acq | send => cases h
  | _ => cases h

end Sys2Proof.Machine

open Sys2Proof Sys2Proof.Machine

/-- Settles O29: a batch is sent with the BL it carries (`State.queues`, `State.holdBl_sendImages_done`), and an access
or bare burst ends with its BL (`State.img_perform_ends`). -/
theorem overlappedAccessDrawsBacklight : Obligations.OverlappedAccessDrawsBacklight := by
  unfold Obligations.OverlappedAccessDrawsBacklight
  intro s c a rest st hf hr hh hc hst hs
  rw [s.atomic_head hf hr hh hs]
  refine ⟨fun hb => ?_, s.img_perform_ends⟩
  obtain ⟨images, next, hq⟩ := s.queues hb
  obtain ⟨bl, u, hbl, hu, -, htrace, hlast⟩ := State.holdBl_sendImages_done hc hst images next
  obtain ⟨b, hnext⟩ := hq.next st u
  rw [hq.perform, hu, hnext]
  refine ⟨bl, _, hbl, hq.batch bl, hq.bl _, htrace, ?_⟩
  rw [State.keepsImg_goto, hlast, List.getLastD_eq_getLast?, List.getLast?_eq_some_getLast (hq.nonempty _),
    Option.getD_some]

/-- Settles O25: the idle write goes to the settle position whatever its status, and there a status read sleeps. -/
theorem statusReadSettles : Obligations.StatusReadSettles := by
  unfold Obligations.StatusReadSettles
  intro s rs width rest hf hr hh
  refine ⟨fun c st hs hc hst => ?_, fun hs => ?_⟩
  · obtain ⟨bl, u, -, hu, hseq, -, -⟩ := State.holdBl_sendImages_done hc hst (fun img => [{ img with en := false }])
      fun _ s => s.goto (.read .settle rs width)
    have hp : s.perform (.read .idle rs width) = u.goto (.read .settle rs width) := hu
    rw [s.atomic_head hf hr hh hs, hp, State.goto, State.me_setMe, hseq, hs]
    rfl
  · rw [s.atomic_head hf hr hh hs]
    cases rs with
    | true | false => simp [State.perform, State.readStep, State.goto, State.sleep, hs]

end

section
/-! PROOFS. The mutex of a direct access under ACCESS (41_bus_engine.md R174), at every turn length. -/

namespace Sys2Proof.Machine

variable {s : State} {c : BusConfig} {a b : Act}

/-- A thread with sequence `σ` inside a direct access owns the mutex `m`; once its call has returned the mutex is
free. -/
def AccessHolds (self : Nat) (m : Option Nat) (running : Bool) (σ : List Act) : Prop :=
  if running then m = some self ∧ ∃ a, σ = [a] ∧ a.inAccess = true else m = none

/-- Under ACCESS an access that has the mutex goes on inside itself, or gives the mutex back and returns. -/
theorem Moves.accessHolds {self : Nat} {m m' : Option Nat} {r : Bool} {σ σ' : List Act}
    (h : Moves .access self m σ m' r σ') (ha : AccessHolds self m true σ) : AccessHolds self m' r σ' := by
  obtain ⟨rfl, a, rfl, hin⟩ := ha
  cases h with
  | stay => exact ⟨rfl, a, rfl, hin⟩
  | inside _ _ b _ _ hb => exact ⟨rfl, b, rfl, hb⟩
  | give => rfl
  | enter _ _ _ _ _ _ _ hl | leave _ _ _ _ hl => simp [Act.locks] at hl
  | drop _ _ _ hn => exact absurd ((Act.isAccess_of_inAccess hin).symm.trans hn) (by decide)
  | load | opGive | init => cases hin

/-- `AccessHolds` of the thread whose turn it is and its instance, whose granularity is ACCESS. -/
structure State.AccessHolds (s : State) : Prop where
  lock : s.here.params.lock = .access
  holds : Machine.AccessHolds s.turn.tid s.here.mutex s.me.running s.me.seq

theorem State.AccessHolds.atomic (h : s.AccessHolds) : s.atomic.AccessHolds := by
  rcases s.atomic_moved with he | ⟨-, hr, -, hm⟩
  · rwa [he]
  · obtain ⟨hl, ho⟩ := h
    rw [hr] at ho
    rw [Moved, hl] at hm
    refine ⟨s.atomic_frame.params ▸ hl, ?_⟩
    rw [State.here_eq, s.atomic_frame.inst, s.atomic_frame.turn]
    exact hm.accessHolds ho

theorem State.AccessHolds.advance (h : s.AccessHolds) (n : Nat) : (s.advance n).AccessHolds := by
  induction n generalizing s with
  | zero => exact h
  | succ n ih => exact ih h.atomic

theorem State.AccessHolds.mutex (h : s.AccessHolds) :
    s.here.mutex = if s.me.running then some s.turn.tid else none := by
  have ho := h.holds
  unfold Machine.AccessHolds at ho
  split at ho
  · next hr => rw [if_pos hr, ho.1]
  · next hr => rw [if_neg hr, ho]

/-- The first step of a direct access takes the free mutex. -/
theorem State.accessHolds_enterAccess (hr : s.me.running = true) (hs : s.me.seq = [a])
    (hl : s.here.params.lock = .access) (hm : s.here.mutex = none) (hb : b.inAccess = true) :
    (s.enterAccess b).AccessHolds := by
  have he : s.enterAccess b = s.acquire fun s => s.beginAccess.goto b := by
    unfold State.enterAccess
    rw [State.params, hl]
  rw [he, State.acquire_free _ hm]
  simp only [State.here_eq] at hl
  exact ⟨by simp [State.beginAccess, State.goto, hl],
    by simp [Machine.AccessHolds, State.beginAccess, State.goto, hr, hs, hb]⟩

/-- A direct access: its one element, at its `Acquire`, enters the access. -/
theorem exec_access {i : Instr} (hi : (engineWrite i).isSome = true ∨ (engineRead i).isSome = true) (s : State) :
    ∃ ret a b, exec i s = s.engineCall ret [a] ∧ (∀ u : State, u.perform a = u.enterAccess b) ∧ b.inAccess = true := by
  rcases hi with hw | hr
  · obtain ⟨w, hw⟩ := Option.isSome_iff_exists.1 hw
    exact ⟨_, _, .write .send w.rs w.v w.width w.settle, engineWrite_exec hw s, fun _ => rfl, rfl⟩
  · obtain ⟨⟨rs, width⟩, hr⟩ := Option.isSome_iff_exists.1 hr
    exact ⟨_, _, .read .setupHi rs width, engineRead_exec hr s, fun _ => rfl, rfl⟩

end Sys2Proof.Machine

open Sys2Proof Sys2Proof.Machine

/-- Settles O39: the first step takes the mutex (`State.accessHolds_enterAccess`), and every further one keeps it or
gives it back and returns (`State.AccessHolds.atomic`). -/
theorem accessHoldsTheMutexThroughout : Obligations.AccessHoldsTheMutexThroughout := by
  unfold Obligations.AccessHoldsTheMutexThroughout
  intro s c i hi h hl hm hn
  obtain ⟨ret, a, b, he, hp, hb⟩ := exec_access hi s
  obtain ⟨n, hn⟩ := Nat.exists_eq_add_of_le' hn
  refine ⟨_, he.trans (h.engineCall ret [a]), ?_⟩
  have hfirst : (s.begin [a] ret).atomic.AccessHolds := by
    rw [State.atomic_head (s.begin [a] ret) h.fatal (by simp) (by simpa using h.hung) (State.seq_begin ..), hp]
    exact State.accessHolds_enterAccess (by simp) (State.seq_begin ..) (by rw [State.here_begin]; exact hl)
      (by rw [State.here_begin]; exact hm) hb
  have hmutex := (hfirst.advance n).mutex
  have hframe := State.advance_frame (n + 1) (s.begin [a] ret)
  rw [hn]
  rw [← State.advance_succ, State.here_eq, hframe.inst, hframe.turn, State.me_begin] at hmutex
  exact hmutex

end

section
/-! PROOFS. A call of several accesses in progress (42_controller.md R204 to R228; 41_bus_engine.md R160, R166): how far
it has come, said by one record, and what each of its elements adds to that record. -/

namespace Sys2Proof.Machine

variable {s u : State} {c : BusConfig} {ret : RetKind}

/-- An access leaves BL alone. -/
@[simp] theorem bl_writeImage (bl rs : Bool) (v : Byte) (width : Width) : (writeImage bl rs v width).bl = bl := rfl

/-- How far a call has come: the transport calls it has made and its events, the latch and the image it has left, and
the status and byte it received last. -/
structure Progress where
  calls : Nat
  events : List EventBody
  latch : Option Byte
  img : PortImage
  st : Status
  r : Byte

/-- Nothing done yet. -/
@[simp] def Progress.start (img : PortImage) : Progress :=
  { calls := 0, events := [], latch := none, img := img, st := .ok, r := 0#8 }

/-- A write access more, its transfer answered with `st`. -/
@[simp] def Progress.write (x : Progress) (p : Params) (c : BusConfig) (w : WriteOp) (st : Status) : Progress :=
  { x with
    calls := x.calls + 1
    events := x.events ++ writeEvents p c x.img.bl w.rs w.v w.width w.settle st
    latch := mirror p c (writeImage x.img.bl w.rs w.v w.width) st
    img := writeImage x.img.bl w.rs w.v w.width }

/-- A wait more. -/
@[simp] def Progress.sleep (x : Progress) (us : Nat) : Progress := { x with events := x.events ++ [.sleep us] }

/-- A read access in 4-bit mode more, with these captured bytes and the status of its idle write. -/
@[simp] def Progress.read (x : Progress) (p : Params) (c : BusConfig) (rs : Bool) (b1 b2 : Byte) (si : Status) :
    Progress :=
  { calls := x.calls + 5
    events := x.events ++ readEvents p c x.img.bl rs b1 b2 si .four
    latch := mirror p c (readImage x.img.bl rs false) si
    img := readImage x.img.bl rs false
    st := .ok
    r := readValue p b1 b2 .four }

/-- A read access in 4-bit mode more, aborted at its required transport call number `k`; `r` is what it had captured. -/
@[simp] def Progress.abort (x : Progress) (p : Params) (c : BusConfig) (rs : Bool) (b1 : Byte) (k : Nat) (r : Byte) :
    Progress :=
  { calls := x.calls + (k + 1)
    events := x.events ++ abortEvents p c x.img.bl rs b1 k
    latch := abortLatch p c x.img.bl rs k
    img := readImage x.img.bl rs true
    st := .fail
    r := r }

/-- The thread's record between two elements of its call, the sequence `acts` to come. -/
def Thread.between (th : Thread) (ret : RetKind) (x : Progress) (acts : List Act) : Thread :=
  { th.atRest with running := true, seq := acts, ret := ret, st := x.st, r := x.r }

/-- The state of a call that has come as far as `x`, the sequence `acts` to come. -/
def State.mid (s : State) (c : BusConfig) (ret : RetKind) (x : Progress) (acts : List Act) : State :=
  s.did c x.calls x.events x.latch { s.heldHere with img := x.img } (s.me.between ret x acts)

/-- `u` is a state of the call begun in `s` that has come as far as `x`, but for the latch, which a call with no
transport call behind it has not touched. -/
structure State.At (s : State) (c : BusConfig) (ret : RetKind) (x : Progress) (acts : List Act) (u : State) : Prop where
  clear : u.Clear c
  me : u.me = s.me.between ret x acts
  here : u.here = { s.heldHere with img := x.img }
  status : ∀ j, u.statusAt j = s.statusAt (x.calls + j)
  byte : ∀ j, u.byteAt j = s.byteAt (x.calls + j)
  did : ∀ m es l i th, u.did c m es l i th = s.did c (x.calls + m) (x.events ++ es) l i th

theorem State.heldHere_waiters (s : State) : s.heldHere.waiters = s.here.waiters := by
  unfold State.heldHere
  split <;> rfl

/-- Under ACCESS an operation in progress holds no mutex between its accesses. -/
theorem State.heldHere_mutex (hm : s.here.mutex = none) (hl : s.heldHere.params.lock = .access) :
    s.heldHere.mutex = none := by
  rw [State.heldHere_params, State.params] at hl
  rw [State.heldHere, hl]
  exact hm

/-- The `Release` of an operation leaves the mutex as it was before the `Acquire`. -/
theorem State.released_heldHere (hm : s.here.mutex = none) (img : PortImage) :
    { s.heldHere with img := img, mutex := none } = { s.here with img := img } := by
  simp only [State.here_eq] at hm
  unfold State.heldHere
  split <;> simp [hm]

theorem State.Starting.going (h : s.Starting c) (ret : RetKind) (x : Progress) (acts : List Act) :
    s.Going c { s.heldHere with img := x.img } (s.me.between ret x acts) where
  fatal := h.fatal
  running := rfl
  hung := h.hung
  inst := rfl
  cfg := (State.heldHere_cfg).trans h.cfg
  mutex := State.heldHere_mutex h.mutex
  waiters := by
    rw [show _ = s.here.waiters from s.heldHere_waiters]
    exact h.waiters

/-- Past the `Acquire` of an operation nothing has been done. -/
theorem State.Starting.at_entered (h : s.Starting c) (ret : RetKind) (acts : List Act) :
    s.At c ret (.start s.img) acts (s.entered acts ret) where
  clear := h.clear_entered acts ret
  me := State.me_entered ..
  here := by
    rw [State.here_eq, State.me_entered]
    refine (State.here_entered acts ret).trans ?_
    rw [Progress.start, ← State.heldHere_img]
  status j := by simp [Progress.start]
  byte j := by simp [Progress.start]
  did m es l i th := by simp [Progress.start]

theorem State.Starting.at_mid (h : s.Starting c) (ret : RetKind) (x : Progress) (acts : List Act) :
    s.At c ret x acts (s.mid c ret x acts) where
  clear := (h.going ret x acts).clear
  me := State.me_did
  here := by
    rw [State.here_eq, State.mid, State.me_did]
    exact State.inst_did_same
  status _ := State.statusAt_did _
  byte _ := State.byteAt_did _
  did _ _ _ _ _ := State.did_did rfl

namespace State.At

variable {x : Progress} {a : Act} {rest : List Act} {st : Status} {k : Nat} {rs : Bool}

theorem seq (h : s.At c ret x rest u) : u.me.seq = rest := by rw [h.me]; rfl

theorem params (h : s.At c ret x rest u) : u.params = s.params := by
  rw [State.params, h.here]
  exact State.heldHere_params

theorem img (h : s.At c ret x rest u) : u.img = x.img := by rw [State.img, h.here]

/-- A wait. -/
theorem sleep {us : Nat} (h : s.At c ret x (.sleep us :: a :: rest) u) :
    s.At c ret (x.sleep us) (a :: rest) (u.advance 1) := by
  have hadv : u.advance 1 = (u.recordAs u.turn.tid u.me.inst (.sleep us)).setMe (s.me.between ret x (a :: rest)) := by
    rw [State.advance_succ, State.advance_zero, u.atomic_head h.clear.fatal h.clear.running h.clear.hung h.seq,
      State.perform, State.sleep, State.record_eq, State.pop_more (a := a) (rest := rest)]
    · rw [State.me_recordAs, h.me]
      rfl
    · rw [State.me_recordAs, h.seq]
      rfl
  have hinst : u.me.inst = s.me.inst := by rw [h.me]; rfl
  obtain ⟨hf, -, hh, hc, hm, hw⟩ := h.clear
  have hhere : (u.advance 1).here = u.here := by
    rw [hadv, State.here_eq, State.me_setMe, State.here_eq, hinst]
    rfl
  rw [h.me] at hh
  refine ⟨⟨?_, ?_, ?_, hhere ▸ hc, hhere ▸ hm, ?_⟩, ?_, hhere.trans h.here, ?_, ?_, ?_⟩
  · rw [hadv]
    exact hf
  · rw [hadv, State.me_setMe]
    rfl
  · rw [hadv, State.me_setMe]
    exact hh
  · rw [hhere, hadv]
    exact hw
  · rw [hadv, State.me_setMe]
    rfl
  · rw [hadv]
    exact h.status
  · rw [hadv]
    exact h.byte
  · intro m es l i th
    rw [hadv, State.did_setMe (by rw [State.me_recordAs, hinst]; rfl), State.did_record, h.did, Progress.sleep,
      List.append_assoc, List.singleton_append]

/-- An access that ends with status `st'` and byte `r`, with more to come. -/
theorem pop_did {m : Nat} {es : List EventBody} {l : Option Byte} {img : PortImage} {st' : Status} {r : Byte}
    {b d : Act} (h : s.At c ret x (b :: a :: rest) u) :
    (u.did c m es l { u.here with img := img } { u.me.ended d with st := st', r := r }).pop =
      s.mid c ret ⟨x.calls + m, x.events ++ es, l, img, st', r⟩ (a :: rest) := by
  rw [State.pop_did_more (a := a) (rest := rest) (by simp [Thread.ended, h.seq]), h.did, h.here, h.me]
  rfl

/-- A write access. -/
theorem write {w : WriteOp} (h : s.At c ret x (.write .acq w.rs w.v w.width w.settle :: a :: rest) u)
    (hst : s.statusAt x.calls = some st) :
    u.advance 4 = s.mid c ret (x.write s.params c w st) (a :: rest) := by
  have hadv := State.advance_write h.clear h.seq ((h.status 0).trans hst)
  rw [h.params, h.img] at hadv
  have hend : u.me.ended (.write .rel w.rs w.v w.width w.settle) =
      { u.me.ended (.write .rel w.rs w.v w.width w.settle) with st := x.st, r := x.r } := by rw [h.me]; rfl
  rw [hadv, hend]
  exact h.pop_did

/-- A read access that succeeds. -/
theorem read (h : s.At c ret x (.read .acq rs .four :: a :: rest) u) (hr : s.reads x.calls .four st) :
    u.advance 8 =
      s.mid c ret (x.read s.params c rs (s.byteAt (x.calls + 1)) (s.byteAt (x.calls + 3)) st) (a :: rest) := by
  have hru : u.reads 0 .four st := by simpa [State.reads, h.status] using hr
  have hadv := State.advance_read h.clear h.seq hru
  rw [h.params, h.img, h.byte, h.byte] at hadv
  exact hadv.trans h.pop_did

/-- A read access that aborts. -/
theorem abort (h : s.At c ret x (.read .acq rs .four :: a :: rest) u) (hk : s.failsAt x.calls .four k) :
    ∃ r, u.advance (k + 3) = s.mid c ret (x.abort s.params c rs (s.byteAt (x.calls + 1)) k r) (a :: rest) := by
  have hku : u.failsAt 0 .four k := by simpa [State.failsAt, h.status] using hk
  obtain ⟨r, hadv⟩ := State.advance_abort h.clear h.seq hku
  rw [h.params, h.img, h.byte] at hadv
  exact ⟨r, hadv.trans h.pop_did⟩

end State.At

/-! ### A whole operation -/

/-- `n` free bytes have been drawn. -/
def State.popFrees (n : Nat) (s : State) : State := { s with env := { s.env with freeNo := s.env.freeNo + n } }

/-- No claim about a completed call speaks of the free bytes drawn. -/
theorem Did.of_popFrees {t : State} {i : Instance} {es : List EventBody} {l : Option Byte} {v : RetVal} {n : Nat}
    (h : Did (s.popFrees n) t c i es l v) : Did s t c i es l v :=
  ⟨h.inst, h.trace, h.latch, h.me, h.insts, h.threads, h.latches, h.mem, h.fatal, h.turn, h.turns⟩

/-- The `Release` of an operation, and its return. -/
theorem State.Starting.advance_last (h : s.Starting c) (x : Progress) :
    (s.mid c ret x [.opRel]).advance 1 = s.did c x.calls x.events x.latch { s.here with img := x.img }
      { s.me.atRest with rets := s.me.rets ++ [retValue ret x.st x.r] } := by
  have hg := h.going ret x [.opRel]
  rw [State.mid, State.advance_opRel hg.fatal hg.running hg.hung hg.inst rfl hg.mutex, State.released_heldHere h.mutex]
  rfl

theorem State.Starting.popFrees (h : s.Starting c) (n : Nat) : (s.popFrees n).Starting c :=
  ⟨h.fatal, h.hung, h.waiters, h.cfg, h.mutex⟩

/-- An operation in READY, from what its accesses come to between `Acquire` and `Release`, free bytes drawn or not. -/
theorem State.Free.operation_popFrees {a : Act} {acts : List Act} {n j : Nat} {x : Progress} (h : s.Free c)
    (hl : s.here.life = .ready) (hn : n + 2 ≤ s.turn.steps)
    (hs : (s.entered (a :: acts ++ [.opRel]) ret).advance n = (s.popFrees j).mid c ret x [.opRel]) :
    ∃ t, s.operation ret (a :: acts) = .next t ∧
      Did s t c { s.here with img := x.img } x.events x.latch (retValue ret x.st x.r) := by
  have hadv : (s.begin (.opAcq :: (a :: acts) ++ [.opRel]) ret).advance (1 + (n + 1)) =
      ((s.popFrees j).mid c ret x [.opRel]).advance 1 := by
    rw [State.advance_add, List.cons_append, List.cons_append, State.advance_opAcq h.starting, State.advance_add,
      ← List.cons_append, hs]
  rw [(h.starting.popFrees j).advance_last] at hadv
  rw [h.toBound.toCanCall.operation hl,
    State.advance_done (n := 1 + (n + 1)) (by omega) (by rw [hadv, State.me_did]; rfl), hadv]
  exact ⟨_, rfl, Did.of_popFrees (n := j) (.of_did rfl)⟩

/-- An operation in READY that loads no text. -/
theorem State.Free.operation_did {a : Act} {acts : List Act} {n : Nat} {x : Progress} (h : s.Free c)
    (hl : s.here.life = .ready) (hn : n + 2 ≤ s.turn.steps)
    (hs : (s.entered (a :: acts ++ [.opRel]) ret).advance n = s.mid c ret x [.opRel]) :
    ∃ t, s.operation ret (a :: acts) = .next t ∧
      Did s t c { s.here with img := x.img } x.events x.latch (retValue ret x.st x.r) :=
  h.operation_popFrees (j := 0) hl hn hs

/-- An operation in a life other than READY. -/
theorem State.CanCall.operation_notReady (h : s.CanCall) (hl : s.here.life ≠ .ready) (ret : RetKind) (acts : List Act) :
    s.operation ret acts = .next (s.raiseFatal .notReady) := by
  rw [State.operation, h.race, State.readyGuard, if_neg hl]
  rfl

/-- The return kind of a query forms what R226 to R228 say of a byte read, and of a failure. -/
theorem queryReturn_exec {i : Instr} {v : Option Byte} {ret : RetVal} (hi : queryReturn i v = some ret) (s : State) :
    ∃ kind, exec i s = s.operation kind [.read .acq false .four] ∧
      (∀ b, v = some b → retValue kind .ok b = ret) ∧ (v = none → ∀ b, retValue kind .fail b = ret) := by
  cases i <;> cases v <;> simp only [queryReturn, reduceCtorEq, Option.some.injEq] at hi <;> subst hi <;>
    exact ⟨_, rfl, by simp [retValue, onOk, busyFlag, addrCounter, getBit], by simp [retValue, onOk]⟩

end Sys2Proof.Machine

open Sys2Proof Sys2Proof.Machine

/-- Settles O18: one write access between `Acquire` and `Release` (`State.At.write`), or the guard. -/
theorem oneWriteOperationsComplete : Obligations.OneWriteOperationsComplete := by
  unfold Obligations.OneWriteOperationsComplete
  intro s i w hi hcan
  rw [hostWrite_exec hi]
  refine ⟨fun hl => hcan.operation_notReady hl _ _, fun c st hl h hn hst => ?_⟩
  have hacc := (h.starting.at_entered .nothing [.write .acq w.rs w.v w.width w.settle, .opRel]).write hst
  simpa [retValue] using h.operation_did (acts := []) hl hn hacc

/-- Settles O21: the positioning write, whatever its status, and the data read, which succeeds (`State.At.read`) or
aborts (`State.At.abort`). -/
theorem readDataCompletes : Obligations.ReadDataCompletes := by
  unfold Obligations.ReadDataCompletes
  intro s c ddram offset st hl h hn hst p bl v
  let w : WriteOp := { rs := false, v, width := .four, settle := .short }
  have hexec : exec (.readData ddram offset) s = s.operation .statusByte
      [.write .acq w.rs w.v w.width w.settle, .read .acq true .four] := by cases ddram <;> rfl
  have hpos := (h.starting.at_entered .statusByte
    [.write .acq w.rs w.v w.width w.settle, .read .acq true .four, .opRel]).write hst
  have hat := h.starting.at_mid .statusByte ((Progress.start s.img).write s.params c w st)
    [.read .acq true .four, .opRel]
  rw [hexec]
  refine ⟨fun si hr => ?_, fun k hk => ?_⟩
  · have hadv := hat.read hr
    rw [← hpos, ← State.advance_add] at hadv
    simpa [retValue, onOk, p, bl, v, w] using h.operation_did (acts := [_]) hl hn hadv
  · obtain ⟨r, hadv⟩ := hat.abort hk
    rw [← hpos, ← State.advance_add] at hadv
    have hlt : k < 4 := hk.1
    simpa [retValue, onOk, p, bl, v, w] using h.operation_did (acts := [_]) hl (by omega) hadv

/-- Settles O22: one status read between `Acquire` and `Release`, which succeeds or aborts. -/
theorem statusQueriesComplete : Obligations.StatusQueriesComplete := by
  unfold Obligations.StatusQueriesComplete
  intro s c i hl h hn p bl
  have hat kind := h.starting.at_entered kind [.read .acq false .four, .opRel]
  refine ⟨fun si ret hr hq => ?_, fun k ret hk hq => ?_⟩
  · obtain ⟨kind, he, hret, -⟩ := queryReturn_exec hq s
    rw [he, ← hret _ rfl]
    simpa [p, bl] using h.operation_did (acts := []) hl hn ((hat kind).read hr)
  · obtain ⟨kind, he, -, hret⟩ := queryReturn_exec hq s
    obtain ⟨r, hadv⟩ := (hat kind).abort hk
    have hlt : k < 4 := hk.1
    rw [he, ← hret rfl r]
    simpa [p, bl] using h.operation_did (acts := []) hl (by omega) hadv

end

section
/-! PROOFS. The text runs of `updatePattern` and `drawText` (42_controller.md R217, R222; log 9): a data write for each
byte of a text or pattern, a byte beyond the buffer a free value. -/

namespace Sys2Proof.Machine

variable {s : State} {c : BusConfig} {ret : RetKind} {x : Progress} {buf : Buffer} {st : Nat → Status} {n : Nat}

/-- The write access that sends byte `k` of a text or pattern. -/
def State.textWrite (s : State) (buf : Buffer) (k : Nat) : WriteOp :=
  { rs := true, v := s.textByte buf k, width := .four, settle := .short }

/-- The first `n` bytes of a text or pattern written, their transfers answered with `st`. -/
def Progress.text (x : Progress) (s : State) (c : BusConfig) (buf : Buffer) (st : Nat → Status) : Nat → Progress
  | 0 => x
  | n + 1 => (x.text s c buf st n).write s.params c (s.textWrite buf n) (st n)

theorem Progress.calls_text (n : Nat) : (x.text s c buf st n).calls = x.calls + n := by
  induction n with
  | zero => rfl
  | succ n ih => rw [Progress.text, Progress.write, ih, Nat.add_assoc]

theorem Progress.img_text (hb : x.img.bl = s.img.bl) (n : Nat) : (x.text s c buf st n).img.bl = s.img.bl ∧
    (x.text s c buf st n).img = textImage s buf x.img n := by
  induction n with
  | zero => exact ⟨hb, rfl⟩
  | succ n ih =>
    refine ⟨ih.1, ?_⟩
    rw [Progress.text, Progress.write, textImage, ih.1]
    rfl

theorem textEvents_succ (n : Nat) : textEvents s c buf st (n + 1) = textEvents s c buf st n ++
    writeEvents s.params c s.img.bl true (s.textByte buf n) .four .short (st n) := by
  simp [textEvents, List.range_succ]

theorem Progress.events_text (hb : x.img.bl = s.img.bl) (n : Nat) :
    (x.text s c buf st n).events = x.events ++ textEvents s c buf st n := by
  induction n with
  | zero => exact (List.append_nil _).symm
  | succ n ih =>
    rw [Progress.text, Progress.write, ih, (Progress.img_text hb n).1, textEvents_succ, ← List.append_assoc]
    rfl

/-- The latch mirrors the last image sent, whether any byte was written or not. -/
theorem Progress.latch_text (hb : x.img.bl = s.img.bl) (hl : x.latch = mirror s.params c x.img (st 0)) (n : Nat) :
    (x.text s c buf (fun j => st (j + 1)) n).latch = mirror s.params c (textImage s buf x.img n) (st n) := by
  cases n with
  | zero => exact hl
  | succ n =>
    rw [Progress.text, Progress.write, (Progress.img_text hb n).1]
    rfl

theorem Progress.ret_text (n : Nat) : (x.text s c buf st n).st = x.st ∧ (x.text s c buf st n).r = x.r := by
  induction n with
  | zero => exact ⟨rfl, rfl⟩
  | succ n ih => exact ih

/-- After `k` bytes the free bytes drawn are those beyond the buffer. -/
theorem State.loadByte_mid (s : State) (buf : Buffer) (k : Nat) (acts : List Act) :
    ((s.popFrees (k - buf.size)).mid c ret x acts).loadByte buf k = s.textByte buf k := rfl

theorem State.popFree_mid (s : State) (k : Nat) (acts : List Act) :
    ((s.popFrees k).mid c ret x acts).popFree = (s.popFrees (k + 1)).mid c ret x acts := rfl

/-- The byte is read, and drawn where it stands beyond the buffer. -/
theorem State.Starting.mid_load (h : s.Starting c) (k : Nat) (rest : List Act) :
    ((s.popFrees (k - buf.size)).mid c ret x (.load buf k :: rest)).advance 1 =
      (s.popFrees (k + 1 - buf.size)).mid c ret x (.write .acq true (s.textByte buf k) .four .short :: rest) := by
  have hat := (h.popFrees (k - buf.size)).at_mid ret x (.load buf k :: rest)
  have hadv := State.advance_load hat.clear.fatal hat.clear.running hat.clear.hung hat.seq
  rw [hat.me, s.loadByte_mid] at hadv
  rw [hadv]
  by_cases hk : k < buf.size
  · rw [if_pos hk, Nat.sub_eq_zero_of_le hk.le, Nat.sub_eq_zero_of_le hk, State.mid, State.setMe_did]
    rfl
  · rw [if_neg hk, State.popFree_mid, ← Nat.sub_add_comm (Nat.le_of_not_lt hk)]
    exact State.setMe_did ..

/-- The first `k` bytes of a text, one load and one write access each. -/
theorem State.Starting.advance_text (h : s.Starting c) (hst : ∀ k, k < n → s.statusAt (x.calls + k) = some (st k))
    {k : Nat} (hk : k ≤ n) :
    (s.mid c ret x ((List.range n).map (Act.load buf) ++ [.opRel])).advance (5 * k) =
      (s.popFrees (k - buf.size)).mid c ret (x.text s c buf st k)
        (((List.range n).map (Act.load buf)).drop k ++ [.opRel]) := by
  induction k with
  | zero => rw [Nat.zero_sub]; rfl
  | succ k ih =>
    have hdrop : ((List.range n).map (Act.load buf)).drop k =
        .load buf k :: ((List.range n).map (Act.load buf)).drop (k + 1) := by
      rw [List.drop_eq_getElem_cons (by simpa using hk)]
      simp
    obtain ⟨a, rest, hrest⟩ := List.exists_cons_of_ne_nil
      (l := ((List.range n).map (Act.load buf)).drop (k + 1) ++ [.opRel]) (by simp)
    rw [Nat.mul_succ, State.advance_add, ih (by omega), hdrop, List.cons_append, hrest,
      State.advance_add (m := 1) (n := 4), h.mid_load]
    have hat := (h.popFrees (k + 1 - buf.size)).at_mid ret (x.text s c buf st k)
      (.write .acq true (s.textByte buf k) .four .short :: a :: rest)
    exact hat.write (w := s.textWrite buf k) (by rw [Progress.calls_text]; exact hst k hk)

/-- An operation of one instruction write and `n` bytes of a text. -/
theorem State.Free.text_did {v : Byte} (h : s.Free c) (hl : s.here.life = .ready) (hn : 6 + 5 * n ≤ s.turn.steps)
    (hst : ∀ j, j < n + 1 → s.statusAt j = some (st j)) :
    let img := textImage s buf (writeImage s.img.bl false v .four) n
    ∃ t, s.operation ret (instrAct v .short :: (List.range n).map (Act.load buf)) = .next t ∧
      Did s t c { s.here with img := img }
        (writeEvents s.params c s.img.bl false v .four .short (st 0) ++ textEvents s c buf (fun j => st (j + 1)) n)
        (mirror s.params c img (st n)) (retValue ret .ok 0#8) := by
  intro img
  let x := (Progress.start s.img).write s.params c { rs := false, v, width := .four, settle := .short } (st 0)
  have hb : x.img.bl = s.img.bl := rfl
  obtain ⟨a, rest, hrest⟩ := List.exists_cons_of_ne_nil (l := (List.range n).map (Act.load buf) ++ [.opRel]) (by simp)
  have hpos : (s.entered (instrAct v .short :: (List.range n).map (Act.load buf) ++ [.opRel]) ret).advance 4 =
      s.mid c ret x ((List.range n).map (Act.load buf) ++ [.opRel]) := by
    have hat := h.starting.at_entered ret (instrAct v .short :: a :: rest)
    rw [List.cons_append, hrest]
    exact hat.write (w := { rs := false, v, width := .four, settle := .short }) (hst 0 (by omega))
  have hadv := h.starting.advance_text (ret := ret) (x := x) (buf := buf) (st := fun j => st (j + 1)) (n := n)
    (fun k hk => by rw [show x.calls + k = k + 1 from Nat.add_comm 1 k]; exact hst _ (by omega)) le_rfl
  rw [← hpos, ← State.advance_add, List.drop_eq_nil_of_le (by simp), List.nil_append] at hadv
  have hdid := h.operation_popFrees hl (by omega) hadv
  rw [(Progress.img_text hb n).2, Progress.events_text hb, Progress.latch_text hb rfl, (Progress.ret_text n).1,
    (Progress.ret_text n).2] at hdid
  exact hdid

end Sys2Proof.Machine

open Sys2Proof Sys2Proof.Machine

/-- Settles O19: a text run of eight bytes. -/
theorem updatePatternCompletes : Obligations.UpdatePatternCompletes := by
  unfold Obligations.UpdatePatternCompletes
  intro s c slot pattern st hl h hn hst
  exact h.text_did hl hn hst

/-- Settles O20: a text run of the lesser of `MAX_LINE` and `len` bytes. -/
theorem drawTextCompletes : Obligations.DrawTextCompletes := by
  unfold Obligations.DrawTextCompletes
  intro s c row col text len st hl h n hn hst
  exact h.text_did hl hn hst

end

section
/-! PROOFS. The lifecycle calls as a whole (42_controller.md R201 to R211): `init`, the bring-up of `start` with its
poll, and `stop`. -/

namespace Sys2Proof.Machine

variable {s u : State} {c : BusConfig} {ret : RetKind} {i : Instr} {x : Progress}

/-! ### The beginning of a lifecycle call -/

theorem State.CanCall.firstFailing_lifecycle (h : s.CanCall) (ho : s.otherInside s.me.inst = false)
    (hl : isLifecycle i = true) : s.firstFailing i =
      (lifeGuard s.here.life i).or (if needsConfig i = true then s.configGuard else none) := by
  rw [s.firstFailing_eq, hl, h.race_lifecycle ho, Option.none_or]

theorem State.CanCall.firstFailing_start (h : s.CanCall) (ho : s.otherInside s.me.inst = false)
    (hl : s.here.life ≠ .uninit) : s.firstFailing (.start c) = none := by
  rw [h.firstFailing_lifecycle ho rfl, lifeGuard, if_neg hl]
  rfl

theorem State.Bound.firstFailing_stop (h : s.Bound c) (ho : s.otherInside s.me.inst = false)
    (hl : s.here.life ≠ .uninit) : s.firstFailing .stop = none := by
  rw [h.toCanCall.firstFailing_lifecycle ho rfl, lifeGuard, if_neg hl, h.config]
  rfl

/-- `start` past its guards. -/
theorem exec_start (h : s.firstFailing (.start c) = none) :
    exec (.start c) s = .next (((s.setup (.start c)).begin (bringUp s.params) .nothing).advance s.turn.steps) := by
  rw [s.firstFailing_unconfigured rfl] at h
  exact State.call_of_guard (s := s) h (fun s => s.claim (some c)) .nothing (bringUp s.params)

/-- The display-off write of `stop`. -/
def displayOff (p : Params) : WriteOp := { rs := false, v := p.cmd.display, width := .four, settle := .short }

/-- The sequence of `stop` after its `Acquire`. -/
def stopActs (p : Params) : List Act :=
  [ .write .acq (displayOff p).rs (displayOff p).v (displayOff p).width (displayOff p).settle,
    .opRel, .blSet false, .setStop ]

theorem cmdDisplay_off (m : CmdSet) : cmdDisplay m false false false = m.display := by simp [cmdDisplay, bitAt]

/-- `stop` past its guards. -/
theorem exec_stop (h : s.firstFailing .stop = none) :
    exec .stop s = .next (((s.setup .stop).begin (.opAcq :: stopActs s.params) .nothing).advance s.turn.steps) := by
  rw [s.firstFailing_eq] at h
  rw [stopActs, displayOff, ← cmdDisplay_off]
  exact State.call_of_guard (s := s) h (fun s => s.claim s.here.cfg) .nothing
    [.opAcq, .write .acq false (cmdDisplay s.params.cmd false false false) .four .short, .opRel, .blSet false, .setStop]

/-- A lifecycle call, its marker set, begins as an operation does. -/
theorem State.CanCall.starting_setup (h : s.CanCall) (hl : isLifecycle i = true) (hc : s.claimed i = some c)
    (hm : s.here.mutex = none) : (s.setup i).Starting c := by
  have hf := Frame.setup s i
  have hi : (s.setup i).here = { s.inst s.me.inst with cfg := s.claimed i, lcBusy := some s.turn.tid } := by
    rw [State.here_eq, hf.inst, State.here_setup_lifecycle hl]
  have hset : s.setup i = s.claim (s.claimed i) := by rw [State.setup_eq, if_pos hl]
  refine ⟨?_, ?_, ?_, ?_, ?_⟩
  · rw [hset]
    exact h.fatal
  · rw [hset]
    exact h.hung
  · rw [hi, hf.turn]
    exact h.waiters
  · rw [hi]
    exact hc
  · rw [hi]
    exact hm

/-- What a lifecycle call did since its marker was set it did since it was called. -/
theorem State.did_setup {m : Nat} {es : List EventBody} {l : Option Byte} {j : Instance} {th : Thread} (s : State)
    (i : Instr) : (s.setup i).did c m es l j th = s.did c m es l j th := by
  rw [State.setup_eq]
  split
  · exact State.did_setInst _
  · rfl

theorem State.me_setup (s : State) (i : Instr) : (s.setup i).me = s.me := by
  rw [State.setup_eq]
  split <;> rfl

theorem State.turn_setup (s : State) (i : Instr) : (s.setup i).turn = s.turn := (Frame.setup s i).turn

theorem State.statusAt_setup (s : State) (i : Instr) (j : Nat) : (s.setup i).statusAt j = s.statusAt j := by
  rw [State.setup_eq]
  split <;> rfl

theorem State.byteAt_setup (s : State) (i : Instr) (j : Nat) : (s.setup i).byteAt j = s.byteAt j := by
  rw [State.setup_eq]
  split <;> rfl

theorem State.reads_setup {n : Nat} {width : Width} {si : Status} (s : State) (i : Instr) :
    (s.setup i).reads n width si ↔ s.reads n width si := by
  simp only [State.reads, s.statusAt_setup]

theorem State.failsAt_setup {n k : Nat} {width : Width} (s : State) (i : Instr) :
    (s.setup i).failsAt n width k ↔ s.failsAt n width k := by
  simp only [State.failsAt, s.statusAt_setup]

/-- The record a lifecycle call leaves when it has cleared its marker. -/
theorem State.here_setup_cleared (hl : isLifecycle i = true) (img : PortImage) (life : Life) :
    { (s.setup i).here with img := img, life := life, lcBusy := none } =
      { s.here with img := img, life := life, cfg := s.claimed i, lcBusy := none } := by
  rw [State.here_eq, State.me_setup, State.here_setup_lifecycle hl]
  rfl

theorem State.params_setup (s : State) (i : Instr) : (s.setup i).params = s.params := (Frame.setup s i).params

theorem State.img_setup (s : State) (i : Instr) : (s.setup i).img = s.img := by
  rw [State.img, State.here_eq, State.me_setup]
  cases hl : isLifecycle i with
  | true => rw [State.here_setup_lifecycle hl]; rfl
  | false => rw [State.setup_of_not_lifecycle hl]; rfl

/-! ### init -/

/-- Only the instance's record written, and the call returned. -/
theorem Did.of_setHere (s : State) (c : BusConfig) (j : Instance) (v : RetVal) :
    Did s ((s.setHere j).setMe (s.me.returned v)) c j [] (s.latchOf c.dev) v where
  inst := State.inst_setInst_same ..
  trace := by simp
  latch := rfl
  me := State.me_setMe ..
  insts k hk := by rw [State.inst_setMe, State.setHere_eq, State.inst_setInst, if_neg hk]
  threads t ht := by rw [State.thread_setMe]; exact if_neg ht
  latches _ _ := rfl
  mem _ := rfl
  fatal := rfl
  turn := rfl
  turns := rfl

/-! ### The bring-up -/

/-- The bring-up up to its poll, its command bytes written out. -/
def bringUpLead (p : Params) : List Act :=
  [ .sleep p.tPower,
    .write .acq false (p.cmd.function ||| 0x10#8) .eight .short,
    .sleep p.tFs1,
    .write .acq false (p.cmd.function ||| 0x10#8) .eight .short,
    .sleep p.tFs2,
    .write .acq false (p.cmd.function ||| 0x10#8) .eight .short,
    .write .acq false p.cmd.function .eight .short,
    .write .acq false (p.cmd.function ||| 0x08#8) .four .short,
    .write .acq false p.cmd.display .four .short,
    .write .acq false p.cmd.clear .four .clear,
    .write .acq false (p.cmd.entry ||| 0x02#8) .four .short,
    .write .acq false p.cmd.home .four .home ]

/-- The display-on write after the poll. -/
def displayOn (p : Params) : WriteOp :=
  { rs := false, v := p.cmd.display ||| 0x04#8, width := .four, settle := .short }

/-- The bring-up after its poll. -/
def bringUpTail (p : Params) : List Act :=
  [.write .acq (displayOn p).rs (displayOn p).v (displayOn p).width (displayOn p).settle, .opRel, .setReady]

theorem bringUp_eq (p : Params) :
    bringUp p = .opAcq :: (bringUpLead p ++ .read .acq false .four :: bringUpTail p) := by
  simp [bringUp, bringUpLead, bringUpTail, displayOn, cmdFunction, cmdDisplay, cmdEntry, bitAt]

/-- Whether an element is a write access to begin or a wait. -/
def Act.leads : Act → Bool
  | .write pos _ _ _ _ => decide (pos = .acq)
  | .sleep _ => true
  | _ => false

/-- The atomic steps of such an element. -/
def Act.leadSteps : Act → Nat
  | .write _ _ _ _ _ => 4
  | _ => 1

/-- What such an element adds, the transport call number `j` answered with `st j`. -/
def Progress.lead (p : Params) (c : BusConfig) (st : Nat → Status) (x : Progress) : Act → Progress
  | .write _ rs v width settle => x.write p c { rs, v, width, settle } (st x.calls)
  | .sleep us => x.sleep us
  | _ => x

/-- A run of write accesses and waits, with more to come. -/
theorem State.At.lead {acts rest : List Act} {a : Act} {st : Nat → Status} {n : Nat} (hs : s.Starting c)
    (ha : acts.all Act.leads = true) (h : s.At c ret x (acts ++ a :: rest) u)
    (hst : ∀ j, j < n → s.statusAt j = some (st j)) (hn : x.calls + acts.countP Act.isAccess ≤ n) :
    s.At c ret (acts.foldl (Progress.lead s.params c st) x) (a :: rest) (u.advance (acts.map Act.leadSteps).sum) := by
  induction acts generalizing x u with
  | nil => exact h
  | cons b acts ih =>
    rw [List.all_cons, Bool.and_eq_true] at ha
    obtain ⟨hb, ha⟩ := ha
    obtain ⟨d, more, hmore⟩ := List.exists_cons_of_ne_nil (l := acts ++ a :: rest) (by simp)
    rw [List.cons_append, hmore] at h
    rw [List.map_cons, List.sum_cons, State.advance_add, List.foldl_cons]
    cases b with
    | write pos rs v width settle =>
      obtain rfl : pos = .acq := by simpa [Act.leads] using hb
      simp only [List.countP_cons, Act.isAccess, if_true] at hn
      rw [Act.leadSteps, h.write (w := { rs, v, width, settle }) (hst x.calls (by omega)), ← hmore]
      exact ih ha (hs.at_mid ..) (Nat.add_right_comm x.calls 1 _ ▸ hn)
    | sleep us =>
      have hn : x.calls + acts.countP Act.isAccess ≤ n := hn
      have hat := h.sleep
      rw [← hmore] at hat
      exact ih ha hat hn
    | _ => cases hb

/-- The `Release` of a lifecycle call, with more to come. -/
theorem State.Starting.mid_opRel {a : Act} {rest : List Act} (h : s.Starting c) :
    (s.mid c ret x (.opRel :: a :: rest)).advance 1 = s.did c x.calls x.events x.latch { s.here with img := x.img }
      (s.me.between ret x (a :: rest)) := by
  rw [State.mid, State.did_opRel (h.going ret x _) rfl, State.released_heldHere h.mutex]
  rfl

/-- After the `Release` the next element can begin. -/
theorem State.Starting.going_released (h : s.Starting c) (ret : RetKind) (x : Progress) (acts : List Act) :
    s.Going c { s.here with img := x.img } (s.me.between ret x acts) :=
  ⟨h.fatal, rfl, h.hung, rfl, h.cfg, fun _ => h.mutex, h.waiters⟩

/-- The end of `start`. -/
theorem State.Starting.mid_setReady (h : s.Starting c) :
    (s.mid c .nothing x [.opRel, .setReady]).advance 2 = s.did c x.calls x.events x.latch
      { s.here with img := x.img, life := .ready, lcBusy := none } (s.me.returned .nothing) := by
  rw [State.advance_add (m := 1) (n := 1), h.mid_opRel, State.did_setReady (h.going_released ..) rfl]
  rfl

/-- How far the bring-up has come before its poll. -/
def leadProgress (p : Params) (c : BusConfig) (st : Nat → Status) (img : PortImage) : Progress :=
  (bringUpLead p).foldl (Progress.lead p c st) (.start img)

/-- The bring-up has come to its poll. -/
theorem State.Starting.at_poll {st : Nat → Status} (h : s.Starting c) (hst : ∀ j, j < 9 → s.statusAt j = some (st j)) :
    s.At c .nothing (leadProgress s.params c st s.img) (.read .acq false .four :: bringUpTail s.params)
      ((s.begin (bringUp s.params) .nothing).advance 40) := by
  have hsteps : ((bringUpLead s.params).map Act.leadSteps).sum = 39 := rfl
  have hopAcq : (s.begin (bringUp s.params) .nothing).advance 1 =
      s.entered (bringUpLead s.params ++ .read .acq false .four :: bringUpTail s.params) .nothing := by
    rw [bringUp_eq]
    exact State.advance_opAcq h
  rw [State.advance_add (m := 1) (n := 39), hopAcq, ← hsteps]
  exact (h.at_entered ..).lead h (by rfl) hst (by rfl)

/-- A lifecycle call that clears its marker and returns, from what its steps come to. -/
theorem State.lifecycle_did {acts : List Act} {m n : Nat} {es : List EventBody} {l : Option Byte} {img : PortImage}
    {life : Life} (hi : isLifecycle i = true) (hn : n ≤ s.turn.steps)
    (he : exec i s = .next (((s.setup i).begin acts .nothing).advance s.turn.steps))
    (hadv : ((s.setup i).begin acts .nothing).advance n = (s.setup i).did c m es l
      { (s.setup i).here with img := img, life := life, lcBusy := none } ((s.setup i).me.returned .nothing)) :
    ∃ t, exec i s = .next t ∧
      Did s t c { s.here with img := img, life := life, cfg := s.claimed i, lcBusy := none } es l .nothing := by
  rw [s.did_setup, s.me_setup, State.here_setup_cleared hi] at hadv
  rw [he, State.advance_done hn (by rw [hadv, State.me_did]; rfl), hadv]
  exact ⟨_, rfl, .of_did rfl⟩

/-- `start` comes to its poll. -/
theorem State.CanCall.at_poll {st : Nat → Status} (h : s.CanCall) (hm : s.here.mutex = none)
    (hst : ∀ j, j < 9 → s.statusAt j = some (st j)) :
    (s.setup (.start c)).At c .nothing (leadProgress s.params c st s.img)
      (.read .acq false .four :: bringUpTail s.params)
      (((s.setup (.start c)).begin (bringUp s.params) .nothing).advance 40) := by
  have hat := (h.starting_setup (i := .start c) rfl rfl hm).at_poll fun j hj => (s.statusAt_setup _ j).trans (hst j hj)
  rwa [s.params_setup, s.img_setup] at hat

/-- The whole of `start`, from what its poll comes to. -/
theorem State.CanCall.start_did {st : Status} {n : Nat} (h : s.CanCall)
    (ho : s.otherInside s.me.inst = false) (hl : s.here.life ≠ .uninit) (hm : s.here.mutex = none)
    (hn : n + 46 ≤ s.turn.steps)
    (hpoll : (((s.setup (.start c)).begin (bringUp s.params) .nothing).advance 40).advance n =
      (s.setup (.start c)).mid c .nothing x (bringUpTail s.params))
    (hon : s.statusAt x.calls = some st) :
    let y := x.write s.params c (displayOn s.params) st
    ∃ t, exec (.start c) s = .next t ∧
      Did s t c { s.here with img := y.img, life := .ready, cfg := some c, lcBusy := none } y.events y.latch
        .nothing := by
  intro y
  have hs := h.starting_setup (i := .start c) rfl rfl hm
  have hend := (hs.at_mid .nothing x (bringUpTail s.params)).write ((s.statusAt_setup _ _).trans hon)
  have hadv := hs.mid_setReady (x := y)
  rw [s.params_setup] at hend
  rw [← hend, ← hpoll, ← State.advance_add, ← State.advance_add, ← State.advance_add] at hadv
  exact State.lifecycle_did rfl (by omega) (exec_start (h.firstFailing_start ho hl)) hadv

theorem bringUpEvents_eq (p : Params) (c : BusConfig) (st : Nat → Status) (img : PortImage) (poll : List EventBody) :
    bringUpEvents p c img.bl st poll = (leadProgress p c st img).events ++ poll ++
      writeEvents p c img.bl false (p.cmd.display ||| 0x04#8) .four .short (st 9) := rfl

/-! ### A poll that does not hang -/

/-- The status of a transfer that is answered. -/
def State.answerAt (s : State) (j : Nat) : Status := (s.statusAt j).getD .ok

theorem State.statusAt_answerAt {j : Nat} (h : s.statusAt j ≠ none) : s.statusAt j = some (s.answerAt j) := by
  rw [State.answerAt]
  cases hs : s.statusAt j with
  | none => exact absurd hs h
  | some st => rfl

/-- A read whose transfers are all answered succeeds, or a first one of them fails. -/
theorem State.reads_or_failsAt {n : Nat} (width : Width) (h : ∀ j, j ≤ readCalls width → s.statusAt (n + j) ≠ none) :
    s.reads n width (s.answerAt (n + readCalls width)) ∨ ∃ k, s.failsAt n width k := by
  by_cases hok : ∀ j, j < readCalls width → s.statusAt (n + j) = some .ok
  · exact .inl ⟨hok, State.statusAt_answerAt (h _ le_rfl)⟩
  · have hex : ∃ k, k < readCalls width ∧ s.statusAt (n + k) ≠ some .ok := by simpa using hok
    obtain ⟨hlt, hne⟩ := Nat.find_spec hex
    refine .inr ⟨Nat.find hex, hlt, fun j hj => ?_, ?_⟩
    · simpa [hj.trans hlt] using Nat.find_min hex hj
    · rw [State.statusAt_answerAt (h _ hlt.le)] at hne ⊢
      cases hst : s.answerAt (n + Nat.find hex) with
      | ok => exact absurd (by rw [hst]) hne
      | fail => rfl

/-! ### stop -/

/-- A lifecycle call, alone on its instance, overlaps no access. -/
theorem State.noOverlap_of_otherInside (h : s.otherInside s.me.inst = false) : s.noOverlap := by
  rw [State.noOverlap_iff]
  intro e he hne
  have := List.any_eq_false.1 h e he
  rw [Thread.inAccess]
  simp_all

/-- A backlight write in a call with more to come. -/
theorem State.did_blSet {j : Instance} {th : Thread} {m : Nat} {es : List EventBody} {l : Option Byte} {on : Bool}
    {a : Act} {rest : List Act} {st : Status} (h : s.Going c j th) (hs : th.seq = .blSet on :: a :: rest)
    (hov : s.noOverlap) (hst : s.statusAt m = some st) :
    (s.did c m es l j th).advance 1 =
      s.did c (m + 1) (es ++ [.wr c.dev (sent j.params c [{ j.img with bl := on }]) st])
        (mirror j.params c { j.img with bl := on } st) { j with img := { j.img with bl := on } }
        { th with seq := a :: rest } := by
  have hclear := h.clear (n := m) (es := es) (l := l)
  have hhere : (s.did c m es l j th).here = j := by simp [h.inst]
  rw [State.advance_succ, State.advance_zero, State.atomic_head _ hclear.fatal hclear.running hclear.hung
    (by rw [State.me_did, hs]), State.perform,
    State.blWriteStep_done (State.noOverlap_did hov h.inst) hclear.cfg ((State.statusAt_did 0).trans hst),
    State.did_did h.inst, State.me_did, State.pop_did_more (by rw [hs]; rfl), State.params,
    State.img, hhere]

/-- The end of `stop`. -/
theorem State.Starting.mid_setStop {st : Status} (h : s.Starting c) (hov : s.noOverlap)
    (hst : s.statusAt x.calls = some st) :
    let img := { x.img with bl := false }
    (s.mid c .nothing x [.opRel, .blSet false, .setStop]).advance 3 =
      s.did c (x.calls + 1) (x.events ++ [.wr c.dev (sent s.params c [img]) st]) (mirror s.params c img st)
        { s.here with img := img, life := .stop, lcBusy := none } (s.me.returned .nothing) := by
  intro img
  rw [State.advance_add (m := 1) (n := 2), h.mid_opRel, State.advance_add (m := 1) (n := 1)]
  have hbl := State.did_blSet (es := x.events) (l := x.latch) (h.going_released .nothing x [.blSet false, .setStop]) rfl
    hov hst
  exact (congrArg (State.advance 1) hbl).trans
    (State.did_setStop (h.going_released .nothing { x with img := img } [.setStop]) rfl)

end Sys2Proof.Machine

open Sys2Proof Sys2Proof.Machine

/-- Settles O15: the poll of the bring-up is a status read that succeeds (`State.At.read`) or aborts
(`State.At.abort`). -/
theorem startPerformsTheBringUp : Obligations.StartPerformsTheBringUp := by
  unfold Obligations.StartPerformsTheBringUp
  intro s c st h ho hl hm hn hst p bl last inst
  have hat := h.at_poll (c := c) hm hst
  have hevents := bringUpEvents_eq p c st s.img
  refine ⟨fun si hr hon => ?_, fun k hk hon => ?_⟩
  · have hpoll := hat.read ((s.reads_setup _).2 hr)
    rw [s.params_setup, s.byteAt_setup, s.byteAt_setup] at hpoll
    have hdid := h.start_did (st := st 9) ho hl hm hn hpoll hon
    rw [hevents]
    exact hdid
  · obtain ⟨r, hpoll⟩ := hat.abort ((s.failsAt_setup _).2 hk)
    rw [s.params_setup, s.byteAt_setup] at hpoll
    have hlt : k < 4 := hk.1
    rw [show 10 + k = 9 + (k + 1) by omega] at hon
    have hdid := h.start_did (st := st 9) ho hl hm (by omega) hpoll hon
    rw [hevents]
    exact hdid

/-- Settles O16: in between by `lifecycleCallsAreMarkedThroughout`; at the end the bring-up is complete, its poll
succeeding or aborting (`State.reads_or_failsAt`). -/
theorem startEndsReady : Obligations.StartEndsReady := by
  unfold Obligations.StartEndsReady
  intro s c h ho hl hm
  obtain ⟨t, he, hbusy, hlife, hcfg, -⟩ :=
    lifecycleCallsAreMarkedThroughout s (.start c) rfl (h.firstFailing_start ho hl)
  refine ⟨t, he, hcfg c rfl, fun hr => ⟨hlife hr, by rw [hbusy, if_pos hr]⟩, fun hn hans => ?_⟩
  have hst (last : Status) (j : Nat) (hj : j < 9) :
      s.statusAt j = some (Function.update s.answerAt 9 last j) := by
    rw [Function.update_of_ne hj.ne]
    exact State.statusAt_answerAt (hans j (by omega))
  have hon {j : Nat} (hj : j < 15) : s.statusAt j = some (Function.update s.answerAt 9 (s.answerAt j) 9) := by
    rw [Function.update_self]
    exact State.statusAt_answerAt (hans j hj)
  have hdone : ∃ img es l, ∃ u, exec (.start c) s = .next u ∧
      Did s u c { s.here with img := img, life := .ready, cfg := some c, lcBusy := none } es l .nothing := by
    rcases State.reads_or_failsAt (n := 9) .four fun j hj => hans _ (by simp [readCalls] at hj; omega) with hr | ⟨k, hk⟩
    · exact ⟨_, _, _, (startPerformsTheBringUp s c _ h ho hl hm hn (hst _)).1 _ hr (hon (by decide))⟩
    · have hlt : k < 4 := hk.1
      exact ⟨_, _, _, (startPerformsTheBringUp s c _ h ho hl hm hn (hst _)).2 k hk (hon (by omega))⟩
  obtain ⟨img, es, l, u, heu, hdid⟩ := hdone
  obtain rfl := Host.Outcome.next.inj (he.symm.trans heu)
  rw [hdid.me, hdid.inst, hdid.fatal]
  exact ⟨rfl, h.fatal, rfl, rfl⟩

/-- Settles O17: one write access, the `Release`, and the backlight write. -/
theorem stopCompletes : Obligations.StopCompletes := by
  unfold Obligations.StopCompletes
  intro s c st0 st1 h ho hl hn hst0 hst1 p img
  have hs := h.toCanCall.starting_setup (i := .stop) rfl h.cfg h.mutex
  have hov : (s.setup .stop).noOverlap := State.noOverlap_of_otherInside ho
  have hopAcq : ((s.setup .stop).begin (.opAcq :: stopActs p) .nothing).advance 1 =
      (s.setup .stop).entered (stopActs p) .nothing := State.advance_opAcq hs
  have hoff := (hs.at_entered .nothing (stopActs p)).write ((s.statusAt_setup _ 0).trans hst0)
  rw [s.params_setup, s.img_setup] at hoff
  have hadv := hs.mid_setStop (x := (Progress.start s.img).write s.params c (displayOff p) st0) hov
    ((s.statusAt_setup _ 1).trans hst1)
  rw [← hoff, ← hopAcq, ← State.advance_add, ← State.advance_add, s.params_setup] at hadv
  have hdid := State.lifecycle_did rfl hn (exec_stop (h.firstFailing_stop ho hl)) hadv
  rw [← h.lcBusy] at hdid
  exact hdid

/-- Settles O14: past its guards `init` returns in two steps (`exec_init_done`); else the guard is AlreadyInit. -/
theorem initCompletes : Obligations.InitCompletes := by
  unfold Obligations.InitCompletes
  intro s p c h ho
  have hguard := h.firstFailing_lifecycle (i := .init p) ho rfl
  refine ⟨fun hl hm hn => ?_, fun hl => ?_⟩
  · rw [lifeGuard, if_pos hl] at hguard
    exact ⟨_, exec_init_done hguard h.fatal h.hung hm hn, Did.of_setHere s c s.here.initialised .nothing⟩
  · rw [lifeGuard, if_neg hl] at hguard
    exact exec_of_firstFailing hguard

end

section
/-! PROOFS. The mutex under OPERATION (42_controller.md R232): a call that takes it at its `Acquire` has it as long as
the element that gives it back is to come, at every turn length. -/

namespace Sys2Proof.Machine

variable {s t : State} {c : BusConfig} {i : Instr} {fin a : Act} {σ σ' rest : List Act} {tid : Nat} {m m' : Option Nat}
  {r : Bool}

/-- Whether an element neither takes nor gives a mutex under OPERATION. -/
def Act.quiet (a : Act) : Bool := !a.isBurst && !a.releases && decide (a ≠ .opAcq)

theorem Act.quiet_iff : a.quiet = true ↔ a.isBurst = false ∧ a.releases = false ∧ a ≠ .opAcq := by
  simp [Act.quiet, and_assoc]

theorem Act.quiet_of_isAccess (ha : a.isAccess = true) (hb : a.isBurst = false) : a.quiet = true :=
  Act.quiet_iff.2 ⟨hb, Act.releases_of_isAccess ha, Act.ne_opAcq_of_isAccess ha⟩

/-- What remains of a call is quiet but for `fin`, which stands there at most once and gives back the mutex `m`; as long
as it is to come the mutex is the thread's, and then it is free. -/
structure OpHolds (fin : Act) (tid : Nat) (m : Option Nat) (σ : List Act) : Prop where
  quiet : ∀ a ∈ σ, a = fin ∨ a.quiet = true
  once : σ.count fin ≤ 1
  mutex : m = if fin ∈ σ then some tid else none

theorem OpHolds.quiet_of_ne (h : OpHolds fin tid m (a :: rest)) (hne : a ≠ fin) : a.quiet = true :=
  (h.quiet a (by simp)).resolve_left hne

/-- A quiet head replaced by another quiet element, the mutex as it is. -/
theorem OpHolds.replace {b : Act} (h : OpHolds fin tid m (a :: rest)) (ha : a ≠ fin) (hb : b.quiet = true)
    (hfin : fin.releases = true) : OpHolds fin tid m (b :: rest) := by
  have hbf : b ≠ fin := by
    rintro rfl
    exact absurd ((Act.quiet_iff.1 hb).2.1.symm.trans hfin) (by decide)
  obtain ⟨hq, ho, hm⟩ := h
  refine ⟨List.forall_mem_cons.2 ⟨.inr hb, (List.forall_mem_cons.1 hq).2⟩, ?_, ?_⟩
  · rwa [List.count_cons_of_ne hbf, ← List.count_cons_of_ne ha]
  · rw [hm]
    simp only [List.mem_cons, ha.symm, hbf.symm, false_or]

/-- A quiet head done, the mutex as it is. -/
theorem OpHolds.tail (h : OpHolds fin tid m (a :: rest)) (ha : a ≠ fin) : OpHolds fin tid m rest := by
  obtain ⟨hq, ho, hm⟩ := h
  refine ⟨(List.forall_mem_cons.1 hq).2, (List.count_le_count_cons).trans ho, ?_⟩
  rw [hm]
  simp [Ne.symm ha]

/-- `fin` done, the mutex given back. -/
theorem OpHolds.given (h : OpHolds fin tid m (fin :: rest)) : OpHolds fin tid none rest := by
  obtain ⟨hq, ho, -⟩ := h
  have hn : fin ∉ rest := by
    rw [List.count_cons_self] at ho
    exact List.count_eq_zero.1 (by omega)
  exact ⟨(List.forall_mem_cons.1 hq).2, by rw [List.count_eq_zero.2 hn]; exact Nat.zero_le 1, by rw [if_neg hn]⟩

theorem Moves.opHolds (h : Moves .operation tid m σ m' r σ') (hh : OpHolds fin tid m σ) (hfin : fin.releases = true) :
    OpHolds fin tid m' σ' := by
  have hne {b : Act} (hb : b.isAccess = true) : b ≠ fin := by
    rintro rfl
    exact absurd ((Act.releases_of_isAccess hb).symm.trans hfin) (by decide)
  have hlocks {b : Act} {tl : List Act} (hb : OpHolds fin tid m (b :: tl)) (ha : b.isAccess = true) :
      b.locks .operation = false := by
    simpa [Act.locks] using (Act.quiet_iff.1 (hb.quiet_of_ne (hne ha))).1
  cases h with
  | stay => exact hh
  | inside _ a b rest ha hb hk =>
    have ha := Act.isAccess_of_inAccess ha
    have hq := (Act.quiet_iff.1 (hh.quiet_of_ne (hne ha))).1
    exact hh.replace (hne ha) (Act.quiet_of_isAccess (Act.isAccess_of_inAccess hb) (hk.trans hq)) hfin
  | enter _ a b rest ha hb hk =>
    have ha := Act.isAccess_of_begins ha
    have hq := (Act.quiet_iff.1 (hh.quiet_of_ne (hne ha))).1
    exact hh.replace (hne ha) (Act.quiet_of_isAccess (Act.isAccess_of_inAccess hb) (hk.trans hq)) hfin
  | load => exact hh.replace (by rintro rfl; cases hfin) rfl hfin
  | take _ _ _ ha _ _ hl => exact absurd ((hlocks hh (Act.isAccess_of_begins ha)).symm.trans hl) (by decide)
  | give _ _ _ ha hl => exact absurd ((hlocks hh (Act.isAccess_of_inAccess ha)).symm.trans hl) (by decide)
  | leave _ _ _ ha => exact hh.tail (hne (Act.isAccess_of_inAccess ha))
  | opTake =>
    have hq := hh.quiet_of_ne (by rintro rfl; cases hfin)
    cases hq
  | opGive | init =>
    obtain rfl := (hh.quiet _ (List.mem_cons_self ..)).resolve_right (by decide)
    exact hh.given
  | drop _ a _ _ hi ho =>
    refine hh.tail ?_
    rintro rfl
    cases a with
    | opRel => cases ho (.inr rfl)
    | initialise => exact hi rfl
    | _ => cases hfin
  | done => exact hh

/-- `OpHolds` of the thread whose turn it is and its instance, whose granularity is OPERATION. -/
structure State.OpHolds (fin : Act) (s : State) : Prop where
  lock : s.here.params.lock = .operation
  holds : Machine.OpHolds fin s.turn.tid s.here.mutex s.me.seq

theorem State.OpHolds.atomic (h : s.OpHolds fin) (hfin : fin.releases = true) : s.atomic.OpHolds fin := by
  rcases s.atomic_moved with he | ⟨-, -, -, hm⟩
  · rwa [he]
  · obtain ⟨hl, ho⟩ := h
    rw [Moved, hl] at hm
    refine ⟨s.atomic_frame.params ▸ hl, ?_⟩
    rw [State.here_eq, s.atomic_frame.inst, s.atomic_frame.turn]
    exact hm.opHolds ho hfin

theorem State.OpHolds.advance (h : s.OpHolds fin) (hfin : fin.releases = true) (n : Nat) :
    (s.advance n).OpHolds fin := by
  induction n generalizing s with
  | zero => exact h
  | succ n ih => exact ih (h.atomic hfin)

/-- The `Acquire` of a free mutex. -/
theorem State.opHolds_opAcq (hf : s.fatal = none) (hr : s.me.running = true) (hh : s.me.hung = false)
    (hs : s.me.seq = .opAcq :: rest) (hl : s.here.params.lock = .operation) (hm : s.here.mutex = none)
    (hq : ∀ a ∈ rest, a = fin ∨ a.quiet = true) (ho : rest.count fin = 1) : s.atomic.OpHolds fin := by
  have hlock : s.params.lock = .operation := hl
  have hmem : fin ∈ rest := List.count_pos_iff.1 (by omega)
  have hat : s.atomic = (s.setHere { s.here with
      mutex := some s.turn.tid, waiters := s.here.waiters.filter (fun t => t ≠ s.turn.tid) }).pop := by
    rw [s.atomic_head hf hr hh hs, State.perform, hlock]
    exact s.acquire_free hm
  refine ⟨s.atomic_frame.params ▸ hl, ?_⟩
  rw [State.here_eq, s.atomic_frame.inst, s.atomic_frame.turn, hat, State.inst_pop, State.seq_pop, State.setHere_eq,
    State.inst_setInst_same, State.me_setInst, hs]
  exact ⟨hq, ho.le, (if_pos hmem).symm⟩

/-- A call that begins with its `Acquire`, at every turn length. -/
theorem State.CanCall.holds (h : s.CanCall) (i : Instr) (hl : s.params.lock = .operation) (hm : s.here.mutex = none)
    (hn : 1 ≤ s.turn.steps) (ret : RetKind) (hq : ∀ a ∈ rest, a = fin ∨ a.quiet = true) (ho : rest.count fin = 1)
    (hfin : fin.releases = true) :
    let t := ((s.setup i).begin (.opAcq :: rest) ret).advance s.turn.steps
    (t.inst s.me.inst).mutex = if fin ∈ t.me.seq then some s.turn.tid else none := by
  intro t
  obtain ⟨n, hn⟩ := Nat.exists_eq_add_of_le' hn
  have hbegin := (Frame.setup s i).begin (.opAcq :: rest) ret
  have hframe := hbegin.trans (Frame.advance _ s.turn.steps)
  have hhere : ((s.setup i).begin (.opAcq :: rest) ret).here = (s.setup i).inst s.me.inst := by
    rw [State.here_eq, hbegin.inst, State.inst_begin]
  have hfirst : ((s.setup i).begin (.opAcq :: rest) ret).atomic.OpHolds fin := by
    refine State.opHolds_opAcq ?_ (by rw [State.me_begin]) ?_ (State.seq_begin ..) ?_ ?_ hq ho
    · rw [State.fatal_begin, State.setup_eq]
      split <;> exact h.fatal
    · rw [State.me_begin, State.me_setup]
      exact h.hung
    · rw [hhere, (s.params_mutex_setup i).1]
      exact hl
    · rw [hhere, (s.params_mutex_setup i).2]
      exact hm
  have hheld := ((hfirst.advance hfin n).holds).mutex
  rw [← State.advance_succ, ← hn, State.here_eq, hframe.inst, hframe.turn] at hheld
  exact hheld

/-! ### Where the mutex is given back last -/

theorem getLast?_tail (h : (a :: rest).getLast? = some fin) (ha : a ≠ fin) : rest.getLast? = some fin := by
  cases rest with
  | nil => exact absurd (by simpa using h) ha
  | cons b rest => rwa [List.getLast?_cons_cons] at h

/-- A call whose last element is `fin` has returned when nothing remains of it. -/
def LastIs (fin : Act) (running : Bool) (σ : List Act) : Prop :=
  if running then σ.getLast? = some fin else σ = []

theorem LastIs.mem_iff (h : LastIs fin r σ) : fin ∈ σ ↔ r = true := by
  cases r with
  | true => exact iff_of_true (List.mem_of_getLast? h) rfl
  | false =>
    obtain rfl : σ = [] := h
    simp

theorem LastIs.of_tail (h : (a :: rest).getLast? = some fin) : LastIs fin (!rest.isEmpty) rest := by
  cases rest with
  | nil => rfl
  | cons b rest => rwa [List.getLast?_cons_cons] at h

theorem LastIs.replace {b : Act} (h : (a :: rest).getLast? = some fin) (ha : a ≠ fin) :
    LastIs fin true (b :: rest) := by
  have := getLast?_tail h ha
  rw [LastIs, if_pos rfl, List.getLast?_cons, this]
  rfl

theorem Moves.lastIs {lock : Lock} (h : Moves lock tid m σ m' r σ') (hl : LastIs fin true σ)
    (hfin : fin.releases = true) : LastIs fin r σ' := by
  have hne {b : Act} (hb : b.isAccess = true) : b ≠ fin := by
    rintro rfl
    exact absurd ((Act.releases_of_isAccess hb).symm.trans hfin) (by decide)
  cases h with
  | stay => exact hl
  | inside _ _ _ _ ha => exact .replace hl (hne (Act.isAccess_of_inAccess ha))
  | take _ _ _ ha | enter _ _ _ _ ha => exact .replace hl (hne (Act.isAccess_of_begins ha))
  | load => exact .replace hl (by rintro rfl; cases hfin)
  | give | leave | opTake | opGive | init | drop => exact .of_tail hl
  | done => cases hl

theorem State.lastIs_advance (h : LastIs fin s.me.running s.me.seq) (hfin : fin.releases = true) (n : Nat) :
    LastIs fin (s.advance n).me.running (s.advance n).me.seq := by
  induction n generalizing s with
  | zero => exact h
  | succ n ih =>
    refine ih ?_
    rcases s.atomic_moved with he | ⟨-, hr, -, hm⟩
    · rwa [he]
    · exact hm.lastIs (hr ▸ h) hfin

/-- A call that ends with its `Release` holds the mutex until it returns. -/
theorem State.CanCall.holds_running (h : s.CanCall) (i : Instr) (hl : s.params.lock = .operation)
    (hm : s.here.mutex = none) (hn : 1 ≤ s.turn.steps) (ret : RetKind) (hq : ∀ a ∈ rest, a = fin ∨ a.quiet = true)
    (ho : rest.count fin = 1) (hlast : rest.getLast? = some fin) (hfin : fin.releases = true) :
    let t := ((s.setup i).begin (.opAcq :: rest) ret).advance s.turn.steps
    (t.inst s.me.inst).mutex = if t.me.running then some s.turn.tid else none := by
  intro t
  have hend : LastIs fin t.me.running t.me.seq := by
    refine State.lastIs_advance ?_ hfin _
    rw [State.me_begin, LastIs, if_pos rfl, List.getLast?_cons, hlast]
    rfl
  rw [h.holds i hl hm hn ret hq ho hfin]
  exact if_congr hend.mem_iff rfl rfl

/-! ### The calls -/

/-- An operation's accesses are writes and reads to begin, and text bytes to load. -/
theorem exec_operation_plain (s : State) (ho : isOperation i = true) :
    ∃ ret acts, exec i s = s.operation ret acts ∧ acts.all Act.plain = true := by
  cases i <;> simp only [isOperation, Bool.false_eq_true] at ho
  case updatePattern | drawText => exact ⟨_, _, rfl, by simp [instrAct, moveAct, Act.plain]⟩
  case readData ddram offset =>
    exact ⟨.statusByte, [positionAct s.params ddram offset, .read .acq true .four], rfl, by cases ddram <;> rfl⟩
  all_goals exact ⟨_, _, rfl, rfl⟩

theorem Act.quiet_of_plain (h : a.plain = true) : a.quiet = true := by
  cases a with
  | write | read | load => rfl
  | _ => cases h

end Sys2Proof.Machine

open Sys2Proof Sys2Proof.Machine

/-- Settles O40: after the `Acquire` only `opRel`, or in `init` `initialise`, gives the mutex back
(`State.CanCall.holds`), which an operation and `init` end with (`State.CanCall.holds_running`). -/
theorem operationHoldsTheMutexThroughout : Obligations.OperationHoldsTheMutexThroughout := by
  unfold Obligations.OperationHoldsTheMutexThroughout
  intro s c hlock hm hn h
  refine ⟨fun i hi hl _ => ?_, fun ho => ⟨fun p hl => ?_, fun hl => ⟨?_, fun hc => ?_⟩⟩⟩
  · obtain ⟨ret, acts, he, hp⟩ := exec_operation_plain s hi
    have hquiet : ∀ a ∈ acts, a.quiet = true := fun a ha => Act.quiet_of_plain (List.all_eq_true.1 hp a ha)
    have hnot : .opRel ∉ acts := fun hmem => absurd (hquiet _ hmem) (by decide)
    have hheld := h.holds_running i hlock hm hn ret (rest := acts ++ [.opRel]) (fin := .opRel)
      (fun a ha => (List.mem_append.1 ha).symm.imp List.mem_singleton.1 (hquiet a))
      (by rw [List.count_append, List.count_eq_zero.2 hnot]; rfl) (by simp) rfl
    rw [State.setup_of_not_lifecycle (isLifecycle_of_isOperation hi)] at hheld
    rw [he, h.operation hl]
    exact ⟨_, rfl, hheld⟩
  · have hguard : s.firstFailing (.init p) = none := by
      rw [h.firstFailing_lifecycle ho rfl, lifeGuard, if_pos hl]
      rfl
    rw [exec_init hguard]
    exact ⟨_, rfl, h.holds_running (.init p) hlock hm hn .nothing (rest := [.initialise]) (by simp) rfl rfl rfl⟩
  · rw [exec_start (h.firstFailing_start ho hl), bringUp_eq]
    refine ⟨_, rfl, h.holds (.start c) hlock hm hn .nothing ?_ ?_ rfl⟩
    · simp [bringUpLead, bringUpTail, Act.quiet, Act.isBurst, Act.releases]
    · rfl
  · have hb : s.Bound c := ⟨h, hc⟩
    rw [exec_stop (hb.firstFailing_stop ho hl)]
    refine ⟨_, rfl, h.holds .stop hlock hm hn .nothing ?_ ?_ rfl⟩
    · simp [stopActs, Act.quiet, Act.isBurst, Act.releases]
    · rfl

end

section
/-! PROOFS. What a call does to `life` (42_controller.md R212; 10_state.md R42): the last element of a lifecycle call
alone writes it. -/

namespace Sys2Proof.Machine

variable {s t u : State} {i : Instr}

/-- The `life` such an element writes, whatever the record was. -/
theorem Instance.life_closed (j j' : Instance) {a : Act} (ha : a.closes = true) :
    (j.closed a).life = (j'.closed a).life := by
  cases a with
  | initialise | setReady | setStop => rfl
  | _ => cases ha

/-- `life` of every instance is as it was, or, of the one the call is on, an element of the call's sequence has
written it. -/
def State.LifeWritten (s t : State) : Prop := ∀ k, (t.inst k).life = (s.inst k).life ∨
  k = s.me.inst ∧ ∃ a ∈ s.me.seq, a.closes = true ∧ (t.inst k).life = ((s.inst k).closed a).life

theorem State.lifeWritten_atomic (s : State) : s.LifeWritten s.atomic := by
  intro k
  rcases s.atomic_life with he | ⟨-, -, hl⟩ | ⟨a, rest, -, hs, ha, he⟩
  · exact .inl (by rw [he])
  · exact .inl (hl k).life
  · rw [he, State.inst_pop, State.setHere_eq, State.inst_setInst]
    split
    · next hk => exact .inr ⟨hk, a, by simp [hs], ha, by rw [hk]; rfl⟩
    · exact .inl rfl

theorem State.lifeWritten_advance (n : Nat) (s : State) : s.LifeWritten (s.advance n) := by
  induction n generalizing s with
  | zero => exact fun _ => .inl rfl
  | succ n ih =>
    intro k
    rw [State.advance_succ]
    rcases ih s.atomic k with hl | ⟨hk, a, ha, hc, hl⟩
    · rw [hl]
      exact s.lifeWritten_atomic k
    · rw [s.atomic_frame.inst] at hk
      exact .inr ⟨hk, a, State.mem_seq_atomic ha (Act.isAccess_of_closes hc), hc,
        hl.trans (Instance.life_closed _ _ hc)⟩

/-- The beginning of a call leaves `life` alone. -/
theorem State.life_setup (s : State) (i : Instr) (k : Nat) : ((s.setup i).inst k).life = (s.inst k).life := by
  by_cases hk : k = s.me.inst
  · rw [hk]
    exact (s.life_delays_setup i).1
  · rw [(Frame.setup s i).insts k hk]

theorem State.life_of_stop (h : s.firstFailing .stop = none) : s.here.life ≠ .uninit := by
  intro hl
  have hg := State.guards_life h
  rw [lifeGuard, if_pos hl] at hg
  cases hg

end Sys2Proof.Machine

open Sys2Proof Sys2Proof.Machine

/-- Settles O48: a call past its guards writes `life` only at an element `init`, `start` or `stop` has
(`State.lifeWritten_advance`, `CallShape`), and a Fatal writes nothing. -/
theorem lifecycleTransitions : Obligations.LifecycleTransitions := by
  unfold Obligations.LifecycleTransitions
  intro s t i he k
  rcases exec_cases he with ⟨reason, -, rfl⟩ | ⟨hg, -, ret, acts, hs, rfl⟩
  · exact .inl rfl
  have hwritten := State.lifeWritten_advance s.turn.steps ((s.setup i).begin acts ret) k
  rw [State.inst_begin, State.seq_begin, s.life_setup, ((Frame.setup s i).begin acts ret).inst] at hwritten
  refine hwritten.imp_right fun ⟨hk, a, ha, hc, hl⟩ => ⟨hk, ?_⟩
  subst hk
  rw [hl]
  cases a with
  | initialise =>
    obtain ⟨⟨p, rfl⟩, -⟩ := hs.init ha
    exact .inl ⟨⟨p, rfl⟩, State.life_of_init hg, rfl⟩
  | setReady =>
    obtain ⟨c, rfl⟩ := hs.ready ha
    exact .inr (.inl ⟨⟨c, rfl⟩, State.life_of_start hg, rfl⟩)
  | setStop =>
    obtain rfl := hs.stop ha
    exact .inr (.inr ⟨rfl, State.life_of_stop hg, rfl⟩)
  | _ => cases hc

end

section
/-! PROOFS. Past its guards a call raises no Fatal (60_exceptions.md R253, R258): every atomic step of a call in progress
has a configuration under it, but for those of `init`, which make no transfer. -/

namespace Sys2Proof.Machine

variable {s : State} {i : Instr}

@[simp] theorem State.fatal_pop (s : State) : s.pop.fatal = s.fatal := by
  unfold State.pop
  split <;> rfl

@[simp] theorem State.fatal_acquire_pop (s : State) : (s.acquire State.pop).fatal = s.fatal := by
  unfold State.acquire
  split
  · exact State.fatal_pop _
  · rfl

theorem State.fatal_setup (s : State) (i : Instr) : (s.setup i).fatal = s.fatal := by
  rw [State.setup_eq]
  split <;> rfl

/-- Neither element of `init` raises Fatal, though its instance has no configuration. -/
theorem State.fatal_atomic_of_init (hs : s.me.seq = [.opAcq, .initialise] ∨ s.me.seq = [.initialise]) :
    s.atomic.fatal = s.fatal := by
  rcases s.atomic_moved with he | ⟨hf, hr, hh, -⟩
  · rw [he]
  rcases hs with hs | hs <;> rw [s.atomic_head hf hr hh hs]
  · simp only [State.perform]
    split <;> simp
  · simp [State.perform]

/-- A step of `init` raises none, and any other call in progress has a configuration, past which none is raised. -/
theorem LifeInv.fatal_atomic (h : LifeInv s) : s.atomic.fatal = s.fatal := by
  obtain ⟨hA, -, hC⟩ := lifeInv_iff.1 h
  by_cases hr : s.me.running = true
  · by_cases hm : Act.initialise ∈ s.me.seq
    · exact State.fatal_atomic_of_init ((lifecycleAlone_iff.1 hA _ hr).2 hm).1
    · exact s.atomic_frame.fatal (fun rest hs => hm (by simp [hs])) ((hC _ hr).cfg hm)
  · rw [s.atomic_idle (by simpa using hr)]

theorem LifeInv.fatal_advance (h : LifeInv s) (n : Nat) : (s.advance n).fatal = s.fatal := by
  induction n generalizing s with
  | zero => rfl
  | succ n ih => rw [State.advance_succ, ih h.atomic, h.fatal_atomic]

theorem step_of_fatal {reason : FatalReason} (hf : s.fatal = some reason) : step s = .fault (.processEnded reason) := by
  rw [step, hf]

end Sys2Proof.Machine

open Sys2Proof Sys2Proof.Machine

/-- Settles O33 (`exec_of_firstFailing`): raising Fatal records the event and the reason. -/
theorem firstFailingGuardRaisesFatal : Obligations.FirstFailingGuardRaisesFatal := by
  unfold Obligations.FirstFailingGuardRaisesFatal
  exact fun _ _ _ h => exec_of_firstFailing h

/-- Settles O34: the call begins in the lifecycle invariant (`LifeInv.begin`), and from there its turn raises none
(`LifeInv.fatal_advance`). -/
theorem noFatalPastTheGuards : Obligations.NoFatalPastTheGuards := by
  unfold Obligations.NoFatalPastTheGuards
  intro s i h hg hb
  obtain ⟨ret, acts, -, he⟩ := exec_shape hg hb
  refine ⟨_, he, ?_⟩
  rcases exec_begins he with ⟨reason, hf, -⟩ | ⟨-, ret', acts', hs, hm, ht⟩
  · exact absurd (hg.symm.trans hf) nofun
  · rw [ht, (h.begin hg hs hm).fatal_advance, State.fatal_begin, State.fatal_setup]

/-- Settles O35: a bad length is refused (`exec_of_badLength`), and a call with any other begins (`exec_shape`). -/
theorem refusedExactlyOnBadLength : Obligations.RefusedExactlyOnBadLength := by
  unfold Obligations.RefusedExactlyOnBadLength
  intro s i hg
  refine ⟨fun hrefused => ?_, exec_of_badLength hg⟩
  by_contra hb
  obtain ⟨ret, acts, -, he⟩ := exec_shape hg hb
  exact absurd (he.symm.trans hrefused) nofun

/-- Settles O36: neither the machine (`step_of_fatal`) nor an atomic step (`State.atomic_fatal`) moves. -/
theorem faultedProcessTakesNoStep : Obligations.FaultedProcessTakesNoStep := by
  unfold Obligations.FaultedProcessTakesNoStep
  exact fun s reason hf => ⟨step_of_fatal hf, State.advance_fixed (s.atomic_fatal (by simp [hf]))⟩

end

section
/-! PROOFS. The SLEEP durations of the event lists (70_reset_and_hazards.md R298): the total of a chain of events is the
sum of its parts' totals, and a write or a read access sleeps once at most, in its settle. -/

namespace Sys2Proof.Machine

variable {p : Params} {c : BusConfig} {bl rs : Bool}

@[simp] theorem sleepTotal_append (es fs : List EventBody) : sleepTotal (es ++ fs) = sleepTotal es + sleepTotal fs := by
  induction es with
  | nil => simp [sleepTotal]
  | cons e es ih => cases e <;> simp [sleepTotal, ih, Nat.add_assoc]

@[simp] theorem sleepTotal_sleep (us : Nat) : sleepTotal [.sleep us] = us := rfl

@[simp] theorem sleepTotal_writeEvents (v : Byte) (width : Width) (settle : Settle) (st : Status) :
    sleepTotal (writeEvents p c bl rs v width settle st) = settleTime p settle := rfl

@[simp] theorem sleepTotal_readSettle (rs : Bool) : sleepTotal (readSettle p rs) = if rs then 0 else p.tStatus := by
  cases rs <;> rfl

/-- A read's transfers take no SLEEP time, in either width: its settle alone does. -/
@[simp] theorem sleepTotal_readEvents (b1 b2 : Byte) (st : Status) (width : Width) :
    sleepTotal (readEvents p c bl rs b1 b2 st width) = if rs then 0 else p.tStatus := by
  rw [← sleepTotal_readSettle]
  cases width <;> rfl

/-- An aborted read ends before its settle. -/
theorem sleepTotal_abortEvents (b1 : Byte) (k : Nat) : sleepTotal (abortEvents p c bl rs b1 k) = 0 := by
  match k with
  | 0 | 1 | 2 | _ + 3 => rfl

theorem sleepTotal_textEvents (s : State) (buf : Buffer) (st : Nat → Status) (n : Nat) :
    sleepTotal (textEvents s c buf st n) = n * s.params.tSettle := by
  induction n with
  | zero => simp [textEvents, sleepTotal]
  | succ n ih => rw [textEvents_succ, sleepTotal_append, ih, sleepTotal_writeEvents, settleTime, Nat.succ_mul]

/-- The bring-up sleeps three times by itself and settles eight short writes, one clear and one home, besides its poll. -/
theorem sleepTotal_bringUpEvents (st : Nat → Status) (poll : List EventBody) :
    sleepTotal (bringUpEvents p c bl st poll) =
      p.tPower + p.tFs1 + p.tFs2 + 8 * p.tSettle + p.tClear + p.tHome + sleepTotal poll := by
  simp only [bringUpEvents, sleepTotal_append, sleepTotal_sleep, sleepTotal_writeEvents, settleTime]
  omega

end Sys2Proof.Machine

open Sys2Proof Sys2Proof.Machine

/-- Settles O51: one sum for each event list, the bring-up's (`sleepTotal_bringUpEvents`) with the status read's as its
poll. -/
theorem sleepTotals : Obligations.SleepTotals := by
  unfold Obligations.SleepTotals
  intro s p c bl rs v b1 b2 settle buf st si n k width
  refine ⟨?_, sleepTotal_writeEvents .., sleepTotal_textEvents .., sleepTotal_readEvents .., sleepTotal_abortEvents ..⟩
  rw [sleepTotal_bringUpEvents, sleepTotal_readEvents, if_neg Bool.false_ne_true]

end
